-- ==== Sys2Proof/Word.lean ====
section
/-! DEFINITION. The word types of the card machine.

The word size N is 16 or 32 (`00_scope.md` R2). An N-bit value is carried in a 32-bit container whose bits N and up
are 0, so that one type serves both sizes; the arithmetic "fixed on N bits" is in `Machine/Bits.lean`. -/

namespace Sys2Proof

/-- The container of an N-bit value, N = 16 or 32 (R2). -/
abbrev Word := BitVec 32

/-- One byte of memory (R50). -/
abbrev Byte := BitVec 8

/-- An instruction word, 16 bits for every N (R80). -/
abbrev InstrWord := BitVec 16

/-- A 4-bit register code: code k names Rk (R20, R90). -/
abbrev Reg := Fin 16

/-- R15, the stack pointer (R21). -/
abbrev SP : Reg := 15

end Sys2Proof
end

