-- ==== Sys2Proof/Syntax.lean ====
section
/-! DEFINITION. The instructions: one constructor for each row of the opcode table, in the table's order (R105).

The extension word IE is not a field of an instruction: it is the word that follows in memory, and the meaning fetches it
at the PC (R92, R344). -/

namespace Sys2Proof

/-- The eight addressing modes, in the order of their 3-bit codes (R94 to R102). -/
inductive Mode where
  /-- 000, the extension word (R95). -/
  | immediate
  /-- 001, the register (R96). -/
  | register
  /-- 010, memory at the register (R97). -/
  | indirect
  /-- 011, memory at the register, which then steps up (R98). -/
  | postIncrement
  /-- 100, the register steps down, then memory at it (R99). -/
  | preDecrement
  /-- 101, memory at the extension word (R100). -/
  | direct
  /-- 110, memory at the register plus the extension word (R101). -/
  | indexed
  /-- 111, memory at the pointer stored at the register plus the extension word (R102). -/
  | indirectIndexed
  deriving DecidableEq, Repr

/-- The modes that have an extension word (R92). -/
def Mode.hasExtension : Mode → Bool
  | .immediate | .direct | .indexed | .indirectIndexed => true
  | .register | .indirect | .postIncrement | .preDecrement => false

/-- The instructions. Fields stand in the order of the format's figure, most significant first (R81 to R88). -/
inductive Instr where
  -- Group I (R81)
  /-- ADC (R122). -/
  | adc (sa sb d : Reg)
  /-- XOR (R123). -/
  | xor (sa sb d : Reg)
  /-- DIV (R124). -/
  | div (sa sb d : Reg)
  /-- MUL (R125). -/
  | mul (sa sb d : Reg)
  /-- AND (R126). -/
  | and (sa sb d : Reg)
  /-- OR (R127). -/
  | or (sa sb d : Reg)
  /-- ADD (R128). -/
  | add (sa sb d : Reg)
  /-- SUB (R129). -/
  | sub (sa sb d : Reg)
  -- Group II (R82)
  /-- RLC (R142). -/
  | rlc (s d : Reg)
  /-- RRC (R143). -/
  | rrc (s d : Reg)
  /-- SRL (R144). -/
  | srl (s d : Reg)
  /-- SRA (R145). -/
  | sra (s d : Reg)
  /-- NOT (R146). -/
  | not (s d : Reg)
  /-- SBB (R147). -/
  | sbb (s d : Reg)
  /-- SHL (R148). -/
  | shl (s d : Reg)
  /-- NEG (R149). -/
  | neg (s d : Reg)
  /-- INP (R150). -/
  | inp (s d : Reg)
  /-- OUT (R151). -/
  | out (s d : Reg)
  /-- SWB (R152). -/
  | swb (s d : Reg)
  /-- RLB (R153). -/
  | rlb (s d : Reg)
  /-- ANI (R154). -/
  | ani (s d : Reg)
  /-- EXT (R155). -/
  | ext (s d : Reg)
  /-- ADI (R156). -/
  | adi (s d : Reg)
  /-- CMP (R157). -/
  | cmp (s d : Reg)
  -- Group III (R83)
  /-- LDB (R175). -/
  | ldb (a : Reg) (mode : Mode) (b : Reg)
  /-- LDW (R174). -/
  | ldw (a : Reg) (mode : Mode) (b : Reg)
  /-- LDL (R176). -/
  | ldl (a : Reg) (mode : Mode) (b : Reg)
  /-- STB (R178). -/
  | stb (a : Reg) (mode : Mode) (b : Reg)
  /-- STW (R177). -/
  | stw (a : Reg) (mode : Mode) (b : Reg)
  /-- STL (R179). -/
  | stl (a : Reg) (mode : Mode) (b : Reg)
  -- Conditional relative branch with a mode operand (R84)
  /-- JMP (JAL) (R204). -/
  | jmp (mode : Mode) (r : Reg)
  /-- JEQ (R205). -/
  | jeq (mode : Mode) (r : Reg)
  /-- JNE (R206). -/
  | jne (mode : Mode) (r : Reg)
  /-- JGE (R207). -/
  | jge (mode : Mode) (r : Reg)
  /-- JLE (R208). -/
  | jle (mode : Mode) (r : Reg)
  /-- JGT (R209). -/
  | jgt (mode : Mode) (r : Reg)
  /-- JLW (R210). -/
  | jlw (mode : Mode) (r : Reg)
  /-- JAE (JCC) (R211). -/
  | jae (mode : Mode) (r : Reg)
  /-- JBE (R212). -/
  | jbe (mode : Mode) (r : Reg)
  /-- JAB (R213). -/
  | jab (mode : Mode) (r : Reg)
  /-- JBL (JCS) (R214). -/
  | jbl (mode : Mode) (r : Reg)
  /-- JVS (R215). -/
  | jvs (mode : Mode) (r : Reg)
  /-- JVC (R216). -/
  | jvc (mode : Mode) (r : Reg)
  -- One-operand group (R85)
  /-- JPA (R221). -/
  | jpa (mode : Mode) (r : Reg)
  /-- JEA (R222). -/
  | jea (mode : Mode) (r : Reg)
  /-- JSR (R223). -/
  | jsr (mode : Mode) (r : Reg)
  /-- TRP (R224). -/
  | trp (mode : Mode) (r : Reg)
  /-- TST (R225). -/
  | tst (mode : Mode) (r : Reg)
  /-- TSR (R226). -/
  | tsr (mode : Mode) (r : Reg)
  /-- MSR (R227). -/
  | msr (mode : Mode) (r : Reg)
  /-- MPC (R228). -/
  | mpc (mode : Mode) (r : Reg)
  -- No-operand group (R86)
  /-- NOP (R241). -/
  | nop
  /-- HLT (R242). -/
  | hlt
  /-- RTS (R243). -/
  | rts
  /-- RTI (R244). -/
  | rti
  /-- CLC (R245). -/
  | clc
  /-- STC (R246). -/
  | stc
  /-- DSI (R247). -/
  | dsi
  /-- ENI (R248). -/
  | eni
  -- Quick group (R87)
  /-- LDQ (R261). -/
  | ldq (value : BitVec 8) (r : Reg)
  /-- ADQ (R262). -/
  | adq (value : BitVec 8) (r : Reg)
  -- Short conditional relative branch (R88)
  /-- JQMP (JQAL) (R271). -/
  | jqmp (value : BitVec 8)
  /-- JQEQ (R272). -/
  | jqeq (value : BitVec 8)
  /-- JQNE (R273). -/
  | jqne (value : BitVec 8)
  /-- JQGE (R274). -/
  | jqge (value : BitVec 8)
  /-- JQLE (R275). -/
  | jqle (value : BitVec 8)
  /-- JQGT (R276). -/
  | jqgt (value : BitVec 8)
  /-- JQLW (R277). -/
  | jqlw (value : BitVec 8)
  /-- JQAE (JQCC) (R278). -/
  | jqae (value : BitVec 8)
  /-- JQBE (R279). -/
  | jqbe (value : BitVec 8)
  /-- JQAB (R280). -/
  | jqab (value : BitVec 8)
  /-- JQBL (JQCS) (R281). -/
  | jqbl (value : BitVec 8)
  /-- JQVS (R282). -/
  | jqvs (value : BitVec 8)
  /-- JQVC (R283). -/
  | jqvc (value : BitVec 8)
  deriving DecidableEq, Repr

end Sys2Proof
end

