-- ==== Sys2Proof/Decode.lean ====
section
/-! DEFINITION. Decoding and encoding of instruction words (R80 to R93, R105, R106).

The bit positions of the formats BM, O1, O0 and Q are the spec's own choice (R84 to R87; log 24); the tables below are
those of R105 and of `opcode_table.json`. -/

namespace Sys2Proof

/-- `w[hi:lo]` as a number (R3). -/
def bits (w : InstrWord) (hi lo : Nat) : Nat := w.toNat / 2 ^ lo % 2 ^ (hi - lo + 1)

/-- The register code whose low bit is bit `lo` (R90). -/
def regField (w : InstrWord) (lo : Nat) : Reg := Fin.ofNat 16 (w.toNat / 2 ^ lo)

/-- The 8-bit ValueCode whose low bit is bit `lo` (R91). -/
def valueField (w : InstrWord) (lo : Nat) : BitVec 8 := BitVec.ofNat 8 (w.toNat / 2 ^ lo)

/-- The mode of a 3-bit code (R94). -/
def Mode.ofCode : Nat → Mode
  | 0 => .immediate
  | 1 => .register
  | 2 => .indirect
  | 3 => .postIncrement
  | 4 => .preDecrement
  | 5 => .direct
  | 6 => .indexed
  | _ => .indirectIndexed

/-- The 3-bit code of a mode (R94). -/
def Mode.code : Mode → Nat
  | .immediate => 0
  | .register => 1
  | .indirect => 2
  | .postIncrement => 3
  | .preDecrement => 4
  | .direct => 5
  | .indexed => 6
  | .indirectIndexed => 7

/-- The mode field, bits 6:4 of the formats G3, BM and O1 (R83, R84, R85). -/
def modeField (w : InstrWord) : Mode := Mode.ofCode (bits w 6 4)

/-- Group I by OP3 (R105). -/
def groupITable : List (Reg → Reg → Reg → Instr) :=
  [.adc, .xor, .div, .mul, .and, .or, .add, .sub]

/-- Group II by OP2 (R105). -/
def groupIITable : List (Reg → Reg → Instr) :=
  [.rlc, .rrc, .srl, .sra, .not, .sbb, .shl, .neg, .inp, .out, .swb, .rlb, .ani, .ext, .adi, .cmp]

/-- Group III by Type and D, `2 * Type + D`; Type 00 is Group II (R83, R105). -/
def groupIIITable : List (Option (Reg → Mode → Reg → Instr)) :=
  [none, none, some .stb, some .ldb, some .stw, some .ldw, some .stl, some .ldl]

/-- The branch with a mode operand by CC; the codes 0000, 1110 and 1111 are in no table (R105, R106). -/
def branchModeTable : List (Option (Mode → Reg → Instr)) :=
  [none, some .jmp, some .jeq, some .jne, some .jge, some .jle, some .jgt, some .jlw,
    some .jae, some .jbe, some .jab, some .jbl, some .jvs, some .jvc, none, none]

/-- The one-operand group by OP1 (R105). -/
def op1Table : List (Mode → Reg → Instr) :=
  [.jpa, .jea, .jsr, .trp, .tst, .tsr, .msr, .mpc]

/-- The no-operand group by OP0 (R105). -/
def op0Table : List Instr :=
  [.nop, .hlt, .rts, .rti, .clc, .stc, .dsi, .eni]

/-- The quick group by OPQ (R105). -/
def quickTable : List (BitVec 8 → Reg → Instr) :=
  [.ldq, .adq]

/-- The short branch by CC; the codes 0000, 1110 and 1111 are in no table (R105, R106). -/
def branchShortTable : List (Option (BitVec 8 → Instr)) :=
  [none, some .jqmp, some .jqeq, some .jqne, some .jqge, some .jqle, some .jqgt, some .jqlw,
    some .jqae, some .jqbe, some .jqab, some .jqbl, some .jqvs, some .jqvc, none, none]

/-- The instruction a word selects, if any row of the tables does: the top-level decode of R89. -/
def select (w : InstrWord) : Option Instr :=
  if bits w 15 15 = 1 then
    groupITable[bits w 14 12]?.map fun op => op (regField w 8) (regField w 4) (regField w 0)
  else if bits w 15 12 = 0b0100 then
    groupIITable[bits w 11 8]?.map fun op => op (regField w 4) (regField w 0)
  else if bits w 15 14 = 0b01 then
    (groupIIITable[2 * bits w 13 12 + bits w 7 7]?.join).map fun op => op (regField w 8) (modeField w) (regField w 0)
  else if bits w 15 13 = 0b001 then
    quickTable[bits w 12 12]?.map fun op => op (valueField w 4) (regField w 0)
  else if bits w 15 12 = 0b0001 then
    (branchShortTable[bits w 11 8]?.join).map fun op => op (valueField w 0)
  else if bits w 15 11 = 0b00000 then
    (branchModeTable[bits w 10 7]?.join).map fun op => op (modeField w) (regField w 0)
  else if bits w 15 10 = 0b000010 then
    op1Table[bits w 9 7]?.map fun op => op (modeField w) (regField w 0)
  else if bits w 9 3 = 0 then
    op0Table[bits w 2 0]?
  else
    none

/-- Why bytes do not decode. -/
inductive DecodeError where
  /-- Fewer than two bytes: no instruction word (R80). -/
  | truncated
  /-- The word selects no instruction of any table (R106). -/
  | reservedEncoding (w : InstrWord)
  deriving DecidableEq, Repr

/-- Decode of an instruction word, total on the 65536 words (R89), rejecting the words of R106 by name. -/
def decodeWord (w : InstrWord) : Except DecodeError Instr :=
  match select w with
  | some i => .ok i
  | none => .error (.reservedEncoding w)

/-- Decode of a byte string: the instruction word is its first two bytes, most significant first (R55). The rest, in
which an extension word would stand, is returned. -/
def decode : List Byte → Except DecodeError (Instr × List Byte)
  | hi :: lo :: rest =>
    match decodeWord (BitVec.ofNat 16 (hi.toNat * 256 + lo.toNat)) with
    | .ok i => .ok (i, rest)
    | .error e => .error e
  | _ => .error .truncated

/-- Whether an instruction has an extension word (R92). -/
def Instr.hasExtension : Instr → Bool
  | .ani _ _ | .adi _ _ => true
  | .ldb _ m _ | .ldw _ m _ | .ldl _ m _ | .stb _ m _ | .stw _ m _ | .stl _ m _ => m.hasExtension
  | .jmp m _ | .jeq m _ | .jne m _ | .jge m _ | .jle m _ | .jgt m _ | .jlw m _ | .jae m _ | .jbe m _
  | .jab m _ | .jbl m _ | .jvs m _ | .jvc m _ => m.hasExtension
  | .jpa m _ | .jea m _ | .jsr m _ | .trp m _ | .tst m _ | .tsr m _ | .msr m _ | .mpc m _ => m.hasExtension
  | _ => false

/-- Whether a word is followed by an extension word, told from the word alone (R93). -/
def wordHasExtension (w : InstrWord) : Bool :=
  let mode := bits w 6 4
  let modal := mode == 0b000 || mode == 0b101 || mode == 0b110 || mode == 0b111
  let isG3 := bits w 15 14 == 0b01 && bits w 15 12 != 0b0100
  let isBM := bits w 15 11 == 0b00000
  let isO1 := bits w 15 10 == 0b000010
  bits w 15 8 == 0x4C || bits w 15 8 == 0x4E || ((isG3 || isBM || isO1) && modal)

/-! ## Encoding -/

/-- Format G1: `8000h + OP3 x 1000h + CRsa x 100h + CRsb x 10h + CRd` (R81). -/
def wordG1 (op : Nat) (sa sb d : Reg) : InstrWord :=
  BitVec.ofNat 16 (0x8000 + op * 0x1000 + sa.val * 0x100 + sb.val * 0x10 + d.val)

/-- Format G2: `4000h + OP2 x 100h + CRs x 10h + CRd` (R82). -/
def wordG2 (op : Nat) (s d : Reg) : InstrWord :=
  BitVec.ofNat 16 (0x4000 + op * 0x100 + s.val * 0x10 + d.val)

/-- Format G3: `4000h + Type x 1000h + CRa x 100h + D x 80h + ModeB x 10h + CRb` (R83). -/
def wordG3 (type dir : Nat) (a : Reg) (m : Mode) (b : Reg) : InstrWord :=
  BitVec.ofNat 16 (0x4000 + type * 0x1000 + a.val * 0x100 + dir * 0x80 + m.code * 0x10 + b.val)

/-- Format BM: `CC x 80h + Mode x 10h + CR` (R84). -/
def wordBM (cc : Nat) (m : Mode) (r : Reg) : InstrWord :=
  BitVec.ofNat 16 (cc * 0x80 + m.code * 0x10 + r.val)

/-- Format O1: `0800h + OP1 x 80h + Mode x 10h + CR` (R85). -/
def wordO1 (op : Nat) (m : Mode) (r : Reg) : InstrWord :=
  BitVec.ofNat 16 (0x0800 + op * 0x80 + m.code * 0x10 + r.val)

/-- Format O0: `0C00h + OP0` (R86). -/
def wordO0 (op : Nat) : InstrWord := BitVec.ofNat 16 (0x0C00 + op)

/-- Format Q: `2000h + OPQ x 1000h + ValueCode x 10h + CR` (R87). -/
def wordQ (op : Nat) (value : BitVec 8) (r : Reg) : InstrWord :=
  BitVec.ofNat 16 (0x2000 + op * 0x1000 + value.toNat * 0x10 + r.val)

/-- Format BQ: `1000h + CC x 100h + ValueCode` (R88). -/
def wordBQ (cc : Nat) (value : BitVec 8) : InstrWord :=
  BitVec.ofNat 16 (0x1000 + cc * 0x100 + value.toNat)

/-- The instruction word of an instruction (R105). -/
def encodeWord : Instr → InstrWord
  | .adc sa sb d => wordG1 0b000 sa sb d
  | .xor sa sb d => wordG1 0b001 sa sb d
  | .div sa sb d => wordG1 0b010 sa sb d
  | .mul sa sb d => wordG1 0b011 sa sb d
  | .and sa sb d => wordG1 0b100 sa sb d
  | .or sa sb d => wordG1 0b101 sa sb d
  | .add sa sb d => wordG1 0b110 sa sb d
  | .sub sa sb d => wordG1 0b111 sa sb d
  | .rlc s d => wordG2 0b0000 s d
  | .rrc s d => wordG2 0b0001 s d
  | .srl s d => wordG2 0b0010 s d
  | .sra s d => wordG2 0b0011 s d
  | .not s d => wordG2 0b0100 s d
  | .sbb s d => wordG2 0b0101 s d
  | .shl s d => wordG2 0b0110 s d
  | .neg s d => wordG2 0b0111 s d
  | .inp s d => wordG2 0b1000 s d
  | .out s d => wordG2 0b1001 s d
  | .swb s d => wordG2 0b1010 s d
  | .rlb s d => wordG2 0b1011 s d
  | .ani s d => wordG2 0b1100 s d
  | .ext s d => wordG2 0b1101 s d
  | .adi s d => wordG2 0b1110 s d
  | .cmp s d => wordG2 0b1111 s d
  | .ldb a m b => wordG3 0b01 1 a m b
  | .ldw a m b => wordG3 0b10 1 a m b
  | .ldl a m b => wordG3 0b11 1 a m b
  | .stb a m b => wordG3 0b01 0 a m b
  | .stw a m b => wordG3 0b10 0 a m b
  | .stl a m b => wordG3 0b11 0 a m b
  | .jmp m r => wordBM 0b0001 m r
  | .jeq m r => wordBM 0b0010 m r
  | .jne m r => wordBM 0b0011 m r
  | .jge m r => wordBM 0b0100 m r
  | .jle m r => wordBM 0b0101 m r
  | .jgt m r => wordBM 0b0110 m r
  | .jlw m r => wordBM 0b0111 m r
  | .jae m r => wordBM 0b1000 m r
  | .jbe m r => wordBM 0b1001 m r
  | .jab m r => wordBM 0b1010 m r
  | .jbl m r => wordBM 0b1011 m r
  | .jvs m r => wordBM 0b1100 m r
  | .jvc m r => wordBM 0b1101 m r
  | .jpa m r => wordO1 0b000 m r
  | .jea m r => wordO1 0b001 m r
  | .jsr m r => wordO1 0b010 m r
  | .trp m r => wordO1 0b011 m r
  | .tst m r => wordO1 0b100 m r
  | .tsr m r => wordO1 0b101 m r
  | .msr m r => wordO1 0b110 m r
  | .mpc m r => wordO1 0b111 m r
  | .nop => wordO0 0b000
  | .hlt => wordO0 0b001
  | .rts => wordO0 0b010
  | .rti => wordO0 0b011
  | .clc => wordO0 0b100
  | .stc => wordO0 0b101
  | .dsi => wordO0 0b110
  | .eni => wordO0 0b111
  | .ldq v r => wordQ 0 v r
  | .adq v r => wordQ 1 v r
  | .jqmp v => wordBQ 0b0001 v
  | .jqeq v => wordBQ 0b0010 v
  | .jqne v => wordBQ 0b0011 v
  | .jqge v => wordBQ 0b0100 v
  | .jqle v => wordBQ 0b0101 v
  | .jqgt v => wordBQ 0b0110 v
  | .jqlw v => wordBQ 0b0111 v
  | .jqae v => wordBQ 0b1000 v
  | .jqbe v => wordBQ 0b1001 v
  | .jqab v => wordBQ 0b1010 v
  | .jqbl v => wordBQ 0b1011 v
  | .jqvs v => wordBQ 0b1100 v
  | .jqvc v => wordBQ 0b1101 v

/-- The two bytes of a word in memory order, most significant first (R53, R55). -/
def wordBytes (w : InstrWord) : List Byte :=
  [BitVec.ofNat 8 (w.toNat / 256), BitVec.ofNat 8 w.toNat]

/-- The bytes of an instruction word (R55). -/
def encode (i : Instr) : List Byte := wordBytes (encodeWord i)

/-- A row of `opcode_table.json`: the words of an instruction are those that equal `pattern` under `mask`. -/
structure OpcodeRow where
  pattern : InstrWord
  mask : InstrWord
  deriving DecidableEq, Repr

/-- A word belongs to a row. -/
def OpcodeRow.holds (r : OpcodeRow) (w : InstrWord) : Bool := w &&& r.mask == r.pattern

/-- No word belongs to both rows. -/
def OpcodeRow.disjoint (r q : OpcodeRow) : Bool := r.pattern &&& q.mask != q.pattern &&& r.mask

/-- The row of an instruction. -/
def Instr.row : Instr → OpcodeRow
  | .adc _ _ _ => ⟨0x8000, 0xF000⟩
  | .xor _ _ _ => ⟨0x9000, 0xF000⟩
  | .div _ _ _ => ⟨0xA000, 0xF000⟩
  | .mul _ _ _ => ⟨0xB000, 0xF000⟩
  | .and _ _ _ => ⟨0xC000, 0xF000⟩
  | .or _ _ _ => ⟨0xD000, 0xF000⟩
  | .add _ _ _ => ⟨0xE000, 0xF000⟩
  | .sub _ _ _ => ⟨0xF000, 0xF000⟩
  | .rlc _ _ => ⟨0x4000, 0xFF00⟩
  | .rrc _ _ => ⟨0x4100, 0xFF00⟩
  | .srl _ _ => ⟨0x4200, 0xFF00⟩
  | .sra _ _ => ⟨0x4300, 0xFF00⟩
  | .not _ _ => ⟨0x4400, 0xFF00⟩
  | .sbb _ _ => ⟨0x4500, 0xFF00⟩
  | .shl _ _ => ⟨0x4600, 0xFF00⟩
  | .neg _ _ => ⟨0x4700, 0xFF00⟩
  | .inp _ _ => ⟨0x4800, 0xFF00⟩
  | .out _ _ => ⟨0x4900, 0xFF00⟩
  | .swb _ _ => ⟨0x4A00, 0xFF00⟩
  | .rlb _ _ => ⟨0x4B00, 0xFF00⟩
  | .ani _ _ => ⟨0x4C00, 0xFF00⟩
  | .ext _ _ => ⟨0x4D00, 0xFF00⟩
  | .adi _ _ => ⟨0x4E00, 0xFF00⟩
  | .cmp _ _ => ⟨0x4F00, 0xFF00⟩
  | .ldb _ _ _ => ⟨0x5080, 0xF080⟩
  | .ldw _ _ _ => ⟨0x6080, 0xF080⟩
  | .ldl _ _ _ => ⟨0x7080, 0xF080⟩
  | .stb _ _ _ => ⟨0x5000, 0xF080⟩
  | .stw _ _ _ => ⟨0x6000, 0xF080⟩
  | .stl _ _ _ => ⟨0x7000, 0xF080⟩
  | .jmp _ _ => ⟨0x0080, 0xFF80⟩
  | .jeq _ _ => ⟨0x0100, 0xFF80⟩
  | .jne _ _ => ⟨0x0180, 0xFF80⟩
  | .jge _ _ => ⟨0x0200, 0xFF80⟩
  | .jle _ _ => ⟨0x0280, 0xFF80⟩
  | .jgt _ _ => ⟨0x0300, 0xFF80⟩
  | .jlw _ _ => ⟨0x0380, 0xFF80⟩
  | .jae _ _ => ⟨0x0400, 0xFF80⟩
  | .jbe _ _ => ⟨0x0480, 0xFF80⟩
  | .jab _ _ => ⟨0x0500, 0xFF80⟩
  | .jbl _ _ => ⟨0x0580, 0xFF80⟩
  | .jvs _ _ => ⟨0x0600, 0xFF80⟩
  | .jvc _ _ => ⟨0x0680, 0xFF80⟩
  | .jpa _ _ => ⟨0x0800, 0xFF80⟩
  | .jea _ _ => ⟨0x0880, 0xFF80⟩
  | .jsr _ _ => ⟨0x0900, 0xFF80⟩
  | .trp _ _ => ⟨0x0980, 0xFF80⟩
  | .tst _ _ => ⟨0x0A00, 0xFF80⟩
  | .tsr _ _ => ⟨0x0A80, 0xFF80⟩
  | .msr _ _ => ⟨0x0B00, 0xFF80⟩
  | .mpc _ _ => ⟨0x0B80, 0xFF80⟩
  | .nop => ⟨0x0C00, 0xFFFF⟩
  | .hlt => ⟨0x0C01, 0xFFFF⟩
  | .rts => ⟨0x0C02, 0xFFFF⟩
  | .rti => ⟨0x0C03, 0xFFFF⟩
  | .clc => ⟨0x0C04, 0xFFFF⟩
  | .stc => ⟨0x0C05, 0xFFFF⟩
  | .dsi => ⟨0x0C06, 0xFFFF⟩
  | .eni => ⟨0x0C07, 0xFFFF⟩
  | .ldq _ _ => ⟨0x2000, 0xF000⟩
  | .adq _ _ => ⟨0x3000, 0xF000⟩
  | .jqmp _ => ⟨0x1100, 0xFF00⟩
  | .jqeq _ => ⟨0x1200, 0xFF00⟩
  | .jqne _ => ⟨0x1300, 0xFF00⟩
  | .jqge _ => ⟨0x1400, 0xFF00⟩
  | .jqle _ => ⟨0x1500, 0xFF00⟩
  | .jqgt _ => ⟨0x1600, 0xFF00⟩
  | .jqlw _ => ⟨0x1700, 0xFF00⟩
  | .jqae _ => ⟨0x1800, 0xFF00⟩
  | .jqbe _ => ⟨0x1900, 0xFF00⟩
  | .jqab _ => ⟨0x1A00, 0xFF00⟩
  | .jqbl _ => ⟨0x1B00, 0xFF00⟩
  | .jqvs _ => ⟨0x1C00, 0xFF00⟩
  | .jqvc _ => ⟨0x1D00, 0xFF00⟩

/-- The rows of `opcode_table.json`, in its order. -/
def opcodeRows : List OpcodeRow :=
  [⟨0x8000, 0xF000⟩, ⟨0x9000, 0xF000⟩, ⟨0xA000, 0xF000⟩, ⟨0xB000, 0xF000⟩, ⟨0xC000, 0xF000⟩, ⟨0xD000, 0xF000⟩, ⟨0xE000, 0xF000⟩, ⟨0xF000, 0xF000⟩] ++
    [⟨0x4000, 0xFF00⟩, ⟨0x4100, 0xFF00⟩, ⟨0x4200, 0xFF00⟩, ⟨0x4300, 0xFF00⟩, ⟨0x4400, 0xFF00⟩, ⟨0x4500, 0xFF00⟩, ⟨0x4600, 0xFF00⟩, ⟨0x4700, 0xFF00⟩] ++
    [⟨0x4800, 0xFF00⟩, ⟨0x4900, 0xFF00⟩, ⟨0x4A00, 0xFF00⟩, ⟨0x4B00, 0xFF00⟩, ⟨0x4C00, 0xFF00⟩, ⟨0x4D00, 0xFF00⟩, ⟨0x4E00, 0xFF00⟩, ⟨0x4F00, 0xFF00⟩] ++
    [⟨0x5080, 0xF080⟩, ⟨0x6080, 0xF080⟩, ⟨0x7080, 0xF080⟩, ⟨0x5000, 0xF080⟩, ⟨0x6000, 0xF080⟩, ⟨0x7000, 0xF080⟩, ⟨0x0080, 0xFF80⟩, ⟨0x0100, 0xFF80⟩] ++
    [⟨0x0180, 0xFF80⟩, ⟨0x0200, 0xFF80⟩, ⟨0x0280, 0xFF80⟩, ⟨0x0300, 0xFF80⟩, ⟨0x0380, 0xFF80⟩, ⟨0x0400, 0xFF80⟩, ⟨0x0480, 0xFF80⟩, ⟨0x0500, 0xFF80⟩] ++
    [⟨0x0580, 0xFF80⟩, ⟨0x0600, 0xFF80⟩, ⟨0x0680, 0xFF80⟩, ⟨0x0800, 0xFF80⟩, ⟨0x0880, 0xFF80⟩, ⟨0x0900, 0xFF80⟩, ⟨0x0980, 0xFF80⟩, ⟨0x0A00, 0xFF80⟩] ++
    [⟨0x0A80, 0xFF80⟩, ⟨0x0B00, 0xFF80⟩, ⟨0x0B80, 0xFF80⟩, ⟨0x0C00, 0xFFFF⟩, ⟨0x0C01, 0xFFFF⟩, ⟨0x0C02, 0xFFFF⟩, ⟨0x0C03, 0xFFFF⟩, ⟨0x0C04, 0xFFFF⟩] ++
    [⟨0x0C05, 0xFFFF⟩, ⟨0x0C06, 0xFFFF⟩, ⟨0x0C07, 0xFFFF⟩, ⟨0x2000, 0xF000⟩, ⟨0x3000, 0xF000⟩, ⟨0x1100, 0xFF00⟩, ⟨0x1200, 0xFF00⟩, ⟨0x1300, 0xFF00⟩] ++
    [⟨0x1400, 0xFF00⟩, ⟨0x1500, 0xFF00⟩, ⟨0x1600, 0xFF00⟩, ⟨0x1700, 0xFF00⟩, ⟨0x1800, 0xFF00⟩, ⟨0x1900, 0xFF00⟩, ⟨0x1A00, 0xFF00⟩, ⟨0x1B00, 0xFF00⟩] ++
    [⟨0x1C00, 0xFF00⟩, ⟨0x1D00, 0xFF00⟩]

/-! ## The words the host numbers -/

/-- The three 16-bit words of a number whose bit 0 is the least significant bit of the first word, and a later word's
bits count on from it; the bits from `nbits` up are 0. Three words are the longest instruction (R80, R92). -/
def tableWords (nbits w : Nat) : List InstrWord :=
  [0, 1, 2].map fun k => BitVec.ofNat 16 (w % 2 ^ nbits / 2 ^ (16 * k))

/-- Those words as they lie in memory (R53). -/
def tableBytes (nbits w : Nat) : List Byte := (tableWords nbits w).flatMap wordBytes

/-- The instruction that `decode` reads from a number laid out as bytes. -/
def decodeTableWord (nbits w : Nat) : Option Instr :=
  match decode (tableBytes nbits w) with
  | .ok (i, _) => some i
  | .error _ => none

end Sys2Proof
end

