-- ==== Sys2Proof/Machine/Bits.lean ====
section
/-! DEFINITION. N-bit values inside the 32-bit container: truncation, sign, extension (R3, R4, R6). -/

namespace Sys2Proof.Machine

/-- The low n bits of a value, the rest 0: `v[n-1:0]` (R3), and "mod 2^N" (R4). -/
def narrow (n : Nat) (v : Word) : Word := BitVec.ofNat 32 (v.toNat % 2 ^ n)

/-- Bit n - 1 of a value, its sign bit at width n (R4, R31). -/
def signBit (n : Nat) (v : Word) : Bool := v.getLsbD (n - 1)

/-- `sint` of the low n bits: `uint(v) - 2^n * v[n-1]` (R4). -/
def sint (n : Nat) (v : Word) : Int :=
  (narrow n v).toNat - (if signBit n v then 2 ^ n else 0)

/-- An unbounded integer modulo 2^n, as an n-bit value (R4). -/
def wordOfInt (n : Nat) (i : Int) : Word := BitVec.ofNat 32 (i % 2 ^ n).toNat

/-- `sext_N` of the low w bits of a value (`00_scope.md` section 5.2). -/
def sext (n w : Nat) (v : Word) : Word := wordOfInt n (sint w v)

/-- Bitwise NOT on n bits (R5). -/
def notN (n : Nat) (v : Word) : Word := narrow n (~~~v)

/-- A one-bit value as a number, placed at bit `i`. -/
def bitAt (i : Nat) (b : Bool) : Word := if b then BitVec.ofNat 32 (2 ^ i) else 0

end Sys2Proof.Machine
end

