-- ==== Sys2Proof/Config.lean ====
section
/-! DEFINITION. What a launch fixes, and the free values.

`Params` holds the parameters of `00_scope.md` section 4, which the host fixes at launch (R348). They are plain data and a
field of State, so a statement about every state is a statement about every launch (log 1, log 2). The values that the
spec leaves open at each occurrence are the opaque constants at the end: nothing can be proved of what they are. -/

namespace Sys2Proof

/-- The word size: "N=16 ou 32" (R2). -/
inductive WordSize where
  | n16
  | n32
  deriving DecidableEq, Repr

/-- The sizes of one memory access, in bytes (R56, R61). -/
inductive Size where
  | one
  | two
  | four
  deriving DecidableEq, Repr

/-- The size in bytes. -/
def Size.bytes : Size → Nat
  | .one => 1
  | .two => 2
  | .four => 4

/-- The size in bits. -/
def Size.bits (z : Size) : Nat := 8 * z.bytes

/-- N (R2). -/
def WordSize.bits : WordSize → Nat
  | .n16 => 16
  | .n32 => 32

/-- T, the size of a CPU word in bytes (R2). -/
def WordSize.bytes : WordSize → Size
  | .n16 => .two
  | .n32 => .four

/-- `DIV_ROUNDING` (R124). -/
inductive DivRounding where
  | trunc
  | floor
  deriving DecidableEq, Repr

/-- `NARROW_REG_WRITE` (R103, R173). -/
inductive NarrowWrite where
  | zext
  | sext
  | merge
  deriving DecidableEq, Repr

/-- `SELF_MODIFY` (R69). -/
inductive SelfModify where
  | coherent
  | refuse
  deriving DecidableEq, Repr

/-- What a branch with a mode operand does with an immediate that is wider than the extension word (N = 32 with
`IE_BYTES` = 2): R200 extends its sign, R103 refuses it. DESIGN CHOICE: both are in the model, and a launch fixes one (log 20). -/
inductive BranchImmediate where
  | extend
  | refuse
  deriving DecidableEq, Repr

/-- `SR_LAYOUT`: the bit of the SR word that holds each flag (R35); the card draws SR 16 bits wide (N4). -/
structure SrLayout where
  WF : Fin 16
  IF : Fin 16
  ZF : Fin 16
  VF : Fin 16
  CF : Fin 16
  NF : Fin 16
  deriving DecidableEq, Repr

/-- The default layout, the order of the flag columns `W I Z V C N` (R35). DESIGN CHOICE of the spec (D2; log 2). -/
def SrLayout.standard : SrLayout := { WF := 5, IF := 4, ZF := 3, VF := 2, CF := 1, NF := 0 }

/-- All that holds of every layout: six distinct bits (R35). -/
abbrev SrLayout.distinct (l : SrLayout) : Prop :=
  [l.WF, l.IF, l.ZF, l.VF, l.CF, l.NF].Nodup

/-- The parameters of a launch (`00_scope.md` section 4, R348). -/
structure Params where
  /-- `N` (R2). -/
  size : WordSize
  /-- `IE_BYTES` when N = 32 (R92). -/
  ieSize32 : Size
  /-- `START_ADDR` when N = 32 (R340). -/
  startAddr32 : Word
  /-- `VECTOR_MASK` when N = 32 (R303). -/
  vectorMask32 : Word
  /-- `SR_LAYOUT` (R35). -/
  srLayout : SrLayout
  /-- `NIRQ`, the number of request lines (R311). -/
  nirq : Nat
  /-- `DIV_ROUNDING` (R124). -/
  divRounding : DivRounding
  /-- `NARROW_REG_WRITE` (R103). -/
  narrowWrite : NarrowWrite
  /-- `EXT_SRC_BITS` (R155). -/
  extSrcBits : Nat
  /-- `SELF_MODIFY` (R69). -/
  selfModify : SelfModify
  /-- Which of R103 and R200 a branch follows (log 20). -/
  branchImmediate : BranchImmediate
  deriving DecidableEq, Repr

/-- The launch that the spec specifies in full, N = 16 with the defaults of `00_scope.md` section 4.
DESIGN CHOICE: `nirq`, `startAddr32` and `branchImmediate`, which have no default in the spec (log 3, log 11, log 20). -/
def Params.standard : Params :=
  { size := .n16, ieSize32 := .four, startAddr32 := 0, vectorMask32 := 0xFFFFFFFE, srLayout := .standard,
    nirq := 8, divRounding := .trunc, narrowWrite := .zext, extSrcBits := 8, selfModify := .coherent,
    branchImmediate := .extend }

/-- `IE_BYTES`: 2 for N = 16, a parameter for N = 32 (R92). -/
def Params.ieSize (p : Params) : Size :=
  match p.size with
  | .n16 => .two
  | .n32 => p.ieSize32

/-- `START_ADDR`: FFFAh for N = 16, a parameter for N = 32 (R340). -/
def Params.startAddr (p : Params) : Word :=
  match p.size with
  | .n16 => 0xFFFA
  | .n32 => p.startAddr32

/-- `VECTOR_MASK`: FFFEh for N = 16, a parameter for N = 32 (R303). -/
def Params.vectorMask (p : Params) : Word :=
  match p.size with
  | .n16 => 0xFFFE
  | .n32 => p.vectorMask32

/-- What the spec asks of a launch's parameters: an extension word of 2 or 4 bytes (R92), six distinct flag positions
(R35), a source width of EXT that lies inside a register (R155). -/
abbrev Params.wf (p : Params) : Prop :=
  p.ieSize32 ≠ .one ∧ p.srLayout.distinct ∧ 1 ≤ p.extSrcBits ∧ p.extSrcBits ≤ p.size.bits

/-- What a byte of memory that nothing has written reads as. DESIGN CHOICE (log 6): the spec gives memory no value
at reset (R43) and lets the launch supply the image (R64). -/
def Config.unlistedByte : Byte := 0

/-- CF after the n-th draw of MUL or DIV: any value (R124, R125; U6, U7; log 7). -/
opaque Config.freeCarry : Nat → Bool

/-- The two middle bytes of Rd after SWB at N = 32: any value (R152; U9; log 8). -/
opaque Config.freeMiddle : Nat → BitVec 16

/-- The environment's answer to the n-th free read of a port (R52; U15; log 9). -/
opaque Config.portAnswer : Nat → Word → Word

/-- The value that a Reset inside a run leaves in a general register (R341; U13; log 5). -/
opaque Config.resetRegister : Nat → Reg → Word

/-- The line an interrupt acceptance picks when several are pending: `IRQ_PRIORITY` (R313; U16; log 12). -/
opaque Config.irqChoice : Nat → List Nat → Nat

/-- Whether an Error entry pushes the PC, which the card does not say (R308; U21; log 31). -/
opaque Config.errorPushesPc : Nat → Bool

/-- Whether the handler of an Error has ended at a step boundary, which the card does not say (R308; log 31). -/
opaque Config.errorHandlerEnds : Nat → Bool

end Sys2Proof
end

