-- ==== Sys2Proof/Machine/State.lean ====
section
/-! DEFINITION. The state of the card machine, the reasons a step can stop, and the state after reset. -/

namespace Sys2Proof.Machine

/-- The six flags of SR (R28). SR has no other storage: its word is computed from them (R35). -/
structure Flags where
  /-- Wait: the machine is halted and waits for an interrupt (R34). -/
  WF : Bool
  /-- Interrupts are allowed (R33). -/
  IF : Bool
  /-- The last result is zero (R29). -/
  ZF : Bool
  /-- The last arithmetic result overflowed (R32). -/
  VF : Bool
  /-- Carry, borrow or bit shifted out (R30). -/
  CF : Bool
  /-- Sign of the last result (R31). -/
  NF : Bool
  deriving DecidableEq, Repr

/-- All six flags clear, as Reset leaves them (R37). -/
def Flags.clear : Flags := { WF := false, IF := false, ZF := false, VF := false, CF := false, NF := false }

/-- A move of the environment at a step boundary (R312). -/
inductive EnvMove where
  /-- A falling edge on `/IRQi` (R41). -/
  | edge (line : Nat)
  /-- The level of `/RST`: `true` is the active level, 0 (R340). -/
  | resetLine (low : Bool)
  deriving DecidableEq, Repr

/-- The machine and what the launch and the environment have laid down for it. -/
structure State where
  /-- The launch parameters (R348); no step changes them. -/
  params : Params
  /-- R0 to R15, R15 being SP (R20, R21). -/
  regs : Vector Word 16
  /-- The program counter (R24). -/
  pc : Word
  /-- The flags of SR (R28). -/
  sr : Flags
  /-- Memory (R50): the bytes that differ from an unlisted one, addresses strictly rising. -/
  mem : List Host.Cell
  /-- The addresses the program has written since launch, strictly rising (R69). -/
  written : List Nat
  /-- The pending bits `P[i]` that are set, lines strictly rising (R41). -/
  pending : List Nat
  /-- `/RST` is at its active level, 0 (R340). -/
  rstLow : Bool
  /-- The handler of an Error is running, and a Reset follows it (R308; log 31). -/
  inError : Bool
  /-- The environment's coming moves, one list for each step boundary (R312). -/
  schedule : List (List EnvMove)
  /-- The environment's coming answers to port reads, next first (R52, R312). -/
  portIn : List Word
  /-- The port writes so far, (port, value), oldest first (R52). -/
  portOut : List (Word × Word)
  /-- The number of free values drawn so far: the model's own field (log 39). -/
  draws : Nat
  deriving DecidableEq, Repr

/-- The data-dependent events for which the spec says `raise Unspecified(reason)` (R14): the machine stops. All are safe:
the spec gives such a step no successor. -/
inductive Fault where
  /-- `misaligned_access`: a 2- or 4-byte access at an odd address; raised by the memory operations (R59). Safe. -/
  | misalignedAccess
  /-- `odd_pc`: a fetch with an odd PC; raised by the fetch of an instruction or extension word (R60). Safe. -/
  | oddPc
  /-- `division_by_zero`: raised by DIV (R124). Safe. -/
  | divisionByZero
  deriving DecidableEq, Repr

/-- The encodings and operand forms for which the spec says `raise Unspecified(reason)` (R14), and the model's own. -/
inductive Refusal where
  /-- An instruction without a meaning in this model; raised by `exec` only. Safe. -/
  | notModelled (mnemonic : String)
  /-- `reserved_encoding`: a word no table lists, or RLB, LDL, STL at N = 16; raised by the step and by those three (R106). Safe. -/
  | reservedEncoding
  /-- `div_quotient_and_remainder_same_register`: raised by DIV (R124). Safe. -/
  | divQuotientAndRemainderSameRegister
  /-- `write_to_immediate`: raised by a store, TSR, MSR or MPC in mode 000 (R104). Safe. -/
  | writeToImmediate
  /-- `no_effective_address`: raised by JEA and JSR in mode 001 (R104). Safe. -/
  | noEffectiveAddress
  /-- `jump_to_immediate`: raised by JEA and JSR in mode 000 (R104). Safe. -/
  | jumpToImmediate
  /-- `same_register_automodify`: raised by a transfer in mode 011 or 100 with CRa = CRb (R104). Safe. -/
  | sameRegisterAutomodify
  /-- `immediate_too_narrow`: raised by an immediate operand wider than the extension word, N = 32 only (R103). Safe. -/
  | immediateTooNarrow
  /-- A fetch of a byte the program has written, under `SELF_MODIFY = refuse`; raised by the fetch (R69). Safe. -/
  | selfModifiedCode
  deriving DecidableEq, Repr

/-- The outcome of an operation that yields a value of type `α`. -/
abbrev Result (α : Type) := Host.Outcome α Fault Refusal

/-- N (R2). -/
def State.n (s : State) : Nat := s.params.size.bits

/-- T (R2). -/
def State.T (s : State) : Size := s.params.size.bytes

/-- The machine right after Reset (R43, R340), launched with N = 16 and the default parameters. The registers and the
contents of memory are DESIGN CHOICEs (log 4, log 6): the spec gives them no value. -/
def State.reset : State :=
  { params := .standard
    regs := Vector.replicate 16 0
    pc := Params.standard.startAddr
    sr := .clear
    mem := []
    written := []
    pending := []
    rstLow := false
    inError := false
    schedule := []
    portIn := []
    portOut := []
    draws := 0 }

end Sys2Proof.Machine
end

