-- ==== Sys2Proof/Machine/Flags.lean ====
section
/-! DEFINITION. Every flag computation of the spec: the arithmetic helpers AddC and SubB, SetZN, the SR word, the
branch conditions. -/

namespace Sys2Proof.Machine

/-- What an arithmetic helper returns: `(res, cout, ovf)` (R10, R11). -/
structure Sum where
  res : Word
  carry : Bool
  overflow : Bool
  deriving DecidableEq, Repr

/-- An unbounded integer lies outside `[-2^(n-1), 2^(n-1) - 1]` (R10, R32). -/
def overflows (n : Nat) (t : Int) : Bool := decide (t < -2 ^ (n - 1) ∨ 2 ^ (n - 1) - 1 < t)

/-- `AddC(a, b, cin)` on n-bit values (R10). -/
def addC (n : Nat) (a b : Word) (cin : Bool) : Sum :=
  let s := a.toNat + b.toNat + cin.toNat
  { res := BitVec.ofNat 32 (s % 2 ^ n)
    carry := decide (2 ^ n ≤ s)
    overflow := overflows n (sint n a + sint n b + cin.toNat) }

/-- `SubB(a, b, bin)`: the complement addition, its carry reported as a borrow (R11). -/
def subB (n : Nat) (a b : Word) (bin : Bool) : Sum :=
  let r := addC n a (notN n b) (!bin)
  { r with carry := !r.carry }

/-- `SetZN(v, w)` (R12). -/
def Flags.setZN (f : Flags) (w : Nat) (v : Word) : Flags :=
  { f with ZF := narrow w v == 0, NF := signBit w v }

/-- ZF and NF from the result v at width w, VF and CF as given, WF and IF unchanged (R12, R38). -/
def Flags.result (f : Flags) (w : Nat) (v : Word) (vf cf : Bool) : Flags :=
  { f.setZN w v with VF := vf, CF := cf }

/-- `SRword()` under a layout: the flags at their bits, every other bit 0 (R35). -/
def srWord (l : SrLayout) (f : Flags) : Word :=
  bitAt l.WF f.WF ||| bitAt l.IF f.IF ||| bitAt l.ZF f.ZF ||| bitAt l.VF f.VF ||| bitAt l.CF f.CF ||| bitAt l.NF f.NF

/-- `SRload(w)` under a layout: the six flags from their bits, every other bit ignored (R36). -/
def srLoad (l : SrLayout) (w : Word) : Flags :=
  { WF := w.getLsbD l.WF, IF := w.getLsbD l.IF, ZF := w.getLsbD l.ZF
    VF := w.getLsbD l.VF, CF := w.getLsbD l.CF, NF := w.getLsbD l.NF }

/-- The thirteen conditions (R201). -/
inductive Cond where
  | always
  | eq
  | ne
  | ge
  | le
  | gt
  | lw
  | ae
  | be
  | ab
  | bl
  | vs
  | vc
  deriving DecidableEq, Repr

/-- `Cond(cc)`: the condition on the flags (R201). The operator between NF and VF is the exclusive or (R202; log 23). -/
def Cond.holds (c : Cond) (f : Flags) : Bool :=
  match c with
  | .always => true
  | .eq => f.ZF
  | .ne => !f.ZF
  | .ge => !(f.NF ^^ f.VF)
  | .le => (f.NF ^^ f.VF) || f.ZF
  | .gt => !(f.NF ^^ f.VF) && !f.ZF
  | .lw => f.NF ^^ f.VF
  | .ae => !f.CF
  | .be => f.CF || f.ZF
  | .ab => !f.CF && !f.ZF
  | .bl => f.CF
  | .vs => f.VF
  | .vc => !f.VF

end Sys2Proof.Machine
end

