-- ==== Sys2Proof/Machine/Ops.lean ====
section
/-! DEFINITION. The named operations over registers, memory and ports, the stack, the entry of an exception and the
return from one. -/

namespace Sys2Proof.Machine

/-- Do `f` with the value of an operation that succeeded; a stop stays a stop. -/
def andThen {α β : Type} (o : Result α) (f : α → Result β) : Result β :=
  match o with
  | .next a => f a
  | .fault r => .fault r
  | .refused r => .refused r

/-! ## Registers and flags -/

/-- `x[r]`, the N-bit value of Rr (R20). -/
def State.x (s : State) (r : Reg) : Word := narrow s.n s.regs[r]

/-- `x[r] <- v` (R20). -/
def State.setX (s : State) (r : Reg) (v : Word) : State := { s with regs := s.regs.set r (narrow s.n v) }

/-- `pc <- v`, on N bits (R24, R27). -/
def State.setPc (s : State) (v : Word) : State := { s with pc := narrow s.n v }

/-- Write all the flags. -/
def State.setSr (s : State) (f : Flags) : State := { s with sr := f }

/-- The flags of an N-bit result (R12). -/
def State.setResult (s : State) (v : Word) (vf cf : Bool) : State := s.setSr (s.sr.result s.n v vf cf)

/-- A free value has been drawn (log 39). -/
def State.drawn (s : State) : State := { s with draws := s.draws + 1 }

/-! ## Ascending lists of numbers: the pending lines and the written addresses -/

/-- Put a number into an ascending list, once. -/
def insertAsc (k : Nat) : List Nat → List Nat
  | [] => [k]
  | j :: l => if k < j then k :: j :: l else if k = j then j :: l else j :: insertAsc k l

/-! ## Memory -/

/-- The byte at an address (R50, R56): an unlisted address reads as `Config.unlistedByte`. -/
def Memory.read : List Host.Cell → Nat → Byte
  | [], _ => Config.unlistedByte
  | c :: m, a => if c.1 = a then c.2 else Memory.read m a

/-- List a byte at an address, in its place by address, in the stead of one listed there before. -/
def Memory.insert : List Host.Cell → Nat → Byte → List Host.Cell
  | [], a, v => [(a, v)]
  | c :: m, a, v =>
    if a < c.1 then (a, v) :: c :: m
    else if a = c.1 then (a, v) :: m
    else c :: Memory.insert m a v

/-- Write one byte, keeping the canonical form (R57): a byte equal to an unlisted one is no longer listed. -/
def Memory.write (m : List Host.Cell) (a : Nat) (v : Byte) : List Host.Cell :=
  if v = Config.unlistedByte then m.filter (·.1 != a) else Memory.insert m a v

/-- The canonical form: addresses strictly rising, no cell equal to an unlisted one. -/
abbrev Memory.wf (m : List Host.Cell) : Prop :=
  m.Pairwise (fun c d => c.1 < d.1) ∧ ∀ c ∈ m, c.2 ≠ Config.unlistedByte

/-- The byte of memory at an address. -/
def State.byteAt (s : State) (a : Nat) : Byte := Memory.read s.mem a

/-- `(addr + k) mod 2^N` (R50, R56). -/
def State.addrAt (s : State) (a : Word) (k : Nat) : Nat := (a.toNat + k) % 2 ^ s.n

/-- A program's write of one byte (R57), remembered for `SELF_MODIFY` (R69). -/
def State.storeByte (s : State) (a : Nat) (v : Byte) : State :=
  { s with mem := Memory.write s.mem a v, written := insertAsc a s.written }

/-- The first k bytes at an address, concatenated, the first most significant (R56). -/
def State.bytesAt (s : State) (a : Word) : Nat → Word
  | 0 => 0
  | k + 1 => (s.bytesAt a k <<< 8) ||| (s.byteAt (s.addrAt a k)).setWidth 32

/-- Write the low k bytes of a value at an address, the most significant first (R57). -/
def State.storeBytes (s : State) (a v : Word) : Nat → State
  | 0 => s
  | k + 1 => (s.storeBytes a (v >>> 8) k).storeByte (s.addrAt a k) (v.setWidth 8)

/-- A 2- or 4-byte access at an odd address (R59). -/
def misaligned (z : Size) (a : Word) : Bool := z != .one && a.getLsbD 0

/-- `MemRead(addr, n)` (R56, R59). -/
def State.memRead (s : State) (a : Word) (z : Size) : Result Word :=
  if misaligned z a then .fault .misalignedAccess else .next (s.bytesAt a z.bytes)

/-- `MemWrite(addr, n, v)` (R57, R59). -/
def State.memWrite (s : State) (a : Word) (z : Size) (v : Word) : Result State :=
  if misaligned z a then .fault .misalignedAccess else .next (s.storeBytes a v z.bytes)

/-! ## Fetching at the PC -/

/-- A fetch of k bytes would read one that the program has written, and the launch refuses that (R69). -/
def State.fetchRefused (s : State) (k : Nat) : Bool :=
  s.params.selfModify == .refuse && (List.range k).any fun j => s.written.contains (s.addrAt s.pc j)

/-- Fetch at the PC and advance it: an instruction or extension word (R60, R69, R92, R344). -/
def State.fetch (s : State) (z : Size) : Result (Word × State) :=
  if s.pc.getLsbD 0 then .fault .oddPc
  else if s.fetchRefused z.bytes then .refused .selfModifiedCode
  else .next (s.bytesAt s.pc z.bytes, s.setPc (s.pc + BitVec.ofNat 32 z.bytes))

/-! ## The stack -/

/-- The address the next push writes to, `(x[15] - T) mod 2^N` (R13). -/
def State.pushAddr (s : State) : Word := narrow s.n (s.x SP - BitVec.ofNat 32 s.T.bytes)

/-- `Push(v)` (R13). -/
def State.push (s : State) (v : Word) : Result State :=
  (s.setX SP s.pushAddr).memWrite s.pushAddr s.T v

/-- `Pop()` (R13). -/
def State.pop (s : State) : Result (Word × State) :=
  andThen (s.memRead (s.x SP) s.T) fun v =>
    .next (v, s.setX SP (s.x SP + BitVec.ofNat 32 s.T.bytes))

/-! ## The I/O space -/

/-- `IoRead(p)` (R52): the environment's next answer, of N bits; with none queued, a free value (log 9). -/
def State.ioRead (s : State) (p : Word) : Word × State :=
  match s.portIn with
  | v :: rest => (narrow s.n v, { s with portIn := rest })
  | [] => (narrow s.n (Config.portAnswer s.draws p), s.drawn)

/-- `IoWrite(p, v)` (R52): an output event. -/
def State.ioWrite (s : State) (p v : Word) : State := { s with portOut := s.portOut ++ [(p, v)] }

/-! ## Taking an exception, and returning from one -/

/-- The SR as a word (R35). -/
def State.srWord (s : State) : Word := Sys2Proof.Machine.srWord s.params.srLayout s.sr

/-- The address of the vector of exception `num`, `(4 * num) mod 2^N` (R302, R303). -/
def State.vectorAddr (s : State) (num : Nat) : Word := BitVec.ofNat 32 (4 * num % 2 ^ s.n)

/-- `VectorFetch(num)`: the handler's address (R303). -/
def State.vectorFetch (s : State) (num : Nat) : Result Word :=
  andThen (s.memRead (s.vectorAddr num) s.T) fun v => .next (v &&& s.params.vectorMask)

/-- `IF <- 0`, "inhibe les exceptions" (R304). -/
def State.inhibit (s : State) : State := s.setSr { s.sr with IF := false }

/-- `Enter(num, ret)`: the entry common to Interrupt, Trap and Fault (R304). -/
def State.enter (s : State) (num : Nat) (ret : Word) : Result State :=
  andThen (s.push s.srWord) fun s1 =>
  andThen (s1.inhibit.push ret) fun s2 =>
  andThen (s2.vectorFetch num) fun h =>
  .next (s2.setPc h)

/-- `raise Trap(num)`: the return address is that of the next instruction (R306). -/
def State.raiseTrap (s : State) (num : Nat) : Result State := s.enter num s.pc

/-- `raise Fault(num)` in an instruction whose word stands at `at_`, on the state `s` before it (R307). No rule raises
it (log 31). -/
def State.raiseFault (s : State) (num : Nat) (at_ : Word) : Result State := s.enter num at_

/-- An Error has been raised: its handler runs until the Reset that follows it (R308). -/
def State.setInError (s : State) : State := { s with inError := true }

/-- `raise Error(num)` on the state that the stopped instruction leaves: no push of SR, IF cleared, the vector, and a Reset
after the handler (R308). Whether the PC is pushed is not said: a free choice (log 31). No rule raises it. -/
def State.raiseError (s : State) (num : Nat) : Result State :=
  let s1 := s.inhibit.setInError.drawn
  andThen (if Config.errorPushesPc s.draws then s1.push s.pc else .next s1) fun s2 =>
  andThen (s2.vectorFetch num) fun h =>
  .next (s2.setPc h)

/-- The return from an exception: pop the PC, then SR (R244, R315). -/
def State.returnFromException (s : State) : Result State :=
  andThen s.pop fun p =>
  andThen (p.2.setPc p.1).pop fun q =>
  .next (q.2.setSr (srLoad q.2.params.srLayout q.1))

/-- The pending line that is accepted: the only one, or a free choice among several (R305, R313; log 12). -/
def pickLine (draw : Nat) (pending : List Nat) : Option Nat :=
  match pending with
  | [] => none
  | [i] => some i
  | l => l[Config.irqChoice draw l % l.length]?

/-- The state in which an accepted interrupt on line `i` is entered: the request is taken, WF is cleared before SR is
pushed (R305). -/
def State.acknowledge (s : State) (i : Nat) : State :=
  { s with pending := s.pending.filter (· != i), sr := { s.sr with WF := false }, draws := s.draws + 1 }

/-- Accept a pending interrupt, if there is one (R305). -/
def State.acceptInterrupt (s : State) : Result State :=
  match pickLine s.draws s.pending with
  | some i => (s.acknowledge i).enter (32 + i) s.pc
  | none => .next s

/-- `Reset()` (R340): SR cleared, requests dropped, the PC at the start address; the general registers get unknown values
(R341; log 5); memory is untouched. An Error's handler is over (R308). -/
def State.doReset (s : State) : State :=
  { s with
    regs := Vector.ofFn fun r => narrow s.n (Config.resetRegister s.draws r)
    pc := narrow s.n s.params.startAddr
    sr := .clear
    pending := []
    inError := false
    draws := s.draws + 1 }

/-- The handler of an Error has ended: a free choice at each boundary while one runs (R308; log 31). -/
def State.errorEnded (s : State) : Bool := s.inError && Config.errorHandlerEnds s.draws

/-- The handler of an Error goes on, if one runs: the choice of `errorEnded` has been drawn. -/
def State.passError (s : State) : State := if s.inError then s.drawn else s

/-! ## The environment's moves -/

/-- One move (R312): an edge sets the pending bit of a line that exists (R41, R311). -/
def State.envMove (s : State) : EnvMove → State
  | .edge i => if i < s.params.nirq then { s with pending := insertAsc i s.pending } else s
  | .resetLine low => { s with rstLow := low }

/-- The moves that fall on the boundary before a step (R312, R344). Of the levels of `/RST` set at one boundary only the last
counts, so a pulse that falls and rises within one boundary causes no Reset. DESIGN CHOICE: how long `/RST` must be held is
open (log 45). -/
def State.boundary (s : State) : State :=
  match s.schedule with
  | [] => s
  | moves :: rest => moves.foldl State.envMove { s with schedule := rest }

end Sys2Proof.Machine
end

