-- ==== Sys2Proof/Machine/Cycle.lean ====
section
/-! DEFINITION. The parts of the execution cycle around the instruction (R344): fetching and decoding its word, and
placing a word where the next step fetches. -/

namespace Sys2Proof.Machine

/-- Fetch the instruction word at the PC, advance the PC by 2, and decode the word (R89, R344). A word that no table lists
is refused (R106). -/
def fetchInstr (s : State) : Result (Instr × State) :=
  andThen (s.fetch .two) fun f =>
    match decodeWord (f.1.setWidth 16) with
    | .ok i => .next (i, f.2)
    | .error _ => .refused .reservedEncoding

/-- Put bytes at the PC from offset k on: the launch's doing (R348), not a write of the program. -/
def placeAtPc (s : State) (k : Nat) : List Byte → State
  | [] => s
  | b :: rest => placeAtPc { s with mem := Memory.write s.mem (s.addrAt s.pc k) b } (k + 1) rest

/-- The bytes at the PC no longer count as written by the program (R69). -/
def forgetWritten (s : State) (k : Nat) : State :=
  { s with written := s.written.filter fun a => !(List.range k).any fun j => a == s.addrAt s.pc j }

end Sys2Proof.Machine
end

