-- ==== Sys2Proof/Machine/Operands.lean ====
section
/-! DEFINITION. Every operand form: the extension word, the eight addressing modes, reading and writing a location
(R92 to R104). -/

namespace Sys2Proof.Machine

/-- A location (R94). -/
inductive Loc where
  /-- An immediate: the extension word as an N-bit value. -/
  | imm (v : Word)
  | reg (r : Reg)
  | mem (a : Word)
  deriving DecidableEq, Repr

/-- What the evaluation of a mode yields: the location, the effective address if the mode has one, the state (R94). -/
structure Operand where
  loc : Loc
  ea : Option Word
  state : State
  deriving DecidableEq, Repr

/-! ## The extension word -/

/-- IE: the extension word at the PC as an N-bit value, sign-extended where it is narrower than N bits (R92). -/
def State.extensionWord (s : State) : Word :=
  let z := s.params.ieSize
  if z.bits < s.n then sext s.n z.bits (s.bytesAt s.pc z.bytes) else s.bytesAt s.pc z.bytes

/-- `FetchIE()` (R92): the state once the extension word has been fetched; its value is `extensionWord` of the state before. -/
def fetchIE (s : State) : Result State :=
  andThen (s.fetch s.params.ieSize) fun f => .next f.2

/-! ## The addressing modes -/

/-- `x[r] + ie` on N bits (R101, R102). -/
def indexedAddr (r : Reg) (s : State) : Word := narrow s.n (s.x r + s.extensionWord)

/-- The column EA of the card's table of modes (R95 to R102), on the state before the operand is evaluated. -/
def effectiveAddress (mode : Mode) (r : Reg) (z : Size) (s : State) : Option Word :=
  match mode with
  | .immediate => some s.pc
  | .register => none
  | .indirect => some (s.x r)
  | .postIncrement => some (s.x r)
  | .preDecrement => some (narrow s.n (s.x r - BitVec.ofNat 32 z.bytes))
  | .direct => some s.extensionWord
  | .indexed => some (indexedAddr r s)
  | .indirectIndexed => some (s.bytesAt (indexedAddr r s) s.T.bytes)

/-- The location each mode yields (R95 to R102). -/
def location (mode : Mode) (r : Reg) (z : Size) (s : State) : Loc :=
  match mode, effectiveAddress mode r z s with
  | .immediate, _ => .imm s.extensionWord
  | _, some a => .mem a
  | _, none => .reg r

/-- The register update of the modes 011 and 100 (R98, R99). -/
def stepRegister (mode : Mode) (r : Reg) (z : Size) (s : State) : State :=
  match mode with
  | .postIncrement => s.setX r (s.x r + BitVec.ofNat 32 z.bytes)
  | .preDecrement => s.setX r (s.x r - BitVec.ofNat 32 z.bytes)
  | _ => s

/-- The pointer of mode 111 stands at an odd address (R59, R102). -/
def pointerMisaligned (mode : Mode) (r : Reg) (s : State) : Bool :=
  mode == .indirectIndexed && misaligned s.T (indexedAddr r s)

/-- `EvalMode(mode, r, size)` (R94 to R102). -/
def evalMode (mode : Mode) (r : Reg) (z : Size) (s : State) : Result Operand :=
  andThen (if mode.hasExtension then fetchIE s else .next s) fun s1 =>
    if pointerMisaligned mode r s then .fault .misalignedAccess
    else .next { loc := location mode r z s, ea := effectiveAddress mode r z s, state := stepRegister mode r z s1 }

/-! ## Reading and writing a location -/

/-- `RegWrite(r, size, d)` (R103): the low bits receive the datum, the upper ones follow `NARROW_REG_WRITE`. -/
def regWrite (r : Reg) (z : Size) (d : Word) (s : State) : State :=
  if z.bits = s.n then s.setX r d
  else
    match s.params.narrowWrite with
    | .zext => s.setX r (narrow z.bits d)
    | .sext => s.setX r (sext s.n z.bits d)
    | .merge => s.setX r ((s.x r >>> z.bits <<< z.bits) ||| narrow z.bits d)

/-- `ReadLoc(loc, size)` (R103). -/
def readLoc (l : Loc) (z : Size) (s : State) : Result Word :=
  match l with
  | .imm v => if s.params.ieSize.bytes < z.bytes then .refused .immediateTooNarrow else .next (narrow z.bits v)
  | .reg r => .next (narrow z.bits (s.x r))
  | .mem a => s.memRead a z

/-- `WriteLoc(loc, size, d)` (R103). -/
def writeLoc (l : Loc) (z : Size) (d : Word) (s : State) : Result State :=
  match l with
  | .imm _ => .refused .writeToImmediate
  | .reg r => .next (regWrite r z d s)
  | .mem a => s.memWrite a z d

/-- The displacement of a branch with a mode operand: `ReadLoc(loc, T)` (R200). An immediate wider than the extension word is
the sign-extended extension word, as R200 says, or is refused, as R103 says: the launch fixes which (log 20). -/
def readDisplacement (l : Loc) (s : State) : Result Word :=
  match l with
  | .imm v =>
    match s.params.branchImmediate with
    | .extend => .next v
    | .refuse => readLoc (.imm v) s.T s
  | .reg r => readLoc (.reg r) s.T s
  | .mem a => readLoc (.mem a) s.T s

/-- Evaluate an operand of size T and read it: `A` of the one-operand group (R220). -/
def readOperand (mode : Mode) (r : Reg) (s : State) : Result (Word × Operand) :=
  andThen (evalMode mode r s.T s) fun o =>
  andThen (readLoc o.loc s.T o.state) fun v =>
  .next (v, o)

end Sys2Proof.Machine
end

