-- ==== Sys2Proof/Machine/BranchMode.lean ====
section
/-! DEFINITION. The conditional relative branch with a mode operand (R200 to R217). -/

namespace Sys2Proof.Machine

/-- The action of the family (R200): the displacement is evaluated whether or not the condition holds, and is added to
the address of the next instruction. -/
def branchMode (c : Cond) (mode : Mode) (r : Reg) (s : State) : Result State :=
  andThen (evalMode mode r s.T s) fun o =>
  andThen (readDisplacement o.loc o.state) fun disp =>
  .next (if c.holds o.state.sr then o.state.setPc (o.state.pc + disp) else o.state)

/-- JMP (R204). -/
def execJmp (mode : Mode) (r : Reg) (s : State) : Result State := branchMode .always mode r s

/-- JEQ (R205). -/
def execJeq (mode : Mode) (r : Reg) (s : State) : Result State := branchMode .eq mode r s

/-- JNE (R206). -/
def execJne (mode : Mode) (r : Reg) (s : State) : Result State := branchMode .ne mode r s

/-- JGE (R207). -/
def execJge (mode : Mode) (r : Reg) (s : State) : Result State := branchMode .ge mode r s

/-- JLE (R208). -/
def execJle (mode : Mode) (r : Reg) (s : State) : Result State := branchMode .le mode r s

/-- JGT (R209). -/
def execJgt (mode : Mode) (r : Reg) (s : State) : Result State := branchMode .gt mode r s

/-- JLW (R210). -/
def execJlw (mode : Mode) (r : Reg) (s : State) : Result State := branchMode .lw mode r s

/-- JAE (R211). -/
def execJae (mode : Mode) (r : Reg) (s : State) : Result State := branchMode .ae mode r s

/-- JBE (R212). -/
def execJbe (mode : Mode) (r : Reg) (s : State) : Result State := branchMode .be mode r s

/-- JAB (R213). -/
def execJab (mode : Mode) (r : Reg) (s : State) : Result State := branchMode .ab mode r s

/-- JBL (R214). -/
def execJbl (mode : Mode) (r : Reg) (s : State) : Result State := branchMode .bl mode r s

/-- JVS (R215). -/
def execJvs (mode : Mode) (r : Reg) (s : State) : Result State := branchMode .vs mode r s

/-- JVC (R216). -/
def execJvc (mode : Mode) (r : Reg) (s : State) : Result State := branchMode .vc mode r s

end Sys2Proof.Machine
end

