-- ==== Sys2Proof/Machine/BranchShort.lean ====
section
/-! DEFINITION. The short conditional relative branch (R270 to R284). -/

namespace Sys2Proof.Machine

/-- The action of the family (R270): the displacement is the sign-extended ValueCode, in bytes. -/
def branchShort (c : Cond) (value : BitVec 8) (s : State) : Result State :=
  .next (if c.holds s.sr then s.setPc (s.pc + sext s.n 8 (value.setWidth 32)) else s)

/-- JQMP (R271). -/
def execJqmp (value : BitVec 8) (s : State) : Result State := branchShort .always value s

/-- JQEQ (R272). -/
def execJqeq (value : BitVec 8) (s : State) : Result State := branchShort .eq value s

/-- JQNE (R273). -/
def execJqne (value : BitVec 8) (s : State) : Result State := branchShort .ne value s

/-- JQGE (R274). -/
def execJqge (value : BitVec 8) (s : State) : Result State := branchShort .ge value s

/-- JQLE (R275). -/
def execJqle (value : BitVec 8) (s : State) : Result State := branchShort .le value s

/-- JQGT (R276). -/
def execJqgt (value : BitVec 8) (s : State) : Result State := branchShort .gt value s

/-- JQLW (R277). -/
def execJqlw (value : BitVec 8) (s : State) : Result State := branchShort .lw value s

/-- JQAE (R278). -/
def execJqae (value : BitVec 8) (s : State) : Result State := branchShort .ae value s

/-- JQBE (R279). -/
def execJqbe (value : BitVec 8) (s : State) : Result State := branchShort .be value s

/-- JQAB (R280). -/
def execJqab (value : BitVec 8) (s : State) : Result State := branchShort .ab value s

/-- JQBL (R281). -/
def execJqbl (value : BitVec 8) (s : State) : Result State := branchShort .bl value s

/-- JQVS (R282). -/
def execJqvs (value : BitVec 8) (s : State) : Result State := branchShort .vs value s

/-- JQVC (R283). -/
def execJqvc (value : BitVec 8) (s : State) : Result State := branchShort .vc value s

end Sys2Proof.Machine
end

