-- ==== Sys2Proof/Machine/GroupI.lean ====
section
/-! DEFINITION. Group I, operations with three register operands (R120 to R130). -/

namespace Sys2Proof.Machine

/-- An arithmetic result to Rd with all four result flags (R122, R128, R129). -/
def writeSum (d : Reg) (r : Sum) (s : State) : Result State :=
  .next ((s.setX d r.res).setResult r.res r.overflow r.carry)

/-- A logical result to Rd: V and C are cleared (R123, R126, R127). -/
def writeLogic (d : Reg) (v : Word) (s : State) : Result State :=
  .next ((s.setX d v).setResult v false false)

/-- The quotient under `DIV_ROUNDING` (R124). -/
def quotient (m : DivRounding) (a b : Int) : Int :=
  match m with
  | .trunc => a.tdiv b
  | .floor => a.fdiv b

/-- ADC (R122). -/
def execAdc (sa sb d : Reg) (s : State) : Result State :=
  writeSum d (addC s.n (s.x sa) (s.x sb) s.sr.CF) s

/-- XOR (R123). -/
def execXor (sa sb d : Reg) (s : State) : Result State :=
  writeLogic d (s.x sa ^^^ s.x sb) s

/-- DIV (R124): the quotient to Rd, the remainder to Rsa, CF a free value (log 7). -/
def execDiv (sa sb d : Reg) (s : State) : Result State :=
  let a := sint s.n (s.x sa)
  let b := sint s.n (s.x sb)
  if b = 0 then .fault .divisionByZero
  else if d = sa then .refused .divQuotientAndRemainderSameRegister
  else
    let q := quotient s.params.divRounding a b
    let r := a - q * b
    .next ((((s.setX d (wordOfInt s.n q)).setX sa (wordOfInt s.n r)).setResult (wordOfInt s.n q)
      (decide (2 ^ (s.n - 1) - 1 < q)) (Config.freeCarry s.draws)).drawn)

/-- MUL (R125): the low N bits of the signed product, CF a free value (log 7). -/
def execMul (sa sb d : Reg) (s : State) : Result State :=
  let p := sint s.n (s.x sa) * sint s.n (s.x sb)
  .next (((s.setX d (wordOfInt s.n p)).setResult (wordOfInt s.n p) (overflows s.n p)
    (Config.freeCarry s.draws)).drawn)

/-- AND (R126). -/
def execAnd (sa sb d : Reg) (s : State) : Result State :=
  writeLogic d (s.x sa &&& s.x sb) s

/-- OR (R127). -/
def execOr (sa sb d : Reg) (s : State) : Result State :=
  writeLogic d (s.x sa ||| s.x sb) s

/-- ADD (R128). -/
def execAdd (sa sb d : Reg) (s : State) : Result State :=
  writeSum d (addC s.n (s.x sa) (s.x sb) false) s

/-- SUB (R129). -/
def execSub (sa sb d : Reg) (s : State) : Result State :=
  writeSum d (subB s.n (s.x sa) (s.x sb) false) s

end Sys2Proof.Machine
end

