-- ==== Sys2Proof/Machine/GroupII.lean ====
section
/-! DEFINITION. Group II, operations with two register operands (R140 to R157). -/

namespace Sys2Proof.Machine

/-- A one-bit shift or rotate: the value to Rd, V cleared, C the bit shifted out (R141). -/
def writeShift (d : Reg) (v : Word) (out : Bool) (s : State) : Result State :=
  .next ((s.setX d v).setResult v false out)

/-- `a[N-2:0] :: b` (R6, R142, R148). -/
def shiftLeftIn (n : Nat) (a : Word) (b : Bool) : Word := narrow n ((a <<< 1) ||| bitAt 0 b)

/-- `b :: a[N-1:1]` (R6, R143, R144, R145). -/
def shiftRightIn (n : Nat) (a : Word) (b : Bool) : Word := (a >>> 1) ||| bitAt (n - 1) b

/-- RLC (R142). -/
def execRlc (r d : Reg) (s : State) : Result State :=
  writeShift d (shiftLeftIn s.n (s.x r) s.sr.CF) (signBit s.n (s.x r)) s

/-- RRC (R143). -/
def execRrc (r d : Reg) (s : State) : Result State :=
  writeShift d (shiftRightIn s.n (s.x r) s.sr.CF) ((s.x r).getLsbD 0) s

/-- SRL (R144). -/
def execSrl (r d : Reg) (s : State) : Result State :=
  writeShift d (shiftRightIn s.n (s.x r) false) ((s.x r).getLsbD 0) s

/-- SRA (R145): bit N-1 kept. -/
def execSra (r d : Reg) (s : State) : Result State :=
  writeShift d (shiftRightIn s.n (s.x r) (signBit s.n (s.x r))) ((s.x r).getLsbD 0) s

/-- NOT (R146). -/
def execNot (r d : Reg) (s : State) : Result State :=
  writeLogic d (notN s.n (s.x r)) s

/-- SBB (R147): Rs - CF. -/
def execSbb (r d : Reg) (s : State) : Result State :=
  writeSum d (subB s.n (s.x r) 0 s.sr.CF) s

/-- SHL (R148). -/
def execShl (r d : Reg) (s : State) : Result State :=
  writeShift d (shiftLeftIn s.n (s.x r) false) (signBit s.n (s.x r)) s

/-- NEG (R149): 0 - Rs. -/
def execNeg (r d : Reg) (s : State) : Result State :=
  writeSum d (subB s.n 0 (s.x r) false) s

/-- INP (R150): the environment's answer to a read of port Rs. -/
def execInp (r d : Reg) (s : State) : Result State :=
  let a := s.ioRead (s.x r)
  writeLogic d a.1 a.2

/-- OUT (R151): Rs to port Rd; no register is written. -/
def execOut (r d : Reg) (s : State) : Result State :=
  .next ((s.ioWrite (s.x d) (s.x r)).setResult (s.x r) false false)

/-- SWB (R152): the outer bytes exchanged; at N = 32 the middle bytes are a free value (log 8). -/
def execSwb (r d : Reg) (s : State) : Result State :=
  let a := s.x r
  match s.params.size with
  | .n16 => writeLogic d (narrow 16 ((a <<< 8) ||| (a >>> 8))) s
  | .n32 => writeLogic d ((a <<< 24) ||| ((Config.freeMiddle s.draws).setWidth 32 <<< 8) ||| (a >>> 24)) s.drawn

/-- RLB (R153): the 16-bit halves exchanged, N = 32 only. -/
def execRlb (r d : Reg) (s : State) : Result State :=
  match s.params.size with
  | .n16 => .refused .reservedEncoding
  | .n32 => writeLogic d ((s.x r <<< 16) ||| (s.x r >>> 16)) s

/-- ANI (R154). -/
def execAni (r d : Reg) (s : State) : Result State :=
  andThen (fetchIE s) fun s1 => writeLogic d (s1.x r &&& s.extensionWord) s1

/-- EXT (R155): sign extension from `EXT_SRC_BITS` bits. -/
def execExt (r d : Reg) (s : State) : Result State :=
  writeLogic d (sext s.n s.params.extSrcBits (s.x r)) s

/-- ADI (R156). -/
def execAdi (r d : Reg) (s : State) : Result State :=
  andThen (fetchIE s) fun s1 => writeSum d (addC s1.n (s1.x r) s.extensionWord false) s1

/-- CMP (R157): the flags of Rs - Rd; no register is written. -/
def execCmp (r d : Reg) (s : State) : Result State :=
  let c := subB s.n (s.x r) (s.x d) false
  .next (s.setResult c.res c.overflow c.carry)

end Sys2Proof.Machine
end

