-- ==== Sys2Proof/WellFormed.lean ====
section
/-! DEFINITION. Which instruction terms have a defined meaning: the checks that need only the instruction's own fields
and the word size. Every field of `Instr` is already as wide as its encoding (R90, R91), so no range is checked here. -/

namespace Sys2Proof

/-- RLB, LDL and STL exist when N = 32 only (R106, R153, R170). -/
def Instr.existsAt (n : WordSize) : Instr → Bool
  | .rlb _ _ | .ldl _ _ _ | .stl _ _ _ => n == .n32
  | _ => true

/-- Modes that change the register they address with (R98, R99). -/
def Mode.autoModifies : Mode → Bool
  | .postIncrement | .preDecrement => true
  | _ => false

/-- A transfer in mode 011 or 100 names two different registers (R104). -/
def Mode.distinctRegisters (m : Mode) (a b : Reg) : Bool := !(m.autoModifies && a == b)

/-- The operand forms that R104 gives a meaning, and DIV with two result registers (R124). -/
def Instr.operandsDefined : Instr → Bool
  | .div sa _ d => d != sa
  | .ldb a m b | .ldw a m b | .ldl a m b => m.distinctRegisters a b
  | .stb a m b | .stw a m b | .stl a m b => m != .immediate && m.distinctRegisters a b
  | .tsr m _ | .msr m _ | .mpc m _ => m != .immediate
  | .jea m _ | .jsr m _ => m != .immediate && m != .register
  | _ => true

/-- An instruction term with a defined meaning on a machine of the given word size. -/
def Instr.wellFormed (n : WordSize) (i : Instr) : Bool := i.existsAt n && i.operandsDefined

end Sys2Proof
end

