-- ==== Sys2Proof/Machine/GroupIII.lean ====
section
/-! DEFINITION. Group III, transfers (R170 to R180). -/

namespace Sys2Proof.Machine

/-- The flags of a transfer of the datum v: Z and N at its own size, V and C cleared (R172). -/
def State.transferFlags (s : State) (z : Size) (v : Word) : State :=
  s.setSr (s.sr.result z.bits v false false)

/-- A load of `size` bytes (R171, R174, R175, R176). -/
def load (z : Size) (a : Reg) (mode : Mode) (b : Reg) (s : State) : Result State :=
  if mode.autoModifies && a == b then .refused .sameRegisterAutomodify
  else
    andThen (evalMode mode b z s) fun o =>
    andThen (readLoc o.loc z o.state) fun v =>
    .next ((regWrite a z v o.state).transferFlags z v)

/-- A store of `size` bytes (R171, R177, R178, R179): Ra is read before the operand is evaluated. -/
def store (z : Size) (a : Reg) (mode : Mode) (b : Reg) (s : State) : Result State :=
  if mode = .immediate then .refused .writeToImmediate
  else if mode.autoModifies && a == b then .refused .sameRegisterAutomodify
  else
    let v := narrow z.bits (s.x a)
    andThen (evalMode mode b z s) fun o =>
    andThen (writeLoc o.loc z v o.state) fun s' =>
    .next (s'.transferFlags z v)

/-- LDB (R175). -/
def execLdb (a : Reg) (mode : Mode) (b : Reg) (s : State) : Result State := load .one a mode b s

/-- LDW (R174). -/
def execLdw (a : Reg) (mode : Mode) (b : Reg) (s : State) : Result State := load .two a mode b s

/-- LDL (R176), N = 32 only. -/
def execLdl (a : Reg) (mode : Mode) (b : Reg) (s : State) : Result State :=
  match s.params.size with
  | .n16 => .refused .reservedEncoding
  | .n32 => load .four a mode b s

/-- STB (R178). -/
def execStb (a : Reg) (mode : Mode) (b : Reg) (s : State) : Result State := store .one a mode b s

/-- STW (R177). -/
def execStw (a : Reg) (mode : Mode) (b : Reg) (s : State) : Result State := store .two a mode b s

/-- STL (R179), N = 32 only. -/
def execStl (a : Reg) (mode : Mode) (b : Reg) (s : State) : Result State :=
  match s.params.size with
  | .n16 => .refused .reservedEncoding
  | .n32 => store .four a mode b s

end Sys2Proof.Machine
end

