-- ==== Sys2Proof/Machine/GroupOp0.lean ====
section
/-! DEFINITION. The no-operand group (R240 to R248). -/

namespace Sys2Proof.Machine

/-- NOP (R241): the fetch has advanced the PC; nothing else. -/
def execNop (s : State) : Result State := .next s

/-- HLT (R242): the machine halts and waits for an interrupt. -/
def execHlt (s : State) : Result State := .next (s.setSr { s.sr with WF := true })

/-- RTS (R243). -/
def execRts (s : State) : Result State := andThen s.pop fun p => .next (p.2.setPc p.1)

/-- RTI (R244). -/
def execRti (s : State) : Result State := s.returnFromException

/-- CLC (R245). -/
def execClc (s : State) : Result State := .next (s.setSr { s.sr with CF := false })

/-- STC (R246). -/
def execStc (s : State) : Result State := .next (s.setSr { s.sr with CF := true })

/-- DSI (R247). -/
def execDsi (s : State) : Result State := .next (s.setSr { s.sr with IF := false })

/-- ENI (R248). -/
def execEni (s : State) : Result State := .next (s.setSr { s.sr with IF := true })

end Sys2Proof.Machine
end

