-- ==== Sys2Proof/Machine/GroupOp1.lean ====
section
/-! DEFINITION. The one-operand group (R220 to R229). -/

namespace Sys2Proof.Machine

/-- The operand of a jump to an effective address: register and immediate modes are refused (R104, R222, R223). -/
def evalAddress (mode : Mode) (r : Reg) (s : State) : Result (Word × State) :=
  if mode = .register then .refused .noEffectiveAddress
  else if mode = .immediate then .refused .jumpToImmediate
  else
    andThen (evalMode mode r s.T s) fun o =>
      match o.ea with
      | some a => .next (a, o.state)
      | none => .refused .noEffectiveAddress

/-- The operand as a destination: an immediate is refused before anything is evaluated (R104, R226, R227, R228). -/
def evalDestination (mode : Mode) (r : Reg) (s : State) : Result Operand :=
  if mode = .immediate then .refused .writeToImmediate else evalMode mode r s.T s

/-- The flags of a tested word (R225, R226). -/
def State.testFlags (s : State) (v : Word) : State := s.setResult v false false

/-- JPA (R221): the PC takes the operand's value. -/
def execJpa (mode : Mode) (r : Reg) (s : State) : Result State :=
  andThen (readOperand mode r s) fun p => .next (p.2.state.setPc p.1)

/-- JEA (R222): the PC takes the operand's address. -/
def execJea (mode : Mode) (r : Reg) (s : State) : Result State :=
  andThen (evalAddress mode r s) fun p => .next (p.2.setPc p.1)

/-- JSR (R223): the address of the next instruction is pushed. -/
def execJsr (mode : Mode) (r : Reg) (s : State) : Result State :=
  andThen (evalAddress mode r s) fun p =>
  andThen (p.2.push p.2.pc) fun s' =>
  .next (s'.setPc p.1)

/-- TRP (R224): takes the trap whose number is the operand. -/
def execTrp (mode : Mode) (r : Reg) (s : State) : Result State :=
  andThen (readOperand mode r s) fun p => p.2.state.raiseTrap p.1.toNat

/-- TST (R225). -/
def execTst (mode : Mode) (r : Reg) (s : State) : Result State :=
  andThen (readOperand mode r s) fun p => .next (p.2.state.testFlags p.1)

/-- TSR (R226): the flags of the old value, then the operand is 0. -/
def execTsr (mode : Mode) (r : Reg) (s : State) : Result State :=
  andThen (evalDestination mode r s) fun o =>
  andThen (readLoc o.loc s.T o.state) fun v =>
  writeLoc o.loc s.T 0 (o.state.testFlags v)

/-- MSR (R227): the operand takes the SR word. -/
def execMsr (mode : Mode) (r : Reg) (s : State) : Result State :=
  andThen (evalDestination mode r s) fun o => writeLoc o.loc s.T o.state.srWord o.state

/-- MPC (R228): the operand takes the address of the next instruction. -/
def execMpc (mode : Mode) (r : Reg) (s : State) : Result State :=
  andThen (evalDestination mode r s) fun o => writeLoc o.loc s.T o.state.pc o.state

end Sys2Proof.Machine
end

