-- ==== Sys2Proof/Machine/Quick.lean ====
section
/-! DEFINITION. The quick group (R260 to R263). -/

namespace Sys2Proof.Machine

/-- `ext(ValueCode)` (R91, R260). -/
def quickValue (value : BitVec 8) (s : State) : Word := sext s.n 8 (value.setWidth 32)

/-- LDQ (R261). -/
def execLdq (value : BitVec 8) (r : Reg) (s : State) : Result State :=
  writeLogic r (quickValue value s) s

/-- ADQ (R262). -/
def execAdq (value : BitVec 8) (r : Reg) (s : State) : Result State :=
  writeSum r (addC s.n (s.x r) (quickValue value s) false) s

end Sys2Proof.Machine
end

