-- ==== Sys2Proof/Machine/Dispatch.lean ====
section
/-! DEFINITION. The meaning of each instruction, one arm per constructor. -/

namespace Sys2Proof.Machine

def exec (i : Instr) (s : State) : Host.Outcome State Fault Refusal :=
  match i with
  | .adc sa sb d => Sys2Proof.Machine.execAdc sa sb d s
  | .xor sa sb d => Sys2Proof.Machine.execXor sa sb d s
  | .div sa sb d => Sys2Proof.Machine.execDiv sa sb d s
  | .mul sa sb d => Sys2Proof.Machine.execMul sa sb d s
  | .and sa sb d => Sys2Proof.Machine.execAnd sa sb d s
  | .or sa sb d => Sys2Proof.Machine.execOr sa sb d s
  | .add sa sb d => Sys2Proof.Machine.execAdd sa sb d s
  | .sub sa sb d => Sys2Proof.Machine.execSub sa sb d s
  | .rlc r d => Sys2Proof.Machine.execRlc r d s
  | .rrc r d => Sys2Proof.Machine.execRrc r d s
  | .srl r d => Sys2Proof.Machine.execSrl r d s
  | .sra r d => Sys2Proof.Machine.execSra r d s
  | .not r d => Sys2Proof.Machine.execNot r d s
  | .sbb r d => Sys2Proof.Machine.execSbb r d s
  | .shl r d => Sys2Proof.Machine.execShl r d s
  | .neg r d => Sys2Proof.Machine.execNeg r d s
  | .inp r d => Sys2Proof.Machine.execInp r d s
  | .out r d => Sys2Proof.Machine.execOut r d s
  | .swb r d => Sys2Proof.Machine.execSwb r d s
  | .rlb r d => Sys2Proof.Machine.execRlb r d s
  | .ani r d => Sys2Proof.Machine.execAni r d s
  | .ext r d => Sys2Proof.Machine.execExt r d s
  | .adi r d => Sys2Proof.Machine.execAdi r d s
  | .cmp r d => Sys2Proof.Machine.execCmp r d s
  | .ldb a mode b => Sys2Proof.Machine.execLdb a mode b s
  | .ldw a mode b => Sys2Proof.Machine.execLdw a mode b s
  | .ldl a mode b => Sys2Proof.Machine.execLdl a mode b s
  | .stb a mode b => Sys2Proof.Machine.execStb a mode b s
  | .stw a mode b => Sys2Proof.Machine.execStw a mode b s
  | .stl a mode b => Sys2Proof.Machine.execStl a mode b s
  | .jmp mode r => Sys2Proof.Machine.execJmp mode r s
  | .jeq mode r => Sys2Proof.Machine.execJeq mode r s
  | .jne mode r => Sys2Proof.Machine.execJne mode r s
  | .jge mode r => Sys2Proof.Machine.execJge mode r s
  | .jle mode r => Sys2Proof.Machine.execJle mode r s
  | .jgt mode r => Sys2Proof.Machine.execJgt mode r s
  | .jlw mode r => Sys2Proof.Machine.execJlw mode r s
  | .jae mode r => Sys2Proof.Machine.execJae mode r s
  | .jbe mode r => Sys2Proof.Machine.execJbe mode r s
  | .jab mode r => Sys2Proof.Machine.execJab mode r s
  | .jbl mode r => Sys2Proof.Machine.execJbl mode r s
  | .jvs mode r => Sys2Proof.Machine.execJvs mode r s
  | .jvc mode r => Sys2Proof.Machine.execJvc mode r s
  | .jpa mode r => Sys2Proof.Machine.execJpa mode r s
  | .jea mode r => Sys2Proof.Machine.execJea mode r s
  | .jsr mode r => Sys2Proof.Machine.execJsr mode r s
  | .trp mode r => Sys2Proof.Machine.execTrp mode r s
  | .tst mode r => Sys2Proof.Machine.execTst mode r s
  | .tsr mode r => Sys2Proof.Machine.execTsr mode r s
  | .msr mode r => Sys2Proof.Machine.execMsr mode r s
  | .mpc mode r => Sys2Proof.Machine.execMpc mode r s
  | .nop => Sys2Proof.Machine.execNop s
  | .hlt => Sys2Proof.Machine.execHlt s
  | .rts => Sys2Proof.Machine.execRts s
  | .rti => Sys2Proof.Machine.execRti s
  | .clc => Sys2Proof.Machine.execClc s
  | .stc => Sys2Proof.Machine.execStc s
  | .dsi => Sys2Proof.Machine.execDsi s
  | .eni => Sys2Proof.Machine.execEni s
  | .ldq value r => Sys2Proof.Machine.execLdq value r s
  | .adq value r => Sys2Proof.Machine.execAdq value r s
  | .jqmp value => Sys2Proof.Machine.execJqmp value s
  | .jqeq value => Sys2Proof.Machine.execJqeq value s
  | .jqne value => Sys2Proof.Machine.execJqne value s
  | .jqge value => Sys2Proof.Machine.execJqge value s
  | .jqle value => Sys2Proof.Machine.execJqle value s
  | .jqgt value => Sys2Proof.Machine.execJqgt value s
  | .jqlw value => Sys2Proof.Machine.execJqlw value s
  | .jqae value => Sys2Proof.Machine.execJqae value s
  | .jqbe value => Sys2Proof.Machine.execJqbe value s
  | .jqab value => Sys2Proof.Machine.execJqab value s
  | .jqbl value => Sys2Proof.Machine.execJqbl value s
  | .jqvs value => Sys2Proof.Machine.execJqvs value s
  | .jqvc value => Sys2Proof.Machine.execJqvc value s

end Sys2Proof.Machine
end

