-- ==== Sys2Proof/Machine/Step.lean ====
section
/-! DEFINITION. One step of the machine (R344). -/

namespace Sys2Proof.Machine

/-- Fetch, decode and run one instruction. -/
def runInstr (s : State) : Result State :=
  andThen (fetchInstr s) fun f => exec f.1 f.2

/-- The step of the CPU where there is no Reset: an interrupt, waiting, or an instruction, in that order (R313, R344). A
halted machine waits: nothing changes (log 14). -/
def stepReady (s : State) : Result State :=
  if s.sr.IF && !s.pending.isEmpty then s.acceptInterrupt
  else if s.sr.WF then .next s
  else runInstr s

/-- The step of the CPU once the environment has moved. A Reset comes first: `/RST` is low, or the handler of an Error has
ended (R308, R313, R344). -/
def stepCpu (s : State) : Result State :=
  if s.rstLow || s.errorEnded then .next s.doReset else stepReady s.passError

/-- One step: the environment's moves at the boundary, then the CPU (R312, R344). -/
def step (s : State) : Host.Outcome State Fault Refusal := stepCpu s.boundary

/-- `s` with an instruction placed where the step fetches: the bytes of the longest instruction of this machine, at the PC. -/
def State.withFetchWord (s : State) (nbits w : Nat) : State :=
  let k := 2 + s.params.ieSize.bytes
  forgetWritten (placeAtPc s 0 ((tableBytes nbits w).take k)) k

end Sys2Proof.Machine
end

