-- ==== Sys2Proof/Safety.lean ====
section
/-! DEFINITION. The terms claims are stated in: the invariant of the state, what an instruction keeps, when an operand can
be used, and which states a run may stop in. -/

namespace Sys2Proof.Machine

/-- The invariant of the machine: parameters the spec allows, every register an N-bit value (R20, R24), memory in its
canonical form and inside the address space (R50), the other lists ascending, the pending lines existing ones (R41). -/
structure State.Wf (s : State) : Prop where
  params : s.params.wf
  regs : ∀ r : Reg, s.regs[r].toNat < 2 ^ s.n
  pc : s.pc.toNat < 2 ^ s.n
  mem : Memory.wf s.mem
  space : ∀ c ∈ s.mem, c.1 < 2 ^ s.n
  written : s.written.Pairwise (· < ·)
  writtenSpace : ∀ a ∈ s.written, a < 2 ^ s.n
  pending : s.pending.Pairwise (· < ·)
  lines : ∀ i ∈ s.pending, i < s.params.nirq

/-! ## What an instruction keeps -/

/-- The k bytes at an address. -/
def inBytes (s : State) (a : Word) (k : Nat) (b : Nat) : Prop := ∃ j, j < k ∧ b = s.addrAt a j

/-- No byte. -/
def noByte (_ : Nat) : Prop := False

/-- From `s` to `t`: the parameters, the lines, the pending requests and a running Error handler stay; so does every register not in `regs` and
every byte of memory not in `stored`; the program is recorded to have written exactly `stored` besides. -/
structure Keeps (regs : List Reg) (stored : Nat → Prop) (s t : State) : Prop where
  params : t.params = s.params
  rstLow : t.rstLow = s.rstLow
  inError : t.inError = s.inError
  schedule : t.schedule = s.schedule
  pending : t.pending = s.pending
  reg : ∀ r, r ∉ regs → t.x r = s.x r
  byte : ∀ a, ¬ stored a → t.byteAt a = s.byteAt a
  written : ∀ a, a ∈ t.written ↔ a ∈ s.written ∨ stored a

/-- No port is read or written and no free value is drawn. -/
def Quiet (s t : State) : Prop := t.portIn = s.portIn ∧ t.portOut = s.portOut ∧ t.draws = s.draws

/-- The flags with the result flags as given, WF and IF kept (R12). -/
def Flags.withResult (f : Flags) (zf nf vf cf : Bool) : Flags :=
  { WF := f.WF, IF := f.IF, ZF := zf, VF := vf, CF := cf, NF := nf }

/-! ## When an operand can be used -/

/-- A fetch of `z` bytes at the PC goes through (R60, R69). -/
def fetchReady (z : Size) (s : State) : Prop := s.pc.getLsbD 0 = false ∧ s.fetchRefused z.bytes = false

/-- The operand of a mode can be evaluated: its extension word can be fetched and its pointer is aligned. -/
def addressReady (mode : Mode) (r : Reg) (s : State) : Prop :=
  (mode.hasExtension = true → fetchReady s.params.ieSize s) ∧ pointerMisaligned mode r s = false

/-- The location of an operand of `z` bytes is aligned, and an immediate is not wider than the extension word. -/
def locReady (l : Loc) (z : Size) (s : State) : Prop :=
  match l with
  | .imm _ => z.bytes ≤ s.params.ieSize.bytes
  | .reg _ => True
  | .mem a => misaligned z a = false

/-- The operand can be evaluated and read or written. -/
def operandReady (mode : Mode) (r : Reg) (z : Size) (s : State) : Prop :=
  addressReady mode r s ∧ locReady (location mode r z s) z s

/-- The operand is reached through a pointer at an odd address (R59, R102). -/
def pointerUnaligned (mode : Mode) (r : Reg) (s : State) : Prop :=
  (mode.hasExtension = true → fetchReady s.params.ieSize s) ∧ pointerMisaligned mode r s = true

/-- The operand of `z` bytes is reached through a pointer at an odd address, or stands at an odd address itself (R59). -/
def operandUnaligned (mode : Mode) (r : Reg) (z : Size) (s : State) : Prop :=
  pointerUnaligned mode r s ∨ (addressReady mode r s ∧ ∃ a, location mode r z s = .mem a ∧ misaligned z a = true)

/-- The state once an operand has been evaluated: the PC past the extension word, the register of modes 011 and 100
stepped. -/
def afterOperand (mode : Mode) (r : Reg) (z : Size) (s : State) : State :=
  stepRegister mode r z
    (if mode.hasExtension then s.setPc (s.pc + BitVec.ofNat 32 s.params.ieSize.bytes) else s)

/-- The `z` bytes a location holds. -/
def locValue (l : Loc) (z : Size) (s : State) : Word :=
  match l with
  | .imm v => narrow z.bits v
  | .reg r => narrow z.bits (s.x r)
  | .mem a => s.bytesAt a z.bytes

/-- The value of an operand. -/
def operandValue (mode : Mode) (r : Reg) (z : Size) (s : State) : Word := locValue (location mode r z s) z s

/-- The registers that a mode changes. -/
def modeRegs (mode : Mode) (r : Reg) : List Reg := if mode.autoModifies then [r] else []

/-- The displacement of a branch with a mode operand (R200). -/
def displacement (mode : Mode) (r : Reg) (s : State) : Word :=
  match location mode r s.T s with
  | .imm v => v
  | l => locValue l s.T s

/-- The displacement can be evaluated and read: its location is aligned, and an immediate wider than the extension word is one
that the launch extends (R103, R200; log 20). -/
def displacementReady (mode : Mode) (r : Reg) (s : State) : Prop :=
  addressReady mode r s ∧
    match location mode r s.T s with
    | .imm v => s.params.branchImmediate = .extend ∨ locReady (.imm v) s.T s
    | l => locReady l s.T s

/-- The PC once an operand has been evaluated: past the extension word, if the mode has one (R92). -/
def nextPc (mode : Mode) (s : State) : Word :=
  if mode.hasExtension then narrow s.n (s.pc + BitVec.ofNat 32 s.params.ieSize.bytes) else s.pc

/-- The register of modes 011 and 100 has stepped by the operand's size (R98, R99). -/
def stepped (mode : Mode) (r : Reg) (z : Size) (s t : State) : Prop :=
  match mode with
  | .postIncrement => t.x r = narrow s.n (s.x r + BitVec.ofNat 32 z.bytes)
  | .preDecrement => t.x r = narrow s.n (s.x r - BitVec.ofNat 32 z.bytes)
  | _ => True

/-! ## What an instruction changes -/

/-- From `s` to `t` nothing changes but the registers in `regs`, the bytes of `stored`, the PC and the flags, which are as
given. -/
def changesOnly (regs : List Reg) (stored : Nat → Prop) (pc : Word) (f : Flags) (s t : State) : Prop :=
  t.pc = pc ∧ t.sr = f ∧ Keeps regs stored s t ∧ Quiet s t

/-- The k bytes at an address hold a value, the most significant byte first (R53, R57). -/
def holdsWord (t : State) (a : Word) (k : Nat) (v : Word) : Prop :=
  ∀ j, j < k → t.byteAt (t.addrAt a j) = (v >>> (8 * (k - 1 - j))).setWidth 8

/-- From `s` to `t` an exception of number `num` has been entered with the return address `ret` (R304). -/
structure Entered (num : Nat) (ret : Word) (s t : State) : Prop where
  sp : t.x SP = narrow s.n (s.x SP - BitVec.ofNat 32 (2 * s.T.bytes))
  savedPc : holdsWord t (t.x SP) s.T.bytes ret
  savedSr : holdsWord t (narrow s.n (t.x SP + BitVec.ofNat 32 s.T.bytes)) s.T.bytes s.srWord
  flags : t.sr = { s.sr with IF := false }
  pc : t.pc = narrow s.n (t.bytesAt (BitVec.ofNat 32 (4 * num % 2 ^ s.n)) s.T.bytes &&& s.params.vectorMask)
  keeps : Keeps [SP] (inBytes s (t.x SP) (2 * s.T.bytes)) s t
  quiet : Quiet s t

/-- The load of a size (R174, R175, R176). -/
def loadInstr : Size → Reg → Mode → Reg → Instr
  | .one => .ldb
  | .two => .ldw
  | .four => .ldl

/-- The store of a size (R177, R178, R179). -/
def storeInstr : Size → Reg → Mode → Reg → Instr
  | .one => .stb
  | .two => .stw
  | .four => .stl

/-- A transfer of `z` bytes exists: 4 bytes at N = 32 only (R170). -/
def transferExists (z : Size) (s : State) : Prop := z = .four → s.params.size = .n32

/-- What a write of the `z`-byte datum `v` to a register leaves in it: the datum in the low bits, the upper bits as
`NARROW_REG_WRITE` says (R103); `old` is the register's value before. -/
def narrowWritten (z : Size) (s : State) (old v new : Word) : Prop :=
  narrow z.bits new = v ∧
    (z.bits < s.n →
      match s.params.narrowWrite with
      | .zext => new = v
      | .sext => sint s.n new = sint z.bits v
      | .merge => new >>> z.bits = old >>> z.bits)

/-- The level of `/RST` that a move sets, if it sets one (R340). -/
def EnvMove.resetLevel : EnvMove → Option Bool
  | .edge _ => none
  | .resetLine low => some low

/-- From `s` to `t` the machine has been reset: SR cleared, the PC at the start address, no request pending, no Error handler
running; memory, the lines, ports and parameters stay, and the general registers hold any values of N bits (R340, R341). -/
structure WasReset (s t : State) : Prop where
  flags : t.sr = Flags.clear
  pc : t.pc = narrow s.n s.params.startAddr
  pending : t.pending = []
  inError : t.inError = false
  regs : ∀ r : Reg, t.regs[r].toNat < 2 ^ s.n
  rstLow : t.rstLow = s.rstLow
  schedule : t.schedule = s.schedule
  mem : t.mem = s.mem
  written : t.written = s.written
  params : t.params = s.params
  ports : t.portIn = s.portIn ∧ t.portOut = s.portOut

/-- From `s` to `t` an Error of number `num` has been entered: IF cleared, the PC at the masked vector, a Reset to follow; SR is
not pushed, and the PC is pushed or not (R308). -/
structure EnteredError (num : Nat) (s t : State) : Prop where
  inError : t.inError = true
  flags : t.sr = { s.sr with IF := false }
  pc : t.pc = narrow s.n (t.bytesAt (BitVec.ofNat 32 (4 * num % 2 ^ s.n)) s.T.bytes &&& s.params.vectorMask)
  reg : ∀ r, r ≠ SP → t.x r = s.x r
  stack : (t.x SP = s.x SP ∧ t.mem = s.mem) ∨
    (t.x SP = narrow s.n (s.x SP - BitVec.ofNat 32 s.T.bytes) ∧ holdsWord t (t.x SP) s.T.bytes s.pc ∧
      ∀ a, ¬ inBytes s (t.x SP) s.T.bytes a → t.byteAt a = s.byteAt a)
  lines : t.pending = s.pending ∧ t.rstLow = s.rstLow ∧ t.schedule = s.schedule ∧ t.params = s.params
  ports : t.portIn = s.portIn ∧ t.portOut = s.portOut

/-! ## Families of instructions -/

/-- The instructions that write the PC besides its advance (R25). -/
def writesPc : Instr → Bool
  | .jmp _ _ | .jeq _ _ | .jne _ _ | .jge _ _ | .jle _ _ | .jgt _ _ | .jlw _ _ | .jae _ _ | .jbe _ _ | .jab _ _
  | .jbl _ _ | .jvs _ _ | .jvc _ _ => true
  | .jpa _ _ | .jea _ _ | .jsr _ _ | .trp _ _ | .rts | .rti => true
  | .jqmp _ | .jqeq _ | .jqne _ | .jqge _ | .jqle _ | .jqgt _ | .jqlw _ | .jqae _ | .jqbe _ | .jqab _ | .jqbl _
  | .jqvs _ | .jqvc _ => true
  | _ => false

/-- The instructions that may write memory: stores, the one-operand instructions with a destination, JSR and TRP (R51). -/
def writesMemory : Instr → Bool
  | .stb _ _ _ | .stw _ _ _ | .stl _ _ _ | .jsr _ _ | .trp _ _ | .tsr _ _ | .msr _ _ | .mpc _ _ => true
  | _ => false

/-! ## Runs -/

/-- The next step is no Reset (R308, R340). -/
def State.noReset (s : State) : Prop := s.rstLow = false ∧ s.errorEnded = false

/-- The next step runs an instruction: no Reset, no interrupt to accept, not halted (R344). -/
def State.runs (s : State) : Prop :=
  s.noReset ∧ (s.sr.IF = false ∨ s.pending = []) ∧ s.sr.WF = false

/-- The machine is halted with no interrupt to accept and no Reset to come: it waits (R324). -/
def State.waits (s : State) : Prop :=
  s.noReset ∧ (s.sr.IF = false ∨ s.pending = []) ∧ s.sr.WF = true

/-- The run has ended (R347): halted, interrupts off, the PC at `endPc`, which follows a HLT of the launch image. -/
def State.runEnded (launch : List Host.Cell) (endPc : Word) (s : State) : Prop :=
  s.sr.WF = true ∧ s.sr.IF = false ∧ s.pc = endPc ∧
    ({ s with mem := launch }.bytesAt (narrow s.n (endPc - 2)) 2).setWidth 16 = encodeWord .hlt

/-- `k` steps go through. -/
def goesOn (k : Nat) (s : State) : Prop := ∃ t, Sys2Proof.core.run k s = .next t

/-- A safe run: no number of steps meets a fault or a refusal. -/
def neverStops (s : State) : Prop := ∀ k, goesOn k s

end Sys2Proof.Machine
end

