-- ==== Sys2Proof/Certificates/Slice0/Obligations.lean ====
section
/-! DEFINITION. The statements to be proved of the model. Each docstring names the rules of spec/ it formalises and, where
it rests on a choice of the model, the log entry. -/

open Sys2Proof Sys2Proof.Machine

/-! ## Encoding -/

/-- Every instruction decodes from its own bytes, whatever follows them (R81 to R91, R105; the positions of four formats
are the spec's choice, log 24). -/
def Obligations.DecodeOfEncodeIsTheInstruction : Prop :=
  ∀ (i : Instr) (rest : List Byte), decode (encode i ++ rest) = .ok (i, rest)

/-- A word that decodes has no other reading: it is the word of the instruction it decodes to, it belongs to that
instruction's row of the opcode table, and its length can be told from it. Every word of a row decodes, to an instruction of
that row (R89, R93, R105; log 24). -/
def Obligations.DecodedWordIsTheInstructionsWord : Prop :=
  (∀ (w : InstrWord) (i : Instr), decodeWord w = .ok i →
    encodeWord i = w ∧ i.row.holds w = true ∧ wordHasExtension w = i.hasExtension) ∧
  ∀ (q : OpcodeRow) (w : InstrWord), q ∈ opcodeRows → q.holds w = true → ∃ i, decodeWord w = .ok i ∧ i.row = q

/-- The words that select no instruction are exactly those of R106 that depend on no word size (log 16; the ranges 0000h to
007Fh, 0700h to 07FFh and 0C08h to 0FFFh follow from the positions the spec chose, log 24). -/
def Obligations.ReservedWordsAreExactlyThese : Prop :=
  ∀ w : InstrWord, (decodeWord w = .error (.reservedEncoding w)) ↔
    (w.toNat < 0x80 ∨ (0x700 ≤ w.toNat ∧ w.toNat < 0x800) ∨ (0xC08 ≤ w.toNat ∧ w.toNat < 0x1100) ∨
      (0x1E00 ≤ w.toNat ∧ w.toNat < 0x2000))

/-- Words of the examples of the spec, one or more for each format, decode to the instructions they stand for
(R122, R150, R174, R177, R204, R222, R246, R262, R273; log 24). -/
def Obligations.ExampleWordsDecode : Prop :=
  decodeWord 0x8123 = .ok (.adc 1 2 3) ∧ decodeWord 0x4812 = .ok (.inp 1 2) ∧
    decodeWord 0x61B2 = .ok (.ldw 1 .postIncrement 2) ∧ decodeWord 0x614F = .ok (.stw 1 .preDecrement 15) ∧
    decodeWord 0x0093 = .ok (.jmp .register 3) ∧ decodeWord 0x08E2 = .ok (.jea .indexed 2) ∧
    decodeWord 0x0C05 = .ok .stc ∧ decodeWord 0x3FF3 = .ok (.adq 0xFF 3) ∧ decodeWord 0x13FA = .ok (.jqne 0xFA)

/-! ## The step -/

/-- When the machine is to run an instruction and the two bytes at the PC decode to `i`, the step is `exec` of `i` on the
state after the environment's moves, the PC two bytes on (R55, R89, R344; while an Error handler runs a choice is drawn before
it, log 31). -/
def Obligations.StepRunsTheDecodedInstruction : Prop :=
  ∀ (s : State) (i : Instr), s.boundary.runs → fetchReady .two s.boundary →
    decode [s.boundary.byteAt (s.boundary.addrAt s.boundary.pc 0), s.boundary.byteAt (s.boundary.addrAt s.boundary.pc 1)] =
        .ok (i, []) →
      step s = exec i (s.boundary.passError.setPc (s.boundary.pc + 2))

/-- The environment's moves at a boundary set the level of `/RST`, the last one set being its level afterwards, and the
pending bits of lines that exist, and nothing else (R41, R311, R312, R340; the pending bits are log 11, the schedule is the
model's form of the moves, log 13, and that only the last level counts is the model's choice, log 45). -/
def Obligations.BoundaryMovesOnlyTheLines : Prop :=
  ∀ s : State,
    s.boundary = { s with pending := s.boundary.pending, rstLow := s.boundary.rstLow, schedule := s.schedule.tail } ∧
      s.boundary.rstLow = ((s.schedule.headD []).filterMap EnvMove.resetLevel).getLast?.getD s.rstLow ∧
      ∀ i, i ∈ s.boundary.pending ↔ i ∈ s.pending ∨ (i < s.params.nirq ∧ .edge i ∈ s.schedule.headD [])

/-- The status register after Reset, at launch and in a run: all six flags 0 (R37). -/
def Obligations.ResetClearsTheStatusRegister : Prop :=
  ∀ s t : State, (t = State.reset ∨ (s.boundary.rstLow = true ∧ step s = .next t)) →
    t.sr.ZF = false ∧ t.sr.CF = false ∧ t.sr.NF = false ∧ t.sr.VF = false ∧ t.sr.IF = false ∧ t.sr.WF = false

/-- While `/RST` is low a step is a Reset, whatever else is pending: the PC at the start address, no request pending, memory,
ports and parameters untouched, the general registers any values of N bits (R313, R340, R341; log 5, log 41). An Error is
entered with IF cleared and SR not pushed, and while its handler runs each step is the Reset that follows the handler, if
the handler has ended, or else the step the machine would make without it (R308; that the end of the handler and the push
of the PC are free choices is log 31, how the vector is read log 30, the stop on an odd R15 log 17). -/
def Obligations.ResetTakesPriorityAndStartsTheProgram : Prop :=
  ∀ s : State,
    (s.boundary.rstLow = true →
      ∃ t, step s = .next t ∧ WasReset s.boundary t ∧ (s.params.size = .n16 → t.pc = 0xFFFA)) ∧
    (∀ num, (s.x SP).getLsbD 0 = false → ∃ t, s.raiseError num = .next t ∧ EnteredError num s t) ∧
    (s.boundary.rstLow = false → s.boundary.inError = true →
      if Config.errorHandlerEnds s.boundary.draws = true then
        ∃ t, step s = .next t ∧ WasReset s.boundary t ∧ (s.params.size = .n16 → t.pc = 0xFFFA)
      else step s = stepReady s.boundary.drawn)

/-- A halted machine with no interrupt to accept does nothing: only the environment's moves happen (R324, R344; that such a
step is a step of the model is log 14; while an Error handler runs a choice is drawn, log 31). -/
def Obligations.HaltedMachineWaits : Prop :=
  ∀ s : State, s.boundary.waits → step s = .next s.boundary.passError

/-- A fetch with an odd PC, a fetch of a byte the program has written under `SELF_MODIFY = refuse`, and a reserved word
stop the machine; with `SELF_MODIFY = coherent` every fetch with an even PC goes through. The first two stop the fetch of an
extension word as well, in every instruction that has one and whose operand form has a meaning (R60, R69, R92, R106; log 16,
log 17, log 25, log 33). -/
def Obligations.FetchStopsOnOddPcAndReservedWords : Prop :=
  (∀ s : State, s.boundary.runs →
    (s.boundary.pc.getLsbD 0 = true → step s = .fault .oddPc) ∧
    (s.boundary.pc.getLsbD 0 = false → s.params.selfModify = .refuse →
      (s.boundary.addrAt s.boundary.pc 0 ∈ s.written ∨ s.boundary.addrAt s.boundary.pc 1 ∈ s.written) →
      step s = .refused .selfModifiedCode) ∧
    (fetchReady .two s.boundary →
      (∃ e, decode [s.boundary.byteAt (s.boundary.addrAt s.boundary.pc 0),
        s.boundary.byteAt (s.boundary.addrAt s.boundary.pc 1)] = .error e) →
      step s = .refused .reservedEncoding) ∧
    (s.boundary.pc.getLsbD 0 = false → s.params.selfModify = .coherent → fetchReady .two s.boundary)) ∧
  ∀ (s : State) (i : Instr), i.hasExtension = true → i.wellFormed s.params.size = true →
    (s.pc.getLsbD 0 = true → exec i s = .fault .oddPc) ∧
    (s.pc.getLsbD 0 = false → s.params.selfModify = .refuse →
      (∃ k, k < s.params.ieSize.bytes ∧ s.addrAt s.pc k ∈ s.written) → exec i s = .refused .selfModifiedCode)

/-- With IF set and a line pending, the step accepts one pending line `i`: its request is taken, WF is cleared and the
exception 32 + i is entered with the PC as return address (R304, R305; which line is a free choice, log 12; the entry is
log 30, WF cleared before the push is log 43; while an Error handler runs a choice is drawn before it, log 31). -/
def Obligations.PendingInterruptIsEntered : Prop :=
  ∀ s : State, s.boundary.noReset → s.boundary.sr.IF = true → s.boundary.pending ≠ [] →
    (s.boundary.x SP).getLsbD 0 = false →
    ∃ i t u, i ∈ s.boundary.pending ∧ step s = .next t ∧
      u = { s.boundary with
        pending := s.boundary.pending.filter (· != i), sr := { s.boundary.sr with WF := false }
        draws := s.boundary.passError.draws + 1 } ∧
      Entered (32 + i) s.boundary.pc u t

/-- Every step keeps the invariant of the machine: registers and PC of N bits, memory in canonical form and inside the
address space, the lists ascending, pending lines existing ones; and no step changes the launch parameters or raises an
Error, in any state (R20, R24, R41, R50, R308, R348). -/
def Obligations.StepKeepsTheInvariant : Prop :=
  ∀ s t : State, step s = .next t →
    t.params = s.params ∧ (s.inError = false → t.inError = false) ∧ (s.Wf → t.Wf)

/-- The state after Reset has the invariant; it starts at FFFAh and lists no memory (R43, R340; the registers' values are log 4,
the parameters log 2 and log 3, the empty memory log 6, the start address log 41). -/
def Obligations.ResetHasTheInvariant : Prop :=
  State.reset.Wf ∧ State.reset.pc = 0xFFFA ∧ State.reset.pending = [] ∧ State.reset.mem = []

/-! ## What whole families do -/

/-- Only HLT and RTI change WF, and only DSI, ENI, RTI and the entry of TRP change IF (R12, R33, R34). -/
def Obligations.OnlyTheseInstructionsChangeIFAndWF : Prop :=
  ∀ (i : Instr) (s t : State), exec i s = .next t →
    (t.sr.WF = s.sr.WF ∨ i = .hlt ∨ i = .rti) ∧
    (t.sr.IF = s.sr.IF ∨ i = .dsi ∨ i = .eni ∨ i = .rti ∨ ∃ m r, i = .trp m r)

/-- Only INP reads a port and only OUT writes one; nothing but the environment touches the pending bits and `/RST`
(R41, R52). -/
def Obligations.OnlyInpAndOutReachThePorts : Prop :=
  ∀ (i : Instr) (s t : State), exec i s = .next t →
    t.pending = s.pending ∧ t.rstLow = s.rstLow ∧ t.schedule = s.schedule ∧
    (t.portIn = s.portIn ∨ ∃ r d, i = .inp r d) ∧ (t.portOut = s.portOut ∨ ∃ r d, i = .out r d)

/-- Only the stores, TSR, MSR, MPC, JSR and TRP write memory (R51). -/
def Obligations.OnlyTheseInstructionsWriteMemory : Prop :=
  ∀ (i : Instr) (s t : State), exec i s = .next t → writesMemory i = false →
    t.written = s.written ∧ ∀ a, t.byteAt a = s.byteAt a

/-- An instruction that is no branch, jump, call, trap or return leaves the PC at the next instruction: past the extension
word if it has one (R25, R92; log 25). -/
def Obligations.OnlyTheseInstructionsWriteThePc : Prop :=
  ∀ (i : Instr) (s t : State), exec i s = .next t → writesPc i = false →
    t.pc = if i.hasExtension then narrow s.n (s.pc + BitVec.ofNat 32 s.params.ieSize.bytes) else s.pc

/-! ## Memory, extension word, stack, SR -/

/-- `MemRead` concatenates the bytes at the address, the first most significant, and `MemWrite` spreads a value over them in
that order and changes no other byte; both stop on a 2- or 4-byte access at an odd address (R56, R57, R59; the stop is
log 17). -/
def Obligations.MemReadAndMemWriteAreBigEndian : Prop :=
  ∀ (s : State) (a v : Word) (z : Size),
    (z ≠ .one ∧ a.toNat % 2 = 1 → s.memRead a z = .fault .misalignedAccess ∧ s.memWrite a z v = .fault .misalignedAccess) ∧
    (z = .one ∨ a.toNat % 2 = 0 →
      (∃ w, s.memRead a z = .next w ∧ w.toNat < 2 ^ (8 * z.bytes) ∧
        ∀ k, k < z.bytes → s.byteAt ((a.toNat + k) % 2 ^ s.n) = (w >>> (8 * (z.bytes - 1 - k))).setWidth 8) ∧
      ∃ t, s.memWrite a z v = .next t ∧
        (∀ k, k < z.bytes → t.byteAt ((a.toNat + k) % 2 ^ s.n) = (v >>> (8 * (z.bytes - 1 - k))).setWidth 8) ∧
        (∀ b, (∀ k, k < z.bytes → b ≠ (a.toNat + k) % 2 ^ s.n) → t.byteAt b = s.byteAt b) ∧
        t.regs = s.regs ∧ t.pc = s.pc ∧ t.sr = s.sr)

/-- The eight addressing modes: the location, the effective address and what evaluating the mode changes. The extension word
is the word at the PC, signed where it is narrower than N bits, and fetching it moves the PC past it (R92, R95 to R102; when
the PC moves is the spec's reading, log 25). -/
def Obligations.AddressingModesFollowTheTable : Prop :=
  ∀ (s : State) (r : Reg) (z : Size),
    sint s.n s.extensionWord = sint (8 * s.params.ieSize.bytes) (s.bytesAt s.pc s.params.ieSize.bytes) ∧
    evalMode .register r z s = .next ⟨.reg r, none, s⟩ ∧
    evalMode .indirect r z s = .next ⟨.mem (s.x r), some (s.x r), s⟩ ∧
    evalMode .postIncrement r z s =
      .next ⟨.mem (s.x r), some (s.x r), s.setX r (s.x r + BitVec.ofNat 32 z.bytes)⟩ ∧
    evalMode .preDecrement r z s =
      .next ⟨.mem (narrow s.n (s.x r - BitVec.ofNat 32 z.bytes)), some (narrow s.n (s.x r - BitVec.ofNat 32 z.bytes)),
        s.setX r (s.x r - BitVec.ofNat 32 z.bytes)⟩ ∧
    ∀ u, u = s.setPc (s.pc + BitVec.ofNat 32 s.params.ieSize.bytes) → fetchReady s.params.ieSize s →
      evalMode .immediate r z s = .next ⟨.imm s.extensionWord, some s.pc, u⟩ ∧
      evalMode .direct r z s = .next ⟨.mem s.extensionWord, some s.extensionWord, u⟩ ∧
      evalMode .indexed r z s =
        .next ⟨.mem (narrow s.n (s.x r + s.extensionWord)), some (narrow s.n (s.x r + s.extensionWord)), u⟩ ∧
      ∀ p, s.memRead (narrow s.n (s.x r + s.extensionWord)) s.T = .next p →
        evalMode .indirectIndexed r z s = .next ⟨.mem p, some p, u⟩

/-- With R15 even, `Push` moves R15 down by T and writes the word there, and `Pop` reads the word at R15 and moves R15 up by T
(R13). -/
def Obligations.PushAndPopMoveTheStackPointer : Prop :=
  ∀ (s : State) (v : Word), (s.x SP).getLsbD 0 = false →
    (∃ t, s.push v = .next t ∧ t.x SP = narrow s.n (s.x SP - BitVec.ofNat 32 s.T.bytes) ∧
      holdsWord t (t.x SP) s.T.bytes v ∧
      changesOnly [SP] (inBytes s (t.x SP) s.T.bytes) s.pc s.sr s t) ∧
    ∃ w t, s.pop = .next (w, t) ∧ holdsWord s (s.x SP) s.T.bytes w ∧ w.toNat < 2 ^ s.n ∧
      t.x SP = narrow s.n (s.x SP + BitVec.ofNat 32 s.T.bytes) ∧ changesOnly [SP] noByte s.pc s.sr s t

/-- The SR as a word has each flag at its place and every other bit 0, and loading that word gives the flags back, for
every layout of six distinct places (R35, R36; the layout is a parameter, log 2). -/
def Obligations.StatusWordHoldsTheFlags : Prop :=
  ∀ (l : SrLayout) (f : Flags), l.distinct →
    srLoad l (srWord l f) = f ∧
      ∀ k, (∀ p ∈ [l.WF, l.IF, l.ZF, l.VF, l.CF, l.NF], p.val ≠ k) → (srWord l f).getLsbD k = false

/-! ## Group I -/

/-- ADD and ADC: the sum on N bits, ADC with the carry added, and its four flags (R122, R128; NF in Groups I to III is the
spec's reading, log 21). -/
def Obligations.AddAndAdcWriteTheSumAndItsFlags : Prop :=
  ∀ (s : State) (sa sb d : Reg) (p : Instr × Nat × Nat),
    p ∈ [(.add sa sb d, 0, 0xE), (.adc sa sb d, s.sr.CF.toNat, 0x8)] →
    (encodeWord p.1).toNat / 0x1000 = p.2.2 ∧
    ∃ t, exec p.1 s = .next t ∧
      (t.x d).toNat = ((s.x sa).toNat + (s.x sb).toNat + p.2.1) % 2 ^ s.n ∧
      changesOnly [d] noByte s.pc
        (s.sr.withResult (decide (((s.x sa).toNat + (s.x sb).toNat + p.2.1) % 2 ^ s.n = 0))
          (decide (2 ^ (s.n - 1) ≤ ((s.x sa).toNat + (s.x sb).toNat + p.2.1) % 2 ^ s.n))
          (decide (sint s.n (s.x sa) + sint s.n (s.x sb) + p.2.1 < -2 ^ (s.n - 1) ∨
            2 ^ (s.n - 1) - 1 < sint s.n (s.x sa) + sint s.n (s.x sb) + p.2.1))
          (decide (2 ^ s.n ≤ (s.x sa).toNat + (s.x sb).toNat + p.2.1))) s t

/-- SUB: the difference on N bits; CF is the borrow (R129; the borrow and NF are the spec's
reading, log 21, log 22). -/
def Obligations.SubWritesTheDifferenceAndTheBorrow : Prop :=
  ∀ (s : State) (sa sb d : Reg), ∃ t, exec (.sub sa sb d) s = .next t ∧
    (t.x d).toNat = ((s.x sa).toNat + 2 ^ s.n - (s.x sb).toNat) % 2 ^ s.n ∧
    changesOnly [d] noByte s.pc
      (s.sr.withResult (decide (s.x sa = s.x sb)) ((t.x d).getLsbD (s.n - 1))
        (decide (sint s.n (s.x sa) - sint s.n (s.x sb) < -2 ^ (s.n - 1) ∨
          2 ^ (s.n - 1) - 1 < sint s.n (s.x sa) - sint s.n (s.x sb)))
        (decide ((s.x sa).toNat < (s.x sb).toNat))) s t

/-- AND, OR and XOR bit by bit; Z and N from the result, V and C cleared (R123, R126, R127; NF is the
spec's reading, log 21). -/
def Obligations.LogicalOperationsWorkBitByBit : Prop :=
  ∀ (s : State) (sa sb d : Reg) (p : Instr × (Bool → Bool → Bool) × Nat),
    p ∈ [(.and sa sb d, Bool.and, 0xC), (.or sa sb d, Bool.or, 0xD), (.xor sa sb d, Bool.xor, 0x9)] →
    (encodeWord p.1).toNat / 0x1000 = p.2.2 ∧
    ∃ t, exec p.1 s = .next t ∧
      (∀ k, (t.x d).getLsbD k = p.2.1 ((s.x sa).getLsbD k) ((s.x sb).getLsbD k)) ∧
      changesOnly [d] noByte s.pc
        (s.sr.withResult (decide (t.x d = 0)) ((t.x d).getLsbD (s.n - 1)) false false) s t

/-- MUL: the low N bits of the signed product; V when the product does not fit; CF any value (R125; log 7,
log 21, log 29). -/
def Obligations.MulWritesTheLowBitsOfTheSignedProduct : Prop :=
  ∀ (s : State) (sa sb d : Reg), ∃ t c, exec (.mul sa sb d) s = .next t ∧
    ((t.x d).toNat : Int) = (sint s.n (s.x sa) * sint s.n (s.x sb)) % 2 ^ s.n ∧
    t.pc = s.pc ∧ Keeps [d] noByte s t ∧ t.portIn = s.portIn ∧ t.portOut = s.portOut ∧
    t.sr = s.sr.withResult (decide (t.x d = 0)) ((t.x d).getLsbD (s.n - 1))
      (decide (sint s.n (s.x sa) * sint s.n (s.x sb) < -2 ^ (s.n - 1) ∨
        2 ^ (s.n - 1) - 1 < sint s.n (s.x sa) * sint s.n (s.x sb))) c

/-- DIV: `a = q * b + r` with the remainder smaller than the divisor and signed as the rounding says; the quotient to Rd,
the remainder to Rsa, flags from the quotient, CF any value (R124; log 7, log 21, log 29). -/
def Obligations.DivWritesQuotientAndRemainder : Prop :=
  ∀ (s : State) (sa sb d : Reg), s.x sb ≠ 0 → d ≠ sa →
    ∃ t c q r, exec (.div sa sb d) s = .next t ∧
      sint s.n (s.x sa) = q * sint s.n (s.x sb) + r ∧ |r| < |sint s.n (s.x sb)| ∧
      (r ≠ 0 → match s.params.divRounding with
        | .trunc => (r < 0 ↔ sint s.n (s.x sa) < 0)
        | .floor => (r < 0 ↔ sint s.n (s.x sb) < 0)) ∧
      ((t.x d).toNat : Int) = q % 2 ^ s.n ∧ ((t.x sa).toNat : Int) = r % 2 ^ s.n ∧
      t.pc = s.pc ∧ Keeps [d, sa] noByte s t ∧ t.portIn = s.portIn ∧ t.portOut = s.portOut ∧
      t.sr = s.sr.withResult (decide (t.x d = 0)) ((t.x d).getLsbD (s.n - 1)) (decide (2 ^ (s.n - 1) - 1 < q)) c

/-- Two-word arithmetic: ADD then ADC adds 2N-bit numbers; SUB, SBB, SUB subtracts them, the borrow being the OR of the last
two, never both (R130; log 22). -/
def Obligations.TwoWordAdditionAndSubtraction : Prop :=
  ∀ (s : State) (al bl dl ah bh dh : Reg), dl ≠ ah → dl ≠ bh → dl ≠ dh →
    (∃ t u, exec (.add al bl dl) s = .next t ∧ exec (.adc ah bh dh) t = .next u ∧
      (u.x dh).toNat * 2 ^ s.n + (u.x dl).toNat =
        ((s.x ah).toNat * 2 ^ s.n + (s.x al).toNat + ((s.x bh).toNat * 2 ^ s.n + (s.x bl).toNat)) % 2 ^ (2 * s.n) ∧
      (u.sr.CF = true ↔ 2 ^ (2 * s.n) ≤
        (s.x ah).toNat * 2 ^ s.n + (s.x al).toNat + ((s.x bh).toNat * 2 ^ s.n + (s.x bl).toNat))) ∧
    (dh ≠ bh → ∃ t u v, exec (.sub al bl dl) s = .next t ∧ exec (.sbb ah dh) t = .next u ∧
      exec (.sub dh bh dh) u = .next v ∧
      (v.x dh).toNat * 2 ^ s.n + (v.x dl).toNat =
        ((s.x ah).toNat * 2 ^ s.n + (s.x al).toNat + 2 ^ (2 * s.n) -
          ((s.x bh).toNat * 2 ^ s.n + (s.x bl).toNat)) % 2 ^ (2 * s.n) ∧
      ((u.sr.CF || v.sr.CF) = true ↔
        (s.x ah).toNat * 2 ^ s.n + (s.x al).toNat < (s.x bh).toNat * 2 ^ s.n + (s.x bl).toNat) ∧
      (u.sr.CF && v.sr.CF) = false)

/-! ## Group II -/

/-- The one-bit shifts and rotates bit by bit: the bit that enters, the bit that leaves in CF, V cleared; SRA halves the signed
value, rounding toward minus infinity (R142, R143, R144, R145, R148; the carry, SRA's rounding and NF are the spec's
reading, log 21, log 27). -/
def Obligations.ShiftsAndRotatesMoveEachBit : Prop :=
  ∀ (s : State) (r d : Reg),
    (∀ p ∈ [(Instr.rlc r d, s.sr.CF), (Instr.shl r d, false)], ∃ t, exec p.1 s = .next t ∧
      (∀ k, k < s.n → (t.x d).getLsbD k = if k = 0 then p.2 else (s.x r).getLsbD (k - 1)) ∧
      changesOnly [d] noByte s.pc (s.sr.withResult (decide (t.x d = 0)) ((t.x d).getLsbD (s.n - 1)) false
        ((s.x r).getLsbD (s.n - 1))) s t) ∧
    (∀ p ∈ [(Instr.rrc r d, s.sr.CF), (Instr.srl r d, false), (Instr.sra r d, (s.x r).getLsbD (s.n - 1))],
      ∃ t, exec p.1 s = .next t ∧
      (∀ k, k < s.n → (t.x d).getLsbD k = if k = s.n - 1 then p.2 else (s.x r).getLsbD (k + 1)) ∧
      changesOnly [d] noByte s.pc (s.sr.withResult (decide (t.x d = 0)) ((t.x d).getLsbD (s.n - 1)) false
        ((s.x r).getLsbD 0)) s t) ∧
    ∀ t, exec (.sra r d) s = .next t → sint s.n (s.x r) = 2 * sint s.n (t.x d) + t.sr.CF.toNat

/-- NOT: the complement of each of the N bits; V and C cleared (R146; NF is the spec's reading, log 21). -/
def Obligations.NotComplementsEachBit : Prop :=
  ∀ (s : State) (r d : Reg),
    (encodeWord (.not r d)).toNat / 0x100 = 0x44 ∧
    ∃ t, exec (.not r d) s = .next t ∧
      (∀ k, (t.x d).getLsbD k = (decide (k < s.n) && !(s.x r).getLsbD k)) ∧
      changesOnly [d] noByte s.pc (s.sr.withResult (decide (t.x d = 0)) ((t.x d).getLsbD (s.n - 1)) false false) s t

/-- SBB subtracts CF; NEG subtracts from 0; CF is the borrow (R147, R149; log 21, log 22). -/
def Obligations.SbbAndNegSubtract : Prop :=
  ∀ (s : State) (r d : Reg),
    (∃ t, exec (.sbb r d) s = .next t ∧
      (t.x d).toNat = ((s.x r).toNat + 2 ^ s.n - s.sr.CF.toNat) % 2 ^ s.n ∧
      changesOnly [d] noByte s.pc (s.sr.withResult (decide (t.x d = 0)) ((t.x d).getLsbD (s.n - 1))
        (decide ((s.x r).toNat = 2 ^ (s.n - 1)) && s.sr.CF) (decide (s.x r = 0) && s.sr.CF)) s t) ∧
    (∃ t, exec (.neg r d) s = .next t ∧
      (t.x d).toNat = (2 ^ s.n - (s.x r).toNat) % 2 ^ s.n ∧
      changesOnly [d] noByte s.pc (s.sr.withResult (decide (s.x r = 0)) ((t.x d).getLsbD (s.n - 1))
        (decide ((s.x r).toNat = 2 ^ (s.n - 1))) (decide (s.x r ≠ 0))) s t)

/-- INP writes the environment's answer, which it takes from the queue if there is one and else is any N-bit value, and sets
Z and N from it (R52, R150; log 9, log 21). -/
def Obligations.InpWritesTheEnvironmentsAnswer : Prop :=
  ∀ (s : State) (r d : Reg), ∃ t, exec (.inp r d) s = .next t ∧
    (∀ v rest, s.portIn = v :: rest → t.x d = narrow s.n v ∧ t.portIn = rest ∧ t.draws = s.draws) ∧
    (s.portIn = [] → t.portIn = []) ∧ t.portOut = s.portOut ∧ t.pc = s.pc ∧ Keeps [d] noByte s t ∧
    t.sr = s.sr.withResult (decide (t.x d = 0)) ((t.x d).getLsbD (s.n - 1)) false false

/-- OUT hands the pair (port number, value) to the environment, after all earlier ones, and writes no register
(R52, R151; the record is log 10; NF is log 21). -/
def Obligations.OutSendsTheValueToThePort : Prop :=
  ∀ (s : State) (r d : Reg), ∃ t, exec (.out r d) s = .next t ∧
    t.portOut = s.portOut ++ [(s.x d, s.x r)] ∧ t.portIn = s.portIn ∧ t.draws = s.draws ∧ t.pc = s.pc ∧
    Keeps [] noByte s t ∧
    t.sr = s.sr.withResult (decide (s.x r = 0)) ((s.x r).getLsbD (s.n - 1)) false false

/-- SWB exchanges the outer bytes, the middle bytes at N = 32 being any value; RLB exchanges the halves at N = 32 and is
reserved at N = 16 (R152, R153; log 8, log 16, log 21, log 28). -/
def Obligations.SwbAndRlbExchangeBytesAndHalves : Prop :=
  ∀ (s : State) (r d : Reg),
    (∃ t, exec (.swb r d) s = .next t ∧
      (match s.params.size with
        | .n16 => (t.x d).toNat = (s.x r).toNat % 2 ^ 8 * 2 ^ 8 + (s.x r).toNat / 2 ^ 8
        | .n32 => ∃ m, m < 2 ^ 16 ∧
          (t.x d).toNat = (s.x r).toNat % 2 ^ 8 * 2 ^ 24 + m * 2 ^ 8 + (s.x r).toNat / 2 ^ 24) ∧
      t.pc = s.pc ∧ Keeps [d] noByte s t ∧ t.portIn = s.portIn ∧ t.portOut = s.portOut ∧
      t.sr = s.sr.withResult (decide (t.x d = 0)) ((t.x d).getLsbD (s.n - 1)) false false) ∧
    (s.params.size = .n16 → exec (.rlb r d) s = .refused .reservedEncoding) ∧
    (s.params.size = .n32 → ∃ t, exec (.rlb r d) s = .next t ∧
      (t.x d).toNat = (s.x r).toNat % 2 ^ 16 * 2 ^ 16 + (s.x r).toNat / 2 ^ 16 ∧
      changesOnly [d] noByte s.pc (s.sr.withResult (decide (t.x d = 0)) ((t.x d).getLsbD 31) false false) s t)

/-- ANI and ADI take the extension word as second operand and leave the PC past it (R154, R156; log 21,
log 25). -/
def Obligations.AniAndAdiUseTheExtensionWord : Prop :=
  ∀ (s : State) (r d : Reg), fetchReady s.params.ieSize s →
    (encodeWord (.ani r d)).toNat / 0x100 = 0x4C ∧ (encodeWord (.adi r d)).toNat / 0x100 = 0x4E ∧
    (∃ t, exec (.ani r d) s = .next t ∧
      (∀ k, (t.x d).getLsbD k = ((s.x r).getLsbD k && s.extensionWord.getLsbD k)) ∧
      changesOnly [d] noByte (narrow s.n (s.pc + BitVec.ofNat 32 s.params.ieSize.bytes))
        (s.sr.withResult (decide (t.x d = 0)) ((t.x d).getLsbD (s.n - 1)) false false) s t) ∧
    (∃ t, exec (.adi r d) s = .next t ∧
      (t.x d).toNat = ((s.x r).toNat + s.extensionWord.toNat) % 2 ^ s.n ∧
      changesOnly [d] noByte (narrow s.n (s.pc + BitVec.ofNat 32 s.params.ieSize.bytes))
        (s.sr.withResult (decide (t.x d = 0)) ((t.x d).getLsbD (s.n - 1))
          (decide (sint s.n (s.x r) + sint s.n s.extensionWord < -2 ^ (s.n - 1) ∨
            2 ^ (s.n - 1) - 1 < sint s.n (s.x r) + sint s.n s.extensionWord))
          (decide (2 ^ s.n ≤ (s.x r).toNat + s.extensionWord.toNat))) s t)

/-- EXT: the low `EXT_SRC_BITS` bits as a signed number, on N bits (R155; the width is a parameter, log 28;
NF is log 21). -/
def Obligations.ExtExtendsTheSign : Prop :=
  ∀ (s : State) (r d : Reg), 1 ≤ s.params.extSrcBits → s.params.extSrcBits ≤ s.n →
    ∃ t, exec (.ext r d) s = .next t ∧
      sint s.n (t.x d) = sint s.params.extSrcBits (s.x r) ∧
      changesOnly [d] noByte s.pc (s.sr.withResult (decide (t.x d = 0)) ((t.x d).getLsbD (s.n - 1)) false false) s t

/-- CMP sets the flags of the difference and writes no register (R157; log 21, log 22). -/
def Obligations.CmpSetsOnlyTheFlags : Prop :=
  ∀ (s : State) (r d : Reg), ∃ t, exec (.cmp r d) s = .next t ∧
    changesOnly [] noByte s.pc
      (s.sr.withResult (decide (s.x r = s.x d))
        (decide (2 ^ (s.n - 1) ≤ ((s.x r).toNat + 2 ^ s.n - (s.x d).toNat) % 2 ^ s.n))
        (decide (sint s.n (s.x r) - sint s.n (s.x d) < -2 ^ (s.n - 1) ∨
          2 ^ (s.n - 1) - 1 < sint s.n (s.x r) - sint s.n (s.x d)))
        (decide ((s.x r).toNat < (s.x d).toNat))) s t

/-- After CMP Rs, Rd the thirteen conditions are the orders of the two values, signed and unsigned, overflow or not
(R201, R203; NF after CMP, the borrow and the exclusive or are the spec's reading, log 21, log 22, log 23). -/
def Obligations.ConditionsAfterCmpAreTheOrders : Prop :=
  ∀ (s t : State) (a b : Reg), exec (.cmp a b) s = .next t →
    Cond.always.holds t.sr = true ∧
    (Cond.eq.holds t.sr = true ↔ s.x a = s.x b) ∧ (Cond.ne.holds t.sr = true ↔ s.x a ≠ s.x b) ∧
    (Cond.ge.holds t.sr = true ↔ sint s.n (s.x b) ≤ sint s.n (s.x a)) ∧
    (Cond.le.holds t.sr = true ↔ sint s.n (s.x a) ≤ sint s.n (s.x b)) ∧
    (Cond.gt.holds t.sr = true ↔ sint s.n (s.x b) < sint s.n (s.x a)) ∧
    (Cond.lw.holds t.sr = true ↔ sint s.n (s.x a) < sint s.n (s.x b)) ∧
    (Cond.ae.holds t.sr = true ↔ (s.x b).toNat ≤ (s.x a).toNat) ∧
    (Cond.be.holds t.sr = true ↔ (s.x a).toNat ≤ (s.x b).toNat) ∧
    (Cond.ab.holds t.sr = true ↔ (s.x b).toNat < (s.x a).toNat) ∧
    (Cond.bl.holds t.sr = true ↔ (s.x a).toNat < (s.x b).toNat) ∧
    (Cond.vs.holds t.sr = true ↔ (sint s.n (s.x a) - sint s.n (s.x b) < -2 ^ (s.n - 1) ∨
      2 ^ (s.n - 1) - 1 < sint s.n (s.x a) - sint s.n (s.x b))) ∧
    (Cond.vc.holds t.sr = !Cond.vs.holds t.sr)

/-! ## Group III -/

/-- Loads of every size in every mode: the datum in the low bits of Ra, the upper bits by `NARROW_REG_WRITE`, the register of
the mode stepped, flags from the datum, memory untouched (R171 to R176; log 21, log 26). -/
def Obligations.LoadsWriteTheRegister : Prop :=
  ∀ (s : State) (z : Size) (a : Reg) (m : Mode) (b : Reg),
    transferExists z s → (m.autoModifies = true → a ≠ b) → operandReady m b z s →
    ∃ t, exec (loadInstr z a m b) s = .next t ∧
      narrowWritten z s (s.x a) (operandValue m b z s) (t.x a) ∧ stepped m b z s t ∧
      changesOnly (a :: modeRegs m b) noByte (nextPc m s)
        (s.sr.withResult (decide (operandValue m b z s = 0)) ((operandValue m b z s).getLsbD (z.bits - 1)) false false)
        s t

/-- Stores of every size in every memory mode: the low bytes of Ra at the effective address, most significant first, no
other byte changed, the register of the mode stepped, flags from the datum (R171 to R173, R177 to R179; log 21, log 26). -/
def Obligations.StoresWriteMemory : Prop :=
  ∀ (s : State) (z : Size) (a : Reg) (m : Mode) (b : Reg) (ea : Word),
    transferExists z s → (m.autoModifies = true → a ≠ b) → m ≠ .immediate → m ≠ .register → operandReady m b z s →
    effectiveAddress m b z s = some ea →
    ∃ t, exec (storeInstr z a m b) s = .next t ∧
      holdsWord t ea z.bytes (s.x a) ∧ stepped m b z s t ∧
      changesOnly (modeRegs m b) (inBytes s ea z.bytes) (nextPc m s)
        (s.sr.withResult (decide (narrow z.bits (s.x a) = 0)) ((s.x a).getLsbD (z.bits - 1)) false false) s t

/-- A store in register mode writes Rb as a load would, and no memory (R103, R173, R180; log 21, log 26). -/
def Obligations.StoreInRegisterModeWritesTheRegister : Prop :=
  ∀ (s : State) (z : Size) (a b : Reg), transferExists z s →
    ∃ t, exec (storeInstr z a .register b) s = .next t ∧
      narrowWritten z s (s.x b) (narrow z.bits (s.x a)) (t.x b) ∧
      changesOnly [b] noByte s.pc
        (s.sr.withResult (decide (narrow z.bits (s.x a) = 0)) ((s.x a).getLsbD (z.bits - 1)) false false) s t

/-- Loads and stores stop on a 2- or 4-byte operand at an odd address, and on a pointer at an odd address
(R59, R174, R177; log 17). -/
def Obligations.TransfersStopOnOddAddresses : Prop :=
  ∀ (s : State) (z : Size) (a : Reg) (m : Mode) (b : Reg) (ea : Word),
    transferExists z s → (m.autoModifies = true → a ≠ b) → m ≠ .immediate →
    (m.hasExtension = true → fetchReady s.params.ieSize s) →
    (pointerMisaligned m b s = true ∨ (effectiveAddress m b z s = some ea ∧ misaligned z ea = true)) →
    exec (loadInstr z a m b) s = .fault .misalignedAccess ∧ exec (storeInstr z a m b) s = .fault .misalignedAccess

/-- The operand forms without a meaning, the instructions that do not exist at N = 16, and a division by zero or with one
register for both results stop by name; so does, at N = 32 with an extension word of 2 bytes, an immediate operand of 4 bytes
(R103, R104, R106, R124, R180, R229; log 16, log 18, log 19, log 20). -/
def Obligations.RefusedOperandFormsStopByName : Prop :=
  ∀ (s : State) (z : Size) (a b : Reg) (m : Mode),
    (s.params.size = .n16 → exec (.ldl a m b) s = .refused .reservedEncoding ∧
      exec (.stl a m b) s = .refused .reservedEncoding ∧ exec (.rlb a b) s = .refused .reservedEncoding) ∧
    (transferExists z s → exec (storeInstr z a .immediate b) s = .refused .writeToImmediate) ∧
    (transferExists z s → m.autoModifies = true →
      exec (loadInstr z a m a) s = .refused .sameRegisterAutomodify ∧
      exec (storeInstr z a m a) s = .refused .sameRegisterAutomodify) ∧
    (∀ i ∈ [Instr.tsr .immediate b, Instr.msr .immediate b, Instr.mpc .immediate b],
      exec i s = .refused .writeToImmediate) ∧
    (∀ i ∈ [Instr.jea .register b, Instr.jsr .register b], exec i s = .refused .noEffectiveAddress) ∧
    (∀ i ∈ [Instr.jea .immediate b, Instr.jsr .immediate b], exec i s = .refused .jumpToImmediate) ∧
    (∀ d, s.x b = 0 → exec (.div a b d) s = .fault .divisionByZero) ∧
    (s.x b ≠ 0 → exec (.div a b a) s = .refused .divQuotientAndRemainderSameRegister) ∧
    (s.params.size = .n32 → s.params.ieSize32 = .two → fetchReady .two s →
      ∀ i ∈ [Instr.ldl a .immediate b, Instr.jpa .immediate b, Instr.tst .immediate b, Instr.trp .immediate b],
        exec i s = .refused .immediateTooNarrow)

/-! ## Branches -/

/-- The thirteen branches with a mode operand: the displacement is evaluated whether or not the condition holds, and is added
to the address of the next instruction when it does; no flag changes; a pointer or a displacement in memory at an odd address
stops, and so does an immediate wider than the extension word, where the launch refuses it (R59, R103, R200, R204 to R216;
log 17, log 20, log 23, log 25). -/
def Obligations.ModeBranchesAddTheDisplacement : Prop :=
  ∀ (s : State) (m : Mode) (r : Reg) (p : Instr × Bool),
    p ∈ [(.jmp m r, true), (.jeq m r, s.sr.ZF), (.jne m r, !s.sr.ZF), (.jge m r, s.sr.NF == s.sr.VF),
      (.jle m r, s.sr.NF != s.sr.VF || s.sr.ZF), (.jgt m r, s.sr.NF == s.sr.VF && !s.sr.ZF),
      (.jlw m r, s.sr.NF != s.sr.VF), (.jae m r, !s.sr.CF), (.jbe m r, s.sr.CF || s.sr.ZF),
      (.jab m r, !s.sr.CF && !s.sr.ZF), (.jbl m r, s.sr.CF), (.jvs m r, s.sr.VF), (.jvc m r, !s.sr.VF)] →
    (displacementReady m r s → ∃ t, exec p.1 s = .next t ∧ stepped m r s.T s t ∧
        changesOnly (modeRegs m r) noByte
          (if p.2 then narrow s.n (nextPc m s + displacement m r s) else nextPc m s) s.sr s t) ∧
    (operandUnaligned m r s.T s → exec p.1 s = .fault .misalignedAccess) ∧
    (m = .immediate → s.params.branchImmediate = .refuse → s.params.ieSize.bytes < s.T.bytes →
      fetchReady s.params.ieSize s → exec p.1 s = .refused .immediateTooNarrow)

/-- The thirteen short branches: the sign-extended ValueCode is added to the address of the next instruction when the
condition holds; nothing else changes (R270 to R283; log 23, log 40). -/
def Obligations.ShortBranchesAddTheValueCode : Prop :=
  ∀ (s : State) (v : BitVec 8) (p : Instr × Bool),
    p ∈ [(.jqmp v, true), (.jqeq v, s.sr.ZF), (.jqne v, !s.sr.ZF), (.jqge v, s.sr.NF == s.sr.VF),
      (.jqle v, s.sr.NF != s.sr.VF || s.sr.ZF), (.jqgt v, s.sr.NF == s.sr.VF && !s.sr.ZF),
      (.jqlw v, s.sr.NF != s.sr.VF), (.jqae v, !s.sr.CF), (.jqbe v, s.sr.CF || s.sr.ZF),
      (.jqab v, !s.sr.CF && !s.sr.ZF), (.jqbl v, s.sr.CF), (.jqvs v, s.sr.VF), (.jqvc v, !s.sr.VF)] →
    ∃ t, exec p.1 s = .next t ∧
      (p.2 = true → (t.pc.toNat : Int) = ((s.pc.toNat : Int) + v.toInt) % 2 ^ s.n) ∧ (p.2 = false → t.pc = s.pc) ∧
      changesOnly [] noByte t.pc s.sr s t

/-! ## The one-operand group -/

/-- JPA: the PC takes the operand's value; no flag changes; a pointer or an operand at an odd address stops (R59, R221; the
stop is log 17, the place of its words is the spec's choice, log 24). -/
def Obligations.JpaJumpsToTheOperandsValue : Prop :=
  ∀ (s : State) (m : Mode) (r : Reg),
    (encodeWord (.jpa m r)).toNat / 0x80 = 0x10 ∧
    (operandReady m r s.T s → ∃ t, exec (.jpa m r) s = .next t ∧ stepped m r s.T s t ∧
      changesOnly (modeRegs m r) noByte (operandValue m r s.T s) s.sr s t) ∧
    (operandUnaligned m r s.T s → exec (.jpa m r) s = .fault .misalignedAccess)

/-- JEA: the PC takes the operand's address, even or odd, and memory at it is not read; a pointer at an odd address stops
(R59, R222; log 17, log 19). -/
def Obligations.JeaJumpsToTheOperandsAddress : Prop :=
  ∀ (s : State) (m : Mode) (r : Reg),
    (∀ ea, m ≠ .immediate → m ≠ .register → addressReady m r s → effectiveAddress m r s.T s = some ea →
      ∃ t, exec (.jea m r) s = .next t ∧ stepped m r s.T s t ∧ changesOnly (modeRegs m r) noByte ea s.sr s t) ∧
    (pointerUnaligned m r s → exec (.jea m r) s = .fault .misalignedAccess)

/-- JSR: the address of the next instruction is pushed, after the operand has been evaluated, and the PC takes the operand's
address; a pointer at an odd address stops (R59, R223; log 17, log 19; the address pushed is log 25). -/
def Obligations.JsrPushesTheReturnAddress : Prop :=
  ∀ (s : State) (m : Mode) (r : Reg),
    (∀ ea, m ≠ .immediate → m ≠ .register → addressReady m r s → effectiveAddress m r s.T s = some ea →
      ((afterOperand m r s.T s).x SP).getLsbD 0 = false →
      ∃ t, exec (.jsr m r) s = .next t ∧
        t.x SP = narrow s.n ((afterOperand m r s.T s).x SP - BitVec.ofNat 32 s.T.bytes) ∧
        holdsWord t (t.x SP) s.T.bytes (nextPc m s) ∧ (r ≠ SP → stepped m r s.T s t) ∧
        changesOnly (SP :: modeRegs m r) (inBytes s (t.x SP) s.T.bytes) ea s.sr s t) ∧
    (pointerUnaligned m r s → exec (.jsr m r) s = .fault .misalignedAccess)

/-- RTS after JSR comes back to the instruction after the JSR with R15 as the operand left it
(R13, R223, R243; the return address is log 25). -/
def Obligations.RtsReturnsFromJsr : Prop :=
  ∀ (s t : State) (m : Mode) (r : Reg), exec (.jsr m r) s = .next t →
    ∃ u, exec .rts t = .next u ∧ u.pc = narrow s.n (nextPc m s) ∧ u.sr = s.sr ∧
      ∀ q, u.x q = (afterOperand m r s.T s).x q

/-- TRP: once its operand is evaluated, the exception of that number is entered with the address of the next instruction; a
pointer or an operand at an odd address stops (R59, R224, R304, R306; log 17, log 30; the return address is log 25). -/
def Obligations.TrpEntersTheTrap : Prop :=
  ∀ (s : State) (m : Mode) (r : Reg),
    (operandReady m r s.T s → ((afterOperand m r s.T s).x SP).getLsbD 0 = false →
      ∃ u t, u = afterOperand m r s.T s ∧ stepped m r s.T s u ∧
        changesOnly (modeRegs m r) noByte (nextPc m s) s.sr s u ∧
        exec (.trp m r) s = .next t ∧ Entered (operandValue m r s.T s).toNat (nextPc m s) u t) ∧
    (operandUnaligned m r s.T s → exec (.trp m r) s = .fault .misalignedAccess)

/-- TST: Z and N from the operand, V and C cleared, nothing else but the step of modes 011 and 100; a pointer or an operand at
an odd address stops (R59, R225; the stop is log 17, the place of its words is the spec's choice, log 24). -/
def Obligations.TstTestsTheOperand : Prop :=
  ∀ (s : State) (m : Mode) (r : Reg),
    (encodeWord (.tst m r)).toNat / 0x80 = 0x14 ∧
    (operandReady m r s.T s → ∃ t, exec (.tst m r) s = .next t ∧ stepped m r s.T s t ∧
      changesOnly (modeRegs m r) noByte (nextPc m s)
        (s.sr.withResult (decide (operandValue m r s.T s = 0)) ((operandValue m r s.T s).getLsbD (s.n - 1)) false false)
        s t) ∧
    (operandUnaligned m r s.T s → exec (.tst m r) s = .fault .misalignedAccess)

/-- TSR, MSR and MPC with an operand in memory: TSR tests the old value and leaves 0, MSR stores the SR word, MPC the address
of the next instruction; a pointer or an operand at an odd address stops (R59, R226, R227, R228; log 2, log 17, log 32; the
value of MPC is log 25). -/
def Obligations.TsrMsrMpcWriteMemory : Prop :=
  ∀ (s : State) (m : Mode) (r : Reg) (p : Instr × Word × Flags),
    p ∈ [(.tsr m r, 0, s.sr.withResult (decide (operandValue m r s.T s = 0))
        ((operandValue m r s.T s).getLsbD (s.n - 1)) false false),
      (.msr m r, s.srWord, s.sr), (.mpc m r, nextPc m s, s.sr)] →
    (∀ ea, m ≠ .immediate → m ≠ .register → operandReady m r s.T s → effectiveAddress m r s.T s = some ea →
      ∃ t, exec p.1 s = .next t ∧ holdsWord t ea s.T.bytes p.2.1 ∧ stepped m r s.T s t ∧
        changesOnly (modeRegs m r) (inBytes s ea s.T.bytes) (nextPc m s) p.2.2 s t) ∧
    (operandUnaligned m r s.T s → exec p.1 s = .fault .misalignedAccess)

/-- TSR, MSR and MPC with a register operand write the register and no memory (R226, R227, R228; log 2). -/
def Obligations.TsrMsrMpcWriteTheRegister : Prop :=
  ∀ (s : State) (r : Reg) (p : Instr × Word × Flags),
    p ∈ [(.tsr .register r, 0, s.sr.withResult (decide (s.x r = 0)) ((s.x r).getLsbD (s.n - 1)) false false),
      (.msr .register r, s.srWord, s.sr), (.mpc .register r, s.pc, s.sr)] →
    ∃ t, exec p.1 s = .next t ∧ t.x r = narrow s.n p.2.1 ∧ changesOnly [r] noByte s.pc p.2.2 s t

/-! ## The no-operand group and exceptions -/

/-- NOP has no action; CLC clears and STC sets CF; nothing else changes (R241, R245, R246; the place of their words is the
spec's choice, log 24). -/
def Obligations.NopClcAndStcChangeOnlyTheCarry : Prop :=
  ∀ (s : State) (p : Instr × InstrWord × Flags),
    p ∈ [(.nop, 0x0C00, s.sr), (.clc, 0x0C04, { s.sr with CF := false }), (.stc, 0x0C05, { s.sr with CF := true })] →
    encodeWord p.1 = p.2.1 ∧ ∃ t, exec p.1 s = .next t ∧ changesOnly [] noByte s.pc p.2.2 s t

/-- HLT sets WF, DSI clears and ENI sets IF, and nothing else changes (R242, R247, R248). -/
def Obligations.HltDsiAndEniSetTheirFlag : Prop :=
  ∀ (s : State) (p : Instr × Flags),
    p ∈ [(.hlt, { s.sr with WF := true }), (.dsi, { s.sr with IF := false }), (.eni, { s.sr with IF := true })] →
    ∃ t, exec p.1 s = .next t ∧ changesOnly [] noByte s.pc p.2 s t

/-- RTS: the PC takes the word at R15 and R15 moves up by T; no flag changes; R15 odd stops (R59, R243; the stop is log 17,
the place of its word is the spec's choice, log 24). -/
def Obligations.RtsPopsThePc : Prop :=
  ∀ s : State, encodeWord .rts = 0x0C02 ∧
    ((s.x SP).getLsbD 0 = true → exec .rts s = .fault .misalignedAccess) ∧
    ((s.x SP).getLsbD 0 = false → ∃ t, exec .rts s = .next t ∧
      holdsWord s (s.x SP) s.T.bytes t.pc ∧ t.pc.toNat < 2 ^ s.n ∧
      t.x SP = narrow s.n (s.x SP + BitVec.ofNat 32 s.T.bytes) ∧ changesOnly [SP] noByte t.pc s.sr s t)

/-- RTI: the PC takes the word at R15, the six flags their bits of the next word, and R15 moves up by 2T
(R36, R244, R315; log 2). -/
def Obligations.RtiPopsThePcAndTheFlags : Prop :=
  ∀ s : State, (s.x SP).getLsbD 0 = false →
    ∃ t w, exec .rti s = .next t ∧ holdsWord s (s.x SP) s.T.bytes t.pc ∧ t.pc.toNat < 2 ^ s.n ∧
      holdsWord s (narrow s.n (s.x SP + BitVec.ofNat 32 s.T.bytes)) s.T.bytes w ∧
      t.sr.WF = w.getLsbD s.params.srLayout.WF ∧ t.sr.IF = w.getLsbD s.params.srLayout.IF ∧
      t.sr.ZF = w.getLsbD s.params.srLayout.ZF ∧ t.sr.VF = w.getLsbD s.params.srLayout.VF ∧
      t.sr.CF = w.getLsbD s.params.srLayout.CF ∧ t.sr.NF = w.getLsbD s.params.srLayout.NF ∧
      t.x SP = narrow s.n (s.x SP + BitVec.ofNat 32 (2 * s.T.bytes)) ∧ changesOnly [SP] noByte t.pc t.sr s t

/-- RTI undoes the entry of an exception: right after an entry with the return address `ret`, RTI gives back the flags and
every register, R15 included, and goes to `ret` (R304, R315; log 2, log 30). -/
def Obligations.RtiUndoesTheEntry : Prop :=
  ∀ (s t : State) (num : Nat) (ret : Word), s.params.srLayout.distinct → s.enter num ret = .next t →
    ∃ u, exec .rti t = .next u ∧ u.sr = s.sr ∧ u.pc = narrow s.n ret ∧ (∀ q, u.x q = s.x q) ∧
      ∀ a, ¬ inBytes s (t.x SP) (2 * s.T.bytes) a → u.byteAt a = s.byteAt a

/-- With R15 odd, everything that pushes or pops stops: the helpers, RTS and RTI, JSR and TRP in every mode once the operand is
evaluated, and the acceptance of an interrupt (R59, R223, R224, R243, R244, R305; log 17). -/
def Obligations.OddStackPointerStops : Prop :=
  ∀ s : State,
    ((s.x SP).getLsbD 0 = true → (∀ v, s.push v = .fault .misalignedAccess) ∧ s.pop = .fault .misalignedAccess ∧
      exec .rts s = .fault .misalignedAccess ∧ exec .rti s = .fault .misalignedAccess) ∧
    (∀ (m : Mode) (r : Reg), ((afterOperand m r s.T s).x SP).getLsbD 0 = true →
      (m ≠ .immediate → m ≠ .register → addressReady m r s → exec (.jsr m r) s = .fault .misalignedAccess) ∧
      (operandReady m r s.T s → exec (.trp m r) s = .fault .misalignedAccess)) ∧
    (s.boundary.noReset → s.boundary.sr.IF = true → s.boundary.pending ≠ [] →
      (s.boundary.x SP).getLsbD 0 = true → step s = .fault .misalignedAccess)

/-! ## The quick group -/

/-- LDQ: the sign-extended ValueCode, with the flags of a load (R261; the place of its words is the spec's choice, log 24). -/
def Obligations.LdqLoadsTheSignedValue : Prop :=
  ∀ (s : State) (v : BitVec 8) (r : Reg),
    (encodeWord (.ldq v r)).toNat / 0x1000 = 0x2 ∧
    ∃ t, exec (.ldq v r) s = .next t ∧ ((t.x r).toNat : Int) = v.toInt % 2 ^ s.n ∧
      changesOnly [r] noByte s.pc (s.sr.withResult (decide (v = 0)) (v.getLsbD 7) false false) s t

/-- ADQ: the sign-extended ValueCode is added, as an N-bit pattern, with the four flags of an addition (R262; the place of its
words is the spec's choice, log 24). -/
def Obligations.AdqAddsTheSignedValue : Prop :=
  ∀ (s : State) (v : BitVec 8) (r : Reg),
    (encodeWord (.adq v r)).toNat / 0x1000 = 0x3 ∧
    ∃ t, exec (.adq v r) s = .next t ∧
      ((t.x r).toNat : Int) = (((s.x r).toNat : Int) + v.toInt) % 2 ^ s.n ∧
      changesOnly [r] noByte s.pc
        (s.sr.withResult (decide (t.x r = 0)) ((t.x r).getLsbD (s.n - 1))
          (decide (sint s.n (s.x r) + v.toInt < -2 ^ (s.n - 1) ∨ 2 ^ (s.n - 1) - 1 < sint s.n (s.x r) + v.toInt))
          (decide (2 ^ s.n ≤ ((s.x r).toNat : Int) + v.toInt % 2 ^ s.n))) s t
end

