-- ==== Sys2Proof/Laws/Bits.lean ====
section
/-! SUPPORT. N-bit values in the container: truncation, sign and extension as arithmetic. -/

namespace Sys2Proof.Machine

@[simp] theorem narrow_toNat (n : Nat) (v : Word) : (narrow n v).toNat = v.toNat % 2 ^ n := by
  have h : v.toNat % 2 ^ n ≤ v.toNat := Nat.mod_le _ _
  have := v.isLt
  simp only [narrow, BitVec.toNat_ofNat]
  exact Nat.mod_eq_of_lt (by omega)

theorem narrow_lt (n : Nat) (v : Word) : (narrow n v).toNat < 2 ^ n := by
  simpa using Nat.mod_lt v.toNat (Nat.two_pow_pos n)

@[simp] theorem narrow_narrow (n : Nat) (v : Word) : narrow n (narrow n v) = narrow n v := by
  apply BitVec.eq_of_toNat_eq; simp

/-- A value of n bits is its own truncation. -/
theorem narrow_of_lt {n : Nat} {v : Word} (h : v.toNat < 2 ^ n) : narrow n v = v := by
  apply BitVec.eq_of_toNat_eq; simpa using Nat.mod_eq_of_lt h

@[simp] theorem narrow_32 (v : Word) : narrow 32 v = v := narrow_of_lt v.isLt

@[simp] theorem narrow_getLsbD (n : Nat) (v : Word) (i : Nat) :
    (narrow n v).getLsbD i = (decide (i < n) && v.getLsbD i) := by
  simp [BitVec.getLsbD, Nat.testBit_mod_two_pow]

theorem narrow_zero (n : Nat) : narrow n 0 = 0 := by
  apply BitVec.eq_of_toNat_eq; simp

/-- Addition before truncation may itself be truncated. -/
theorem narrow_add_narrow {n : Nat} (h : n ≤ 32) (a b : Word) :
    narrow n (narrow n a + narrow n b) = narrow n (a + b) := by
  apply BitVec.eq_of_toNat_eq
  have hd : 2 ^ n ∣ 2 ^ 32 := Nat.pow_dvd_pow 2 h
  simp only [narrow_toNat, BitVec.toNat_add, Nat.mod_mod_of_dvd _ hd, Nat.add_mod, Nat.mod_mod]

@[simp] theorem wordSize_bits_n16 : WordSize.n16.bits = 16 := rfl
@[simp] theorem wordSize_bits_n32 : WordSize.n32.bits = 32 := rfl

/-- N is 16 or 32 (R2). -/
theorem State.n_cases (s : State) :
    (s.params.size = .n16 ∧ s.n = 16 ∧ s.T = .two) ∨ (s.params.size = .n32 ∧ s.n = 32 ∧ s.T = .four) := by
  cases h : s.params.size <;> simp [State.n, State.T, h, WordSize.bits, WordSize.bytes]

theorem State.n_le (s : State) : s.n ≤ 32 := by
  rcases s.n_cases with ⟨_, h, _⟩ | ⟨_, h, _⟩ <;> omega

theorem State.n_pos (s : State) : 0 < s.n := by
  rcases s.n_cases with ⟨_, h, _⟩ | ⟨_, h, _⟩ <;> omega

/-- The sign bit is the top half of the n-bit values. -/
theorem signBit_eq {n : Nat} (h : 0 < n) (v : Word) :
    signBit n v = decide (2 ^ (n - 1) ≤ v.toNat % 2 ^ n) := by
  obtain ⟨k, rfl⟩ : ∃ k, n = k + 1 := ⟨n - 1, by omega⟩
  have h1 := Nat.mod_lt v.toNat (Nat.two_pow_pos (k + 1))
  have h2 : v.toNat % 2 ^ (k + 1) = v.toNat % 2 ^ k + 2 ^ k * (v.toNat / 2 ^ k % 2) := by
    rw [Nat.pow_succ, Nat.mod_mul]
  have h3 := Nat.mod_lt v.toNat (Nat.two_pow_pos k)
  simp only [signBit, Nat.add_sub_cancel, BitVec.getLsbD, Nat.testBit_eq_decide_div_mod_eq, h2]
  rcases Nat.mod_two_eq_zero_or_one (v.toNat / 2 ^ k) with e | e <;> simp [e] <;> omega

/-- `sint` in arithmetic: the low n bits, less 2^n when they are in the top half (R4). -/
theorem sint_eq {n : Nat} (h : 0 < n) (v : Word) :
    sint n v = if v.toNat % 2 ^ n < 2 ^ (n - 1) then ((v.toNat % 2 ^ n : Nat) : Int)
      else ((v.toNat % 2 ^ n : Nat) : Int) - 2 ^ n := by
  unfold sint
  rw [signBit_eq h, narrow_toNat]
  by_cases hc : v.toNat % 2 ^ n < 2 ^ (n - 1)
  · rw [if_pos hc, if_neg (by simpa using hc)]; simp
  · rw [if_neg hc, if_pos (by simpa using hc)]

/-- A signed n-bit value lies in `[-2^(n-1), 2^(n-1) - 1]`. -/
theorem sint_bounds {n : Nat} (h : 0 < n) (v : Word) :
    -2 ^ (n - 1) ≤ sint n v ∧ sint n v ≤ 2 ^ (n - 1) - 1 := by
  obtain ⟨k, rfl⟩ : ∃ k, n = k + 1 := ⟨n - 1, by omega⟩
  rw [sint_eq h]
  have h1 := Nat.mod_lt v.toNat (Nat.two_pow_pos (k + 1))
  simp only [Nat.add_sub_cancel]
  have hp : (2 : Int) ^ (k + 1) = 2 ^ k + 2 ^ k := by rw [pow_succ]; omega
  have hq : (2 : Nat) ^ (k + 1) = 2 ^ k + 2 ^ k := by rw [pow_succ]; omega
  have hc : ((2 ^ k : Nat) : Int) = 2 ^ k := by push_cast; rfl
  split <;> omega

@[simp] theorem wordOfInt_toNat {n : Nat} (h : n ≤ 32) (i : Int) :
    (wordOfInt n i).toNat = (i % 2 ^ n).toNat := by
  have hp : (0 : Int) < 2 ^ n := by positivity
  have h1 := Int.emod_lt_of_pos i hp
  have h0 := Int.emod_nonneg i (ne_of_gt hp)
  have h2 : (2 : Nat) ^ n ≤ 2 ^ 32 := Nat.pow_le_pow_right (by omega) h
  have hc : ((2 ^ n : Nat) : Int) = 2 ^ n := by push_cast; rfl
  simp only [wordOfInt, BitVec.toNat_ofNat]
  exact Nat.mod_eq_of_lt (by omega)

theorem narrow_wordOfInt {n : Nat} (h : n ≤ 32) (i : Int) : narrow n (wordOfInt n i) = wordOfInt n i := by
  apply narrow_of_lt
  have hp : (0 : Int) < 2 ^ n := by positivity
  have h1 := Int.emod_lt_of_pos i hp
  have h0 := Int.emod_nonneg i (ne_of_gt hp)
  have hc : ((2 ^ n : Nat) : Int) = 2 ^ n := by push_cast; rfl
  rw [wordOfInt_toNat h]
  omega

end Sys2Proof.Machine
end

