-- ==== Sys2Proof/Laws/State.lean ====
section
/-! SUPPORT. The fields of the state after each update: one lemma per field per update, so that no proof unfolds a record
update. -/

namespace Sys2Proof.Machine

variable (s : State)

/-! ## `setX` -/

@[simp] theorem setX_params (r : Reg) (v : Word) : (s.setX r v).params = s.params := rfl
@[simp] theorem setX_regs (r : Reg) (v : Word) : (s.setX r v).regs = s.regs.set r (narrow s.n v) := rfl
@[simp] theorem setX_pc (r : Reg) (v : Word) : (s.setX r v).pc = s.pc := rfl
@[simp] theorem setX_sr (r : Reg) (v : Word) : (s.setX r v).sr = s.sr := rfl
@[simp] theorem setX_mem (r : Reg) (v : Word) : (s.setX r v).mem = s.mem := rfl
@[simp] theorem setX_written (r : Reg) (v : Word) : (s.setX r v).written = s.written := rfl
@[simp] theorem setX_pending (r : Reg) (v : Word) : (s.setX r v).pending = s.pending := rfl
@[simp] theorem setX_rstLow (r : Reg) (v : Word) : (s.setX r v).rstLow = s.rstLow := rfl
@[simp] theorem setX_inError (r : Reg) (v : Word) : (s.setX r v).inError = s.inError := rfl
@[simp] theorem setX_schedule (r : Reg) (v : Word) : (s.setX r v).schedule = s.schedule := rfl
@[simp] theorem setX_portIn (r : Reg) (v : Word) : (s.setX r v).portIn = s.portIn := rfl
@[simp] theorem setX_portOut (r : Reg) (v : Word) : (s.setX r v).portOut = s.portOut := rfl
@[simp] theorem setX_draws (r : Reg) (v : Word) : (s.setX r v).draws = s.draws := rfl
@[simp] theorem setX_n (r : Reg) (v : Word) : (s.setX r v).n = s.n := rfl
@[simp] theorem setX_T (r : Reg) (v : Word) : (s.setX r v).T = s.T := rfl
@[simp] theorem setX_byteAt (r : Reg) (v : Word) (k : Nat) : (s.setX r v).byteAt k = s.byteAt k := rfl
@[simp] theorem setX_addrAt (r : Reg) (v : Word) (w : Word) (k : Nat) : (s.setX r v).addrAt w k = s.addrAt w k := rfl

/-! ## `setPc` -/

@[simp] theorem setPc_params (v : Word) : (s.setPc v).params = s.params := rfl
@[simp] theorem setPc_regs (v : Word) : (s.setPc v).regs = s.regs := rfl
@[simp] theorem setPc_pc (v : Word) : (s.setPc v).pc = narrow s.n v := rfl
@[simp] theorem setPc_sr (v : Word) : (s.setPc v).sr = s.sr := rfl
@[simp] theorem setPc_mem (v : Word) : (s.setPc v).mem = s.mem := rfl
@[simp] theorem setPc_written (v : Word) : (s.setPc v).written = s.written := rfl
@[simp] theorem setPc_pending (v : Word) : (s.setPc v).pending = s.pending := rfl
@[simp] theorem setPc_rstLow (v : Word) : (s.setPc v).rstLow = s.rstLow := rfl
@[simp] theorem setPc_inError (v : Word) : (s.setPc v).inError = s.inError := rfl
@[simp] theorem setPc_schedule (v : Word) : (s.setPc v).schedule = s.schedule := rfl
@[simp] theorem setPc_portIn (v : Word) : (s.setPc v).portIn = s.portIn := rfl
@[simp] theorem setPc_portOut (v : Word) : (s.setPc v).portOut = s.portOut := rfl
@[simp] theorem setPc_draws (v : Word) : (s.setPc v).draws = s.draws := rfl
@[simp] theorem setPc_n (v : Word) : (s.setPc v).n = s.n := rfl
@[simp] theorem setPc_T (v : Word) : (s.setPc v).T = s.T := rfl
@[simp] theorem setPc_x (v : Word) (q : Reg) : (s.setPc v).x q = s.x q := rfl
@[simp] theorem setPc_byteAt (v : Word) (k : Nat) : (s.setPc v).byteAt k = s.byteAt k := rfl
@[simp] theorem setPc_addrAt (v : Word) (w : Word) (k : Nat) : (s.setPc v).addrAt w k = s.addrAt w k := rfl

/-! ## `setSr` -/

@[simp] theorem setSr_params (f : Flags) : (s.setSr f).params = s.params := rfl
@[simp] theorem setSr_regs (f : Flags) : (s.setSr f).regs = s.regs := rfl
@[simp] theorem setSr_pc (f : Flags) : (s.setSr f).pc = s.pc := rfl
@[simp] theorem setSr_sr (f : Flags) : (s.setSr f).sr = f := rfl
@[simp] theorem setSr_mem (f : Flags) : (s.setSr f).mem = s.mem := rfl
@[simp] theorem setSr_written (f : Flags) : (s.setSr f).written = s.written := rfl
@[simp] theorem setSr_pending (f : Flags) : (s.setSr f).pending = s.pending := rfl
@[simp] theorem setSr_rstLow (f : Flags) : (s.setSr f).rstLow = s.rstLow := rfl
@[simp] theorem setSr_inError (f : Flags) : (s.setSr f).inError = s.inError := rfl
@[simp] theorem setSr_schedule (f : Flags) : (s.setSr f).schedule = s.schedule := rfl
@[simp] theorem setSr_portIn (f : Flags) : (s.setSr f).portIn = s.portIn := rfl
@[simp] theorem setSr_portOut (f : Flags) : (s.setSr f).portOut = s.portOut := rfl
@[simp] theorem setSr_draws (f : Flags) : (s.setSr f).draws = s.draws := rfl
@[simp] theorem setSr_n (f : Flags) : (s.setSr f).n = s.n := rfl
@[simp] theorem setSr_T (f : Flags) : (s.setSr f).T = s.T := rfl
@[simp] theorem setSr_x (f : Flags) (q : Reg) : (s.setSr f).x q = s.x q := rfl
@[simp] theorem setSr_byteAt (f : Flags) (k : Nat) : (s.setSr f).byteAt k = s.byteAt k := rfl
@[simp] theorem setSr_addrAt (f : Flags) (w : Word) (k : Nat) : (s.setSr f).addrAt w k = s.addrAt w k := rfl

/-! ## `setResult` -/

@[simp] theorem setResult_params (v : Word) (vf cf : Bool) : (s.setResult v vf cf).params = s.params := rfl
@[simp] theorem setResult_regs (v : Word) (vf cf : Bool) : (s.setResult v vf cf).regs = s.regs := rfl
@[simp] theorem setResult_pc (v : Word) (vf cf : Bool) : (s.setResult v vf cf).pc = s.pc := rfl
@[simp] theorem setResult_sr (v : Word) (vf cf : Bool) : (s.setResult v vf cf).sr = s.sr.result s.n v vf cf := rfl
@[simp] theorem setResult_mem (v : Word) (vf cf : Bool) : (s.setResult v vf cf).mem = s.mem := rfl
@[simp] theorem setResult_written (v : Word) (vf cf : Bool) : (s.setResult v vf cf).written = s.written := rfl
@[simp] theorem setResult_pending (v : Word) (vf cf : Bool) : (s.setResult v vf cf).pending = s.pending := rfl
@[simp] theorem setResult_rstLow (v : Word) (vf cf : Bool) : (s.setResult v vf cf).rstLow = s.rstLow := rfl
@[simp] theorem setResult_inError (v : Word) (vf cf : Bool) : (s.setResult v vf cf).inError = s.inError := rfl
@[simp] theorem setResult_schedule (v : Word) (vf cf : Bool) : (s.setResult v vf cf).schedule = s.schedule := rfl
@[simp] theorem setResult_portIn (v : Word) (vf cf : Bool) : (s.setResult v vf cf).portIn = s.portIn := rfl
@[simp] theorem setResult_portOut (v : Word) (vf cf : Bool) : (s.setResult v vf cf).portOut = s.portOut := rfl
@[simp] theorem setResult_draws (v : Word) (vf cf : Bool) : (s.setResult v vf cf).draws = s.draws := rfl
@[simp] theorem setResult_n (v : Word) (vf cf : Bool) : (s.setResult v vf cf).n = s.n := rfl
@[simp] theorem setResult_T (v : Word) (vf cf : Bool) : (s.setResult v vf cf).T = s.T := rfl
@[simp] theorem setResult_x (v : Word) (vf cf : Bool) (q : Reg) : (s.setResult v vf cf).x q = s.x q := rfl
@[simp] theorem setResult_byteAt (v : Word) (vf cf : Bool) (k : Nat) : (s.setResult v vf cf).byteAt k = s.byteAt k := rfl
@[simp] theorem setResult_addrAt (v : Word) (vf cf : Bool) (w : Word) (k : Nat) : (s.setResult v vf cf).addrAt w k = s.addrAt w k := rfl

/-! ## `drawn` -/

@[simp] theorem drawn_params : (s.drawn).params = s.params := rfl
@[simp] theorem drawn_regs : (s.drawn).regs = s.regs := rfl
@[simp] theorem drawn_pc : (s.drawn).pc = s.pc := rfl
@[simp] theorem drawn_sr : (s.drawn).sr = s.sr := rfl
@[simp] theorem drawn_mem : (s.drawn).mem = s.mem := rfl
@[simp] theorem drawn_written : (s.drawn).written = s.written := rfl
@[simp] theorem drawn_pending : (s.drawn).pending = s.pending := rfl
@[simp] theorem drawn_rstLow : (s.drawn).rstLow = s.rstLow := rfl
@[simp] theorem drawn_inError : (s.drawn).inError = s.inError := rfl
@[simp] theorem drawn_schedule : (s.drawn).schedule = s.schedule := rfl
@[simp] theorem drawn_portIn : (s.drawn).portIn = s.portIn := rfl
@[simp] theorem drawn_portOut : (s.drawn).portOut = s.portOut := rfl
@[simp] theorem drawn_draws : (s.drawn).draws = s.draws + 1 := rfl
@[simp] theorem drawn_n : (s.drawn).n = s.n := rfl
@[simp] theorem drawn_T : (s.drawn).T = s.T := rfl
@[simp] theorem drawn_x (q : Reg) : (s.drawn).x q = s.x q := rfl
@[simp] theorem drawn_byteAt (k : Nat) : (s.drawn).byteAt k = s.byteAt k := rfl
@[simp] theorem drawn_addrAt (w : Word) (k : Nat) : (s.drawn).addrAt w k = s.addrAt w k := rfl

/-! ## `setInError` and `passError` -/

@[simp] theorem setInError_params : s.setInError.params = s.params := rfl
@[simp] theorem setInError_regs : s.setInError.regs = s.regs := rfl
@[simp] theorem setInError_pc : s.setInError.pc = s.pc := rfl
@[simp] theorem setInError_sr : s.setInError.sr = s.sr := rfl
@[simp] theorem setInError_mem : s.setInError.mem = s.mem := rfl
@[simp] theorem setInError_written : s.setInError.written = s.written := rfl
@[simp] theorem setInError_pending : s.setInError.pending = s.pending := rfl
@[simp] theorem setInError_rstLow : s.setInError.rstLow = s.rstLow := rfl
@[simp] theorem setInError_schedule : s.setInError.schedule = s.schedule := rfl
@[simp] theorem setInError_portIn : s.setInError.portIn = s.portIn := rfl
@[simp] theorem setInError_portOut : s.setInError.portOut = s.portOut := rfl
@[simp] theorem setInError_draws : s.setInError.draws = s.draws := rfl
@[simp] theorem setInError_n : s.setInError.n = s.n := rfl
@[simp] theorem setInError_T : s.setInError.T = s.T := rfl
@[simp] theorem setInError_inError : s.setInError.inError = true := rfl
@[simp] theorem setInError_x (q : Reg) : s.setInError.x q = s.x q := rfl
@[simp] theorem setInError_byteAt (k : Nat) : s.setInError.byteAt k = s.byteAt k := rfl
@[simp] theorem setInError_addrAt (w : Word) (k : Nat) : s.setInError.addrAt w k = s.addrAt w k := rfl

/-- While no Error handler runs, no choice is drawn. -/
theorem passError_of_not_inError (h : s.inError = false) : s.passError = s := by simp [State.passError, h]

/-- Only the counter of draws is touched. -/
theorem passError_eq : s.passError = { s with draws := s.passError.draws } := by
  unfold State.passError State.drawn; split <;> rfl

@[simp] theorem passError_params : s.passError.params = s.params := by rw [passError_eq]
@[simp] theorem passError_regs : s.passError.regs = s.regs := by rw [passError_eq]
@[simp] theorem passError_pc : s.passError.pc = s.pc := by rw [passError_eq]
@[simp] theorem passError_sr : s.passError.sr = s.sr := by rw [passError_eq]
@[simp] theorem passError_mem : s.passError.mem = s.mem := by rw [passError_eq]
@[simp] theorem passError_written : s.passError.written = s.written := by rw [passError_eq]
@[simp] theorem passError_pending : s.passError.pending = s.pending := by rw [passError_eq]
@[simp] theorem passError_rstLow : s.passError.rstLow = s.rstLow := by rw [passError_eq]
@[simp] theorem passError_inError : s.passError.inError = s.inError := by rw [passError_eq]
@[simp] theorem passError_schedule : s.passError.schedule = s.schedule := by rw [passError_eq]
@[simp] theorem passError_portIn : s.passError.portIn = s.portIn := by rw [passError_eq]
@[simp] theorem passError_portOut : s.passError.portOut = s.portOut := by rw [passError_eq]
@[simp] theorem passError_n : s.passError.n = s.n := by rw [passError_eq]; rfl
@[simp] theorem passError_T : s.passError.T = s.T := by rw [passError_eq]; rfl
@[simp] theorem passError_x (q : Reg) : s.passError.x q = s.x q := by rw [passError_eq]; rfl
@[simp] theorem passError_byteAt (k : Nat) : s.passError.byteAt k = s.byteAt k := by rw [passError_eq]; rfl
@[simp] theorem passError_addrAt (w : Word) (k : Nat) : s.passError.addrAt w k = s.addrAt w k := by rw [passError_eq]; rfl

/-! ## `storeByte` -/

@[simp] theorem storeByte_params (a : Nat) (v : Byte) : (s.storeByte a v).params = s.params := rfl
@[simp] theorem storeByte_regs (a : Nat) (v : Byte) : (s.storeByte a v).regs = s.regs := rfl
@[simp] theorem storeByte_pc (a : Nat) (v : Byte) : (s.storeByte a v).pc = s.pc := rfl
@[simp] theorem storeByte_sr (a : Nat) (v : Byte) : (s.storeByte a v).sr = s.sr := rfl
@[simp] theorem storeByte_mem (a : Nat) (v : Byte) : (s.storeByte a v).mem = Memory.write s.mem a v := rfl
@[simp] theorem storeByte_written (a : Nat) (v : Byte) : (s.storeByte a v).written = insertAsc a s.written := rfl
@[simp] theorem storeByte_pending (a : Nat) (v : Byte) : (s.storeByte a v).pending = s.pending := rfl
@[simp] theorem storeByte_rstLow (a : Nat) (v : Byte) : (s.storeByte a v).rstLow = s.rstLow := rfl
@[simp] theorem storeByte_inError (a : Nat) (v : Byte) : (s.storeByte a v).inError = s.inError := rfl
@[simp] theorem storeByte_schedule (a : Nat) (v : Byte) : (s.storeByte a v).schedule = s.schedule := rfl
@[simp] theorem storeByte_portIn (a : Nat) (v : Byte) : (s.storeByte a v).portIn = s.portIn := rfl
@[simp] theorem storeByte_portOut (a : Nat) (v : Byte) : (s.storeByte a v).portOut = s.portOut := rfl
@[simp] theorem storeByte_draws (a : Nat) (v : Byte) : (s.storeByte a v).draws = s.draws := rfl
@[simp] theorem storeByte_n (a : Nat) (v : Byte) : (s.storeByte a v).n = s.n := rfl
@[simp] theorem storeByte_T (a : Nat) (v : Byte) : (s.storeByte a v).T = s.T := rfl
@[simp] theorem storeByte_x (a : Nat) (v : Byte) (q : Reg) : (s.storeByte a v).x q = s.x q := rfl
@[simp] theorem storeByte_addrAt (a : Nat) (v : Byte) (w : Word) (k : Nat) : (s.storeByte a v).addrAt w k = s.addrAt w k := rfl

/-! ## `ioWrite` -/

@[simp] theorem ioWrite_params (p v : Word) : (s.ioWrite p v).params = s.params := rfl
@[simp] theorem ioWrite_regs (p v : Word) : (s.ioWrite p v).regs = s.regs := rfl
@[simp] theorem ioWrite_pc (p v : Word) : (s.ioWrite p v).pc = s.pc := rfl
@[simp] theorem ioWrite_sr (p v : Word) : (s.ioWrite p v).sr = s.sr := rfl
@[simp] theorem ioWrite_mem (p v : Word) : (s.ioWrite p v).mem = s.mem := rfl
@[simp] theorem ioWrite_written (p v : Word) : (s.ioWrite p v).written = s.written := rfl
@[simp] theorem ioWrite_pending (p v : Word) : (s.ioWrite p v).pending = s.pending := rfl
@[simp] theorem ioWrite_rstLow (p v : Word) : (s.ioWrite p v).rstLow = s.rstLow := rfl
@[simp] theorem ioWrite_inError (p v : Word) : (s.ioWrite p v).inError = s.inError := rfl
@[simp] theorem ioWrite_schedule (p v : Word) : (s.ioWrite p v).schedule = s.schedule := rfl
@[simp] theorem ioWrite_portIn (p v : Word) : (s.ioWrite p v).portIn = s.portIn := rfl
@[simp] theorem ioWrite_portOut (p v : Word) : (s.ioWrite p v).portOut = s.portOut ++ [(p, v)] := rfl
@[simp] theorem ioWrite_draws (p v : Word) : (s.ioWrite p v).draws = s.draws := rfl
@[simp] theorem ioWrite_n (p v : Word) : (s.ioWrite p v).n = s.n := rfl
@[simp] theorem ioWrite_T (p v : Word) : (s.ioWrite p v).T = s.T := rfl
@[simp] theorem ioWrite_x (p v : Word) (q : Reg) : (s.ioWrite p v).x q = s.x q := rfl
@[simp] theorem ioWrite_byteAt (p v : Word) (k : Nat) : (s.ioWrite p v).byteAt k = s.byteAt k := rfl
@[simp] theorem ioWrite_addrAt (p v : Word) (w : Word) (k : Nat) : (s.ioWrite p v).addrAt w k = s.addrAt w k := rfl

/-! ## `inhibit` -/

@[simp] theorem inhibit_params : (s.inhibit).params = s.params := rfl
@[simp] theorem inhibit_regs : (s.inhibit).regs = s.regs := rfl
@[simp] theorem inhibit_pc : (s.inhibit).pc = s.pc := rfl
@[simp] theorem inhibit_sr : (s.inhibit).sr = { s.sr with IF := false } := rfl
@[simp] theorem inhibit_mem : (s.inhibit).mem = s.mem := rfl
@[simp] theorem inhibit_written : (s.inhibit).written = s.written := rfl
@[simp] theorem inhibit_pending : (s.inhibit).pending = s.pending := rfl
@[simp] theorem inhibit_rstLow : (s.inhibit).rstLow = s.rstLow := rfl
@[simp] theorem inhibit_inError : (s.inhibit).inError = s.inError := rfl
@[simp] theorem inhibit_schedule : (s.inhibit).schedule = s.schedule := rfl
@[simp] theorem inhibit_portIn : (s.inhibit).portIn = s.portIn := rfl
@[simp] theorem inhibit_portOut : (s.inhibit).portOut = s.portOut := rfl
@[simp] theorem inhibit_draws : (s.inhibit).draws = s.draws := rfl
@[simp] theorem inhibit_n : (s.inhibit).n = s.n := rfl
@[simp] theorem inhibit_T : (s.inhibit).T = s.T := rfl
@[simp] theorem inhibit_x (q : Reg) : (s.inhibit).x q = s.x q := rfl
@[simp] theorem inhibit_byteAt (k : Nat) : (s.inhibit).byteAt k = s.byteAt k := rfl
@[simp] theorem inhibit_addrAt (w : Word) (k : Nat) : (s.inhibit).addrAt w k = s.addrAt w k := rfl

/-! ## `acknowledge` -/

@[simp] theorem acknowledge_params (i : Nat) : (s.acknowledge i).params = s.params := rfl
@[simp] theorem acknowledge_regs (i : Nat) : (s.acknowledge i).regs = s.regs := rfl
@[simp] theorem acknowledge_pc (i : Nat) : (s.acknowledge i).pc = s.pc := rfl
@[simp] theorem acknowledge_sr (i : Nat) : (s.acknowledge i).sr = { s.sr with WF := false } := rfl
@[simp] theorem acknowledge_mem (i : Nat) : (s.acknowledge i).mem = s.mem := rfl
@[simp] theorem acknowledge_written (i : Nat) : (s.acknowledge i).written = s.written := rfl
@[simp] theorem acknowledge_pending (i : Nat) : (s.acknowledge i).pending = s.pending.filter (· != i) := rfl
@[simp] theorem acknowledge_rstLow (i : Nat) : (s.acknowledge i).rstLow = s.rstLow := rfl
@[simp] theorem acknowledge_inError (i : Nat) : (s.acknowledge i).inError = s.inError := rfl
@[simp] theorem acknowledge_schedule (i : Nat) : (s.acknowledge i).schedule = s.schedule := rfl
@[simp] theorem acknowledge_portIn (i : Nat) : (s.acknowledge i).portIn = s.portIn := rfl
@[simp] theorem acknowledge_portOut (i : Nat) : (s.acknowledge i).portOut = s.portOut := rfl
@[simp] theorem acknowledge_draws (i : Nat) : (s.acknowledge i).draws = s.draws + 1 := rfl
@[simp] theorem acknowledge_n (i : Nat) : (s.acknowledge i).n = s.n := rfl
@[simp] theorem acknowledge_T (i : Nat) : (s.acknowledge i).T = s.T := rfl
@[simp] theorem acknowledge_x (i : Nat) (q : Reg) : (s.acknowledge i).x q = s.x q := rfl
@[simp] theorem acknowledge_byteAt (i : Nat) (k : Nat) : (s.acknowledge i).byteAt k = s.byteAt k := rfl
@[simp] theorem acknowledge_addrAt (i : Nat) (w : Word) (k : Nat) : (s.acknowledge i).addrAt w k = s.addrAt w k := rfl

/-! ## `transferFlags` -/

@[simp] theorem transferFlags_params (z : Size) (v : Word) : (s.transferFlags z v).params = s.params := rfl
@[simp] theorem transferFlags_regs (z : Size) (v : Word) : (s.transferFlags z v).regs = s.regs := rfl
@[simp] theorem transferFlags_pc (z : Size) (v : Word) : (s.transferFlags z v).pc = s.pc := rfl
@[simp] theorem transferFlags_sr (z : Size) (v : Word) : (s.transferFlags z v).sr = s.sr.result z.bits v false false := rfl
@[simp] theorem transferFlags_mem (z : Size) (v : Word) : (s.transferFlags z v).mem = s.mem := rfl
@[simp] theorem transferFlags_written (z : Size) (v : Word) : (s.transferFlags z v).written = s.written := rfl
@[simp] theorem transferFlags_pending (z : Size) (v : Word) : (s.transferFlags z v).pending = s.pending := rfl
@[simp] theorem transferFlags_rstLow (z : Size) (v : Word) : (s.transferFlags z v).rstLow = s.rstLow := rfl
@[simp] theorem transferFlags_inError (z : Size) (v : Word) : (s.transferFlags z v).inError = s.inError := rfl
@[simp] theorem transferFlags_schedule (z : Size) (v : Word) : (s.transferFlags z v).schedule = s.schedule := rfl
@[simp] theorem transferFlags_portIn (z : Size) (v : Word) : (s.transferFlags z v).portIn = s.portIn := rfl
@[simp] theorem transferFlags_portOut (z : Size) (v : Word) : (s.transferFlags z v).portOut = s.portOut := rfl
@[simp] theorem transferFlags_draws (z : Size) (v : Word) : (s.transferFlags z v).draws = s.draws := rfl
@[simp] theorem transferFlags_n (z : Size) (v : Word) : (s.transferFlags z v).n = s.n := rfl
@[simp] theorem transferFlags_T (z : Size) (v : Word) : (s.transferFlags z v).T = s.T := rfl
@[simp] theorem transferFlags_x (z : Size) (v : Word) (q : Reg) : (s.transferFlags z v).x q = s.x q := rfl
@[simp] theorem transferFlags_byteAt (z : Size) (v : Word) (k : Nat) : (s.transferFlags z v).byteAt k = s.byteAt k := rfl
@[simp] theorem transferFlags_addrAt (z : Size) (v : Word) (w : Word) (k : Nat) : (s.transferFlags z v).addrAt w k = s.addrAt w k := rfl

/-! ## `testFlags` -/

@[simp] theorem testFlags_params (v : Word) : (s.testFlags v).params = s.params := rfl
@[simp] theorem testFlags_regs (v : Word) : (s.testFlags v).regs = s.regs := rfl
@[simp] theorem testFlags_pc (v : Word) : (s.testFlags v).pc = s.pc := rfl
@[simp] theorem testFlags_sr (v : Word) : (s.testFlags v).sr = s.sr.result s.n v false false := rfl
@[simp] theorem testFlags_mem (v : Word) : (s.testFlags v).mem = s.mem := rfl
@[simp] theorem testFlags_written (v : Word) : (s.testFlags v).written = s.written := rfl
@[simp] theorem testFlags_pending (v : Word) : (s.testFlags v).pending = s.pending := rfl
@[simp] theorem testFlags_rstLow (v : Word) : (s.testFlags v).rstLow = s.rstLow := rfl
@[simp] theorem testFlags_inError (v : Word) : (s.testFlags v).inError = s.inError := rfl
@[simp] theorem testFlags_schedule (v : Word) : (s.testFlags v).schedule = s.schedule := rfl
@[simp] theorem testFlags_portIn (v : Word) : (s.testFlags v).portIn = s.portIn := rfl
@[simp] theorem testFlags_portOut (v : Word) : (s.testFlags v).portOut = s.portOut := rfl
@[simp] theorem testFlags_draws (v : Word) : (s.testFlags v).draws = s.draws := rfl
@[simp] theorem testFlags_n (v : Word) : (s.testFlags v).n = s.n := rfl
@[simp] theorem testFlags_T (v : Word) : (s.testFlags v).T = s.T := rfl
@[simp] theorem testFlags_x (v : Word) (q : Reg) : (s.testFlags v).x q = s.x q := rfl
@[simp] theorem testFlags_byteAt (v : Word) (k : Nat) : (s.testFlags v).byteAt k = s.byteAt k := rfl
@[simp] theorem testFlags_addrAt (v : Word) (w : Word) (k : Nat) : (s.testFlags v).addrAt w k = s.addrAt w k := rfl

/-! ## Registers -/

@[simp] theorem setX_x (r : Reg) (v : Word) (q : Reg) :
    (s.setX r v).x q = if q = r then narrow s.n v else s.x q := by
  by_cases h : q = r
  · subst h; simp [State.x]
  · have : (r : Nat) ≠ q := fun e => h (Fin.ext e.symm)
    simp [State.x, h, this]

/-! ## The bytes at an address -/

/-- Two states with the same memory and word size read the same bytes. -/
theorem bytesAt_congr {s t : State} (hn : t.n = s.n) (hb : ∀ k, t.byteAt k = s.byteAt k) (a : Word) (k : Nat) :
    t.bytesAt a k = s.bytesAt a k := by
  induction k with
  | zero => rfl
  | succ k ih => simp [State.bytesAt, ih, State.addrAt, hn, hb]

end Sys2Proof.Machine
end

