-- ==== Sys2Proof/Laws/Memory.lean ====
section
/-! SUPPORT. Memory: read after write, and the canonical form (R57, R58). -/

namespace Sys2Proof.Machine

theorem Memory.read_filter_same (m : List Host.Cell) (a : Nat) :
    Memory.read (m.filter (·.1 != a)) a = Config.unlistedByte := by
  induction m with
  | nil => rfl
  | cons c m ih =>
    by_cases h : c.1 = a <;> simp [Memory.read, h, ih]

theorem Memory.read_filter_other (m : List Host.Cell) {a b : Nat} (h : b ≠ a) :
    Memory.read (m.filter (·.1 != a)) b = Memory.read m b := by
  induction m with
  | nil => rfl
  | cons c m ih =>
    by_cases hc : c.1 = a
    · have : c.1 ≠ b := fun e => h (e ▸ hc)
      simp [Memory.read, hc, ih, Ne.symm h]
    · simp [Memory.read, hc, ih]

theorem Memory.read_insert (m : List Host.Cell) (a : Nat) (v : Byte) (b : Nat) :
    Memory.read (Memory.insert m a v) b = if b = a then v else Memory.read m b := by
  induction m with
  | nil => simp [Memory.insert, Memory.read, eq_comm]
  | cons c m ih =>
    simp only [Memory.insert]
    split_ifs <;> simp_all [Memory.read] <;> grind

/-- What a read of any address gives after a write of one byte. -/
@[simp] theorem Memory.read_write (m : List Host.Cell) (a : Nat) (v : Byte) (b : Nat) :
    Memory.read (Memory.write m a v) b = if b = a then v else Memory.read m b := by
  unfold Memory.write
  split
  · by_cases h : b = a
    · subst h; simp_all [Memory.read_filter_same]
    · simp [h, Memory.read_filter_other]
  · exact Memory.read_insert m a v b

theorem Memory.mem_insert {m : List Host.Cell} {a : Nat} {v : Byte} {c : Host.Cell}
    (h : c ∈ Memory.insert m a v) : c = (a, v) ∨ c ∈ m := by
  induction m with
  | nil => simpa [Memory.insert] using h
  | cons d m ih =>
    simp only [Memory.insert] at h
    split at h
    · simpa using h
    · split at h
      · rcases List.mem_cons.1 h with h | h <;> simp [h]
      · rcases List.mem_cons.1 h with h | h
        · simp [h]
        · rcases ih h with h | h <;> simp [h]

/-- A written memory lists nothing new but the cell written. -/
theorem Memory.mem_write {m : List Host.Cell} {a : Nat} {v : Byte} {c : Host.Cell}
    (h : c ∈ Memory.write m a v) : c = (a, v) ∧ v ≠ Config.unlistedByte ∨ c ∈ m := by
  unfold Memory.write at h
  split at h
  · exact .inr (List.mem_of_mem_filter h)
  · next hv => exact (Memory.mem_insert h).imp (⟨·, hv⟩) id

theorem Memory.insert_pairwise {m : List Host.Cell} (a : Nat) (v : Byte)
    (h : m.Pairwise (fun c d => c.1 < d.1)) : (Memory.insert m a v).Pairwise (fun c d => c.1 < d.1) := by
  induction m with
  | nil => simp [Memory.insert]
  | cons c m ih =>
    have ⟨hc, hm⟩ := List.pairwise_cons.1 h
    simp only [Memory.insert]
    split
    · next hlt =>
      refine List.pairwise_cons.2 ⟨fun d hd => ?_, h⟩
      rcases List.mem_cons.1 hd with rfl | hd
      · exact hlt
      · exact Nat.lt_trans hlt (hc d hd)
    · split
      · next heq => exact List.pairwise_cons.2 ⟨fun d hd => heq ▸ hc d hd, hm⟩
      · refine List.pairwise_cons.2 ⟨fun d hd => ?_, ih hm⟩
        rcases Memory.mem_insert hd with rfl | hd
        · show c.1 < a; omega
        · exact hc d hd

/-- Every write keeps the canonical form. -/
theorem Memory.write_wf {m : List Host.Cell} (a : Nat) (v : Byte) (h : Memory.wf m) : Memory.wf (Memory.write m a v) := by
  refine ⟨?_, fun c hc => ?_⟩
  · unfold Memory.write
    split
    · exact h.1.filter _
    · exact Memory.insert_pairwise a v h.1
  · rcases Memory.mem_write hc with ⟨rfl, hv⟩ | hc
    · exact hv
    · exact h.2 c hc

theorem reset_memory_wf : Memory.wf State.reset.mem := by decide

theorem mem_insertAsc {k j : Nat} {l : List Nat} : j ∈ insertAsc k l ↔ j = k ∨ j ∈ l := by
  induction l with
  | nil => simp [insertAsc]
  | cons i l ih =>
    simp only [insertAsc]
    split_ifs <;> simp_all; tauto

theorem insertAsc_pairwise {k : Nat} {l : List Nat} (h : l.Pairwise (· < ·)) :
    (insertAsc k l).Pairwise (· < ·) := by
  induction l with
  | nil => simp [insertAsc]
  | cons i l ih =>
    have ⟨hi, hl⟩ := List.pairwise_cons.1 h
    simp only [insertAsc]
    split
    · next hlt =>
      refine List.pairwise_cons.2 ⟨fun d hd => ?_, h⟩
      rcases List.mem_cons.1 hd with rfl | hd
      · exact hlt
      · exact Nat.lt_trans hlt (hi d hd)
    · split
      · exact h
      · refine List.pairwise_cons.2 ⟨fun d hd => ?_, ih hl⟩
        rcases mem_insertAsc.1 hd with rfl | hd
        · omega
        · exact hi d hd

/-! ## Bytes and groups of bytes in a state -/

@[simp] theorem storeByte_byteAt (s : State) (a : Nat) (v : Byte) (b : Nat) :
    (s.storeByte a v).byteAt b = if b = a then v else s.byteAt b := Memory.read_write s.mem a v b

/-- What a write of k bytes leaves alone. -/
theorem storeBytes_fields (s : State) (a v : Word) (k : Nat) :
    let t := s.storeBytes a v k
    t.params = s.params ∧ t.regs = s.regs ∧ t.pc = s.pc ∧ t.sr = s.sr ∧ t.pending = s.pending ∧ t.rstLow = s.rstLow ∧
      t.schedule = s.schedule ∧ t.portIn = s.portIn ∧ t.portOut = s.portOut ∧ t.draws = s.draws ∧ t.inError = s.inError := by
  induction k generalizing v with
  | zero => simp [State.storeBytes]
  | succ k ih => simpa [State.storeBytes] using ih (v >>> 8)

section
variable (s : State) (a v : Word) (k : Nat)
@[simp] theorem storeBytes_params : (s.storeBytes a v k).params = s.params := (storeBytes_fields s a v k).1
@[simp] theorem storeBytes_regs : (s.storeBytes a v k).regs = s.regs := (storeBytes_fields s a v k).2.1
@[simp] theorem storeBytes_pc : (s.storeBytes a v k).pc = s.pc := (storeBytes_fields s a v k).2.2.1
@[simp] theorem storeBytes_sr : (s.storeBytes a v k).sr = s.sr := (storeBytes_fields s a v k).2.2.2.1
@[simp] theorem storeBytes_pending : (s.storeBytes a v k).pending = s.pending := (storeBytes_fields s a v k).2.2.2.2.1
@[simp] theorem storeBytes_rstLow : (s.storeBytes a v k).rstLow = s.rstLow := (storeBytes_fields s a v k).2.2.2.2.2.1
@[simp] theorem storeBytes_schedule : (s.storeBytes a v k).schedule = s.schedule :=
  (storeBytes_fields s a v k).2.2.2.2.2.2.1
@[simp] theorem storeBytes_portIn : (s.storeBytes a v k).portIn = s.portIn :=
  (storeBytes_fields s a v k).2.2.2.2.2.2.2.1
@[simp] theorem storeBytes_portOut : (s.storeBytes a v k).portOut = s.portOut :=
  (storeBytes_fields s a v k).2.2.2.2.2.2.2.2.1
@[simp] theorem storeBytes_draws : (s.storeBytes a v k).draws = s.draws :=
  (storeBytes_fields s a v k).2.2.2.2.2.2.2.2.2.1
@[simp] theorem storeBytes_inError : (s.storeBytes a v k).inError = s.inError :=
  (storeBytes_fields s a v k).2.2.2.2.2.2.2.2.2.2
@[simp] theorem storeBytes_n : (s.storeBytes a v k).n = s.n := by simp [State.n]
@[simp] theorem storeBytes_T : (s.storeBytes a v k).T = s.T := by simp [State.T]
@[simp] theorem storeBytes_x (q : Reg) : (s.storeBytes a v k).x q = s.x q := by simp [State.x]
@[simp] theorem storeBytes_addrAt (w : Word) (j : Nat) : (s.storeBytes a v k).addrAt w j = s.addrAt w j := by
  simp [State.addrAt]
end

/-- A byte outside the k bytes written reads as before. -/
theorem storeBytes_byteAt_other {s : State} {a v : Word} {k b : Nat} (h : ∀ j, j < k → b ≠ s.addrAt a j) :
    (s.storeBytes a v k).byteAt b = s.byteAt b := by
  induction k generalizing v with
  | zero => rfl
  | succ k ih =>
    have hb : b ≠ s.addrAt a k := h k (by omega)
    simp [State.storeBytes, hb, ih fun j hj => h j (by omega)]

/-- The written addresses after a write of k bytes (R69). -/
theorem mem_storeBytes_written {s : State} {a v : Word} {k b : Nat} :
    b ∈ (s.storeBytes a v k).written ↔ b ∈ s.written ∨ ∃ j, j < k ∧ b = s.addrAt a j := by
  induction k generalizing v with
  | zero => simp [State.storeBytes]
  | succ k ih =>
    simp only [State.storeBytes, storeByte_written, mem_insertAsc, ih]
    constructor
    · rintro (h | h | ⟨j, hj, h⟩)
      · exact .inr ⟨k, by omega, h⟩
      · exact .inl h
      · exact .inr ⟨j, by omega, h⟩
    · rintro (h | ⟨j, hj, h⟩)
      · exact .inr (.inl h)
      · by_cases e : j = k
        · exact .inl (e ▸ h)
        · exact .inr (.inr ⟨j, by omega, h⟩)

/-- A word of up to four bytes stands at distinct addresses. -/
theorem addrAt_inj (s : State) (a : Word) {i j : Nat} (hi : i < 4) (hj : j < 4) (h : s.addrAt a i = s.addrAt a j) :
    i = j := by
  unfold State.addrAt at h
  rcases s.n_cases with ⟨_, hn, _⟩ | ⟨_, hn, _⟩ <;> rw [hn] at h <;> omega

/-- Byte j of the k bytes written is byte `k - 1 - j` of the value, counted from the least significant (R57). -/
theorem storeBytes_byteAt {s : State} {a v : Word} {k j : Nat} (hk : k ≤ 4) (hj : j < k) :
    (s.storeBytes a v k).byteAt (s.addrAt a j) = (v >>> (8 * (k - 1 - j))).setWidth 8 := by
  induction k generalizing v with
  | zero => omega
  | succ k ih =>
    simp only [State.storeBytes, storeByte_byteAt]
    by_cases e : j = k
    · subst e; simp
    · have hne : s.addrAt a j ≠ s.addrAt a k := fun h => e (addrAt_inj s a (by omega) (by omega) h)
      rw [if_neg (by simpa using hne), ih (by omega) (by omega), ← BitVec.shiftRight_add]
      congr 2
      omega

end Sys2Proof.Machine
end

