-- ==== Sys2Proof/Laws/Ops.lean ====
section
/-! SUPPORT. One lemma for each shared operation that says once everything it can do: it answers a next value exactly
when its conditions hold, and which value. Proofs cite these instead of unfolding the operation. -/

namespace Sys2Proof.Machine

@[simp] theorem andThen_next {α β : Type} (a : α) (f : α → Result β) : andThen (.next a) f = f a := rfl
@[simp] theorem andThen_fault {α β : Type} (r : Fault) (f : α → Result β) : andThen (.fault r) f = .fault r := rfl
@[simp] theorem andThen_refused {α β : Type} (r : Refusal) (f : α → Result β) :
    andThen (.refused r) f = .refused r := rfl

theorem andThen_eq_next {α β : Type} {o : Result α} {f : α → Result β} {b : β} :
    andThen o f = .next b ↔ ∃ a, o = .next a ∧ f a = .next b := by
  cases o <;> simp

theorem ite_fault_eq_next {α : Type} {c : Prop} [Decidable c] {r : Fault} {o : Result α} {b : α} :
    (if c then .fault r else o) = .next b ↔ ¬ c ∧ o = .next b := by
  split <;> simp_all

theorem ite_refused_eq_next {α : Type} {c : Prop} [Decidable c] {r : Refusal} {o : Result α} {b : α} :
    (if c then .refused r else o) = .next b ↔ ¬ c ∧ o = .next b := by
  split <;> simp_all

/-- An equation between next values, turned round: the unknown comes first. -/
theorem next_eq_next {α : Type} {a b : α} : (.next a : Result α) = .next b ↔ b = a := by
  rw [Host.Outcome.next.injEq, eq_comm]

/-! ## Memory and fetch -/

theorem memRead_eq_next {s : State} {a : Word} {z : Size} {v : Word} :
    s.memRead a z = .next v ↔ misaligned z a = false ∧ v = s.bytesAt a z.bytes := by
  simp only [State.memRead, ite_fault_eq_next, next_eq_next, Bool.not_eq_true]

theorem memWrite_eq_next {s t : State} {a v : Word} {z : Size} :
    s.memWrite a z v = .next t ↔ misaligned z a = false ∧ t = s.storeBytes a v z.bytes := by
  simp only [State.memWrite, ite_fault_eq_next, next_eq_next, Bool.not_eq_true]

theorem fetch_eq_next {s : State} {z : Size} {p : Word × State} :
    s.fetch z = .next p ↔
      fetchReady z s ∧ p = (s.bytesAt s.pc z.bytes, s.setPc (s.pc + BitVec.ofNat 32 z.bytes)) := by
  simp only [State.fetch, ite_fault_eq_next, ite_refused_eq_next, next_eq_next, fetchReady, Bool.not_eq_true, and_assoc]

theorem fetchIE_eq_next {s t : State} :
    fetchIE s = .next t ↔
      fetchReady s.params.ieSize s ∧ t = s.setPc (s.pc + BitVec.ofNat 32 s.params.ieSize.bytes) := by
  simp [fetchIE, andThen_eq_next, fetch_eq_next, next_eq_next, -Host.Outcome.next.injEq, and_assoc]

theorem fetchInstr_eq_next {s : State} {i : Instr} {t : State} :
    fetchInstr s = .next (i, t) ↔
      fetchReady .two s ∧ decodeWord ((s.bytesAt s.pc 2).setWidth 16) = .ok i ∧ t = s.setPc (s.pc + 2) := by
  simp only [fetchInstr, andThen_eq_next, fetch_eq_next]
  constructor
  · rintro ⟨p, ⟨hr, rfl⟩, h⟩
    simp only [Size.bytes] at h
    split at h <;> simp_all
  · rintro ⟨hr, hd, rfl⟩
    exact ⟨_, ⟨hr, rfl⟩, by simp [Size.bytes, hd]⟩

/-! ## Operands -/

theorem afterOperand_mem (mode : Mode) (r : Reg) (z : Size) (s : State) :
    (afterOperand mode r z s).params = s.params ∧ (afterOperand mode r z s).mem = s.mem ∧
      (afterOperand mode r z s).sr = s.sr := by
  unfold afterOperand stepRegister
  cases mode <;> simp [Mode.hasExtension]

/-- Evaluating an operand: it completes exactly when the operand is ready, with the location and the address the table of
modes gives (R94 to R102). -/
theorem evalMode_eq_next {mode : Mode} {r : Reg} {z : Size} {s : State} {o : Operand} :
    evalMode mode r z s = .next o ↔
      addressReady mode r s ∧
        o = ⟨location mode r z s, effectiveAddress mode r z s, afterOperand mode r z s⟩ := by
  unfold evalMode addressReady afterOperand
  cases h : mode.hasExtension <;>
    simp [andThen_eq_next, ite_fault_eq_next, fetchIE_eq_next, next_eq_next, -Host.Outcome.next.injEq, and_assoc]

theorem readLoc_eq_next {l : Loc} {z : Size} {s : State} {v : Word} :
    readLoc l z s = .next v ↔ locReady l z s ∧ v = locValue l z s := by
  cases l <;>
    simp [readLoc, locReady, locValue, ite_refused_eq_next, memRead_eq_next, next_eq_next, -Host.Outcome.next.injEq]

/-- A write to a location (R103). -/
theorem writeLoc_eq_next {l : Loc} {z : Size} {d : Word} {s t : State} :
    writeLoc l z d s = .next t ↔
      (∃ r, l = .reg r ∧ t = regWrite r z d s) ∨
        ∃ a, l = .mem a ∧ misaligned z a = false ∧ t = s.storeBytes a d z.bytes := by
  cases l <;> simp [writeLoc, memWrite_eq_next, next_eq_next, -Host.Outcome.next.injEq]

/-- An operand whose pointer stands at an odd address cannot be evaluated (R59, R102). -/
theorem evalMode_of_pointerUnaligned {mode : Mode} {r : Reg} {z : Size} {s : State} (h : pointerUnaligned mode r s) :
    evalMode mode r z s = .fault .misalignedAccess := by
  unfold evalMode
  split
  · rw [fetchIE_eq_next.2 ⟨h.1 ‹_›, rfl⟩, andThen_next, if_pos h.2]
  · rw [andThen_next, if_pos h.2]

/-- An operand at an odd address is neither read nor written (R59). -/
theorem readLoc_writeLoc_of_misaligned {a : Word} {z : Size} (h : misaligned z a = true) (s : State) (d : Word) :
    readLoc (.mem a) z s = .fault .misalignedAccess ∧ writeLoc (.mem a) z d s = .fault .misalignedAccess := by
  simp [readLoc, writeLoc, State.memRead, State.memWrite, h]

/-- A write of a datum to a register is a write of some N-bit value to that register (R103). -/
theorem regWrite_eq_setX (r : Reg) (z : Size) (d : Word) (s : State) : ∃ w, regWrite r z d s = s.setX r w := by
  unfold regWrite
  split
  · exact ⟨_, rfl⟩
  · split <;> exact ⟨_, rfl⟩

/-- An operand of a CPU word, as a whole register, is written as it is. -/
@[simp] theorem regWrite_word (r : Reg) (d : Word) (s : State) : regWrite r s.T d s = s.setX r d := by
  unfold regWrite
  rcases s.n_cases with ⟨_, hn, hT⟩ | ⟨_, hn, hT⟩ <;> simp [hn, hT, Size.bits, Size.bytes]

theorem readOperand_eq_next {mode : Mode} {r : Reg} {s : State} {p : Word × Operand} :
    readOperand mode r s = .next p ↔
      addressReady mode r s ∧ locReady (location mode r s.T s) s.T (afterOperand mode r s.T s) ∧
        p = (locValue (location mode r s.T s) s.T (afterOperand mode r s.T s),
          ⟨location mode r s.T s, effectiveAddress mode r s.T s, afterOperand mode r s.T s⟩) := by
  unfold readOperand
  constructor
  · intro h
    obtain ⟨o, ho, h⟩ := andThen_eq_next.1 h
    obtain ⟨v, hv, h⟩ := andThen_eq_next.1 h
    obtain ⟨ha, rfl⟩ := evalMode_eq_next.1 ho
    obtain ⟨hl, rfl⟩ := readLoc_eq_next.1 hv
    exact ⟨ha, hl, by simpa using h.symm⟩
  · rintro ⟨ha, hl, rfl⟩
    rw [evalMode_eq_next.2 ⟨ha, rfl⟩, andThen_next, readLoc_eq_next.2 ⟨hl, rfl⟩, andThen_next]

/-! ## The stack -/

theorem push_eq_next {s t : State} {v : Word} :
    s.push v = .next t ↔
      misaligned s.T s.pushAddr = false ∧ t = (s.setX SP s.pushAddr).storeBytes s.pushAddr v s.T.bytes := by
  simp [State.push, memWrite_eq_next]

theorem pop_eq_next {s : State} {p : Word × State} :
    s.pop = .next p ↔
      misaligned s.T (s.x SP) = false ∧
        p = (s.bytesAt (s.x SP) s.T.bytes, s.setX SP (s.x SP + BitVec.ofNat 32 s.T.bytes)) := by
  simp [State.pop, andThen_eq_next, memRead_eq_next, next_eq_next, -Host.Outcome.next.injEq, and_assoc]

/-! ## Exceptions -/

/-- A vector address is a multiple of 4, so its read is never misaligned (R303). -/
theorem vectorAddr_aligned (s : State) (num : Nat) : misaligned s.T (s.vectorAddr num) = false := by
  have h : (s.vectorAddr num).getLsbD 0 = false := by
    rcases s.n_cases with ⟨_, hn, _⟩ | ⟨_, hn, _⟩ <;>
      simp only [State.vectorAddr, hn, BitVec.getLsbD, BitVec.toNat_ofNat, Nat.testBit_zero] <;>
      simp <;> omega
  rw [misaligned, h, Bool.and_false]

theorem vectorFetch_eq (s : State) (num : Nat) :
    s.vectorFetch num = .next (s.bytesAt (s.vectorAddr num) s.T.bytes &&& s.params.vectorMask) := by
  simp [State.vectorFetch, State.memRead, vectorAddr_aligned]

/-- The two pushes of an entry, and the handler's address (R304). -/
theorem enter_eq_next {s t : State} {num : Nat} {ret : Word} :
    s.enter num ret = .next t ↔
      ∃ s1 s2, s.push s.srWord = .next s1 ∧ s1.inhibit.push ret = .next s2 ∧
        t = s2.setPc (s2.bytesAt (s2.vectorAddr num) s2.T.bytes &&& s2.params.vectorMask) := by
  simp [State.enter, andThen_eq_next, vectorFetch_eq, next_eq_next, -Host.Outcome.next.injEq]

theorem returnFromException_eq_next {s t : State} :
    s.returnFromException = .next t ↔
      ∃ p q, s.pop = .next p ∧ (p.2.setPc p.1).pop = .next q ∧
        t = q.2.setSr (srLoad q.2.params.srLayout q.1) := by
  simp [State.returnFromException, andThen_eq_next, next_eq_next, -Host.Outcome.next.injEq]

/-- The line picked is one of those pending (R305, R313). -/
theorem pickLine_mem {draw : Nat} {l : List Nat} {i : Nat} (h : pickLine draw l = some i) : i ∈ l := by
  unfold pickLine at h
  split at h
  · simp at h
  · simp_all
  · exact List.mem_of_getElem? h

/-- While a request is pending, a line is picked (R305). -/
theorem pickLine_isSome {draw : Nat} {l : List Nat} (h : l ≠ []) : ∃ i, pickLine draw l = some i := by
  unfold pickLine
  split
  · simp at h
  · exact ⟨_, rfl⟩
  · have : Config.irqChoice draw l % l.length < l.length := Nat.mod_lt _ (by cases l <;> simp_all)
    exact ⟨_, List.getElem?_eq_getElem this⟩

theorem acceptInterrupt_eq_next {s t : State} (h : s.pending ≠ []) :
    s.acceptInterrupt = .next t ↔ ∃ i, i ∈ s.pending ∧ pickLine s.draws s.pending = some i ∧
      (s.acknowledge i).enter (32 + i) s.pc = .next t := by
  obtain ⟨i, hi⟩ := pickLine_isSome (draw := s.draws) h
  simp [State.acceptInterrupt, hi, pickLine_mem hi]

/-- The step of a state that no Reset takes is that of `stepReady`; the counter of draws apart, the state is its own (R344). -/
theorem step_of_noReset {s : State} (h : s.boundary.noReset) : step s = stepReady s.boundary.passError := by
  simp [step, stepCpu, h.1, h.2]

/-- A Reset is a step of its own, whatever else is to come (R308, R313, R340). -/
theorem step_of_reset {s : State} (h : s.boundary.rstLow = true ∨ s.boundary.errorEnded = true) :
    step s = .next s.boundary.doReset := by
  rcases h with h | h <;> simp [step, stepCpu, h]

/-- The entry of an Error: the push of the PC or none, and the handler's address (R308). -/
theorem raiseError_eq_next {s t : State} {num : Nat} :
    s.raiseError num = .next t ↔
      ∃ s2, (if Config.errorPushesPc s.draws then s.inhibit.setInError.drawn.push s.pc
          else .next s.inhibit.setInError.drawn) = .next s2 ∧
        t = s2.setPc (s2.bytesAt (s2.vectorAddr num) s2.T.bytes &&& s2.params.vectorMask) := by
  simp [State.raiseError, andThen_eq_next, vectorFetch_eq, next_eq_next, -Host.Outcome.next.injEq]

/-! ## The environment -/

theorem envMove_fields (s : State) (m : EnvMove) :
    (s.envMove m).params = s.params ∧ (s.envMove m).regs = s.regs ∧ (s.envMove m).pc = s.pc ∧ (s.envMove m).sr = s.sr ∧
      (s.envMove m).mem = s.mem ∧ (s.envMove m).written = s.written ∧ (s.envMove m).schedule = s.schedule ∧
      (s.envMove m).portIn = s.portIn ∧ (s.envMove m).portOut = s.portOut ∧ (s.envMove m).draws = s.draws ∧
      (s.envMove m).inError = s.inError := by
  cases m with
  | edge i => simp only [State.envMove]; split_ifs <;> simp
  | resetLine low => simp [State.envMove]

theorem foldl_envMove_fields (s : State) (l : List EnvMove) :
    (l.foldl State.envMove s).params = s.params ∧ (l.foldl State.envMove s).regs = s.regs ∧
      (l.foldl State.envMove s).pc = s.pc ∧ (l.foldl State.envMove s).sr = s.sr ∧
      (l.foldl State.envMove s).mem = s.mem ∧ (l.foldl State.envMove s).written = s.written ∧
      (l.foldl State.envMove s).schedule = s.schedule ∧ (l.foldl State.envMove s).portIn = s.portIn ∧
      (l.foldl State.envMove s).portOut = s.portOut ∧ (l.foldl State.envMove s).draws = s.draws ∧
      (l.foldl State.envMove s).inError = s.inError := by
  induction l generalizing s with
  | nil => simp
  | cons m l ih =>
    have h1 := ih (s.envMove m)
    have h2 := envMove_fields s m
    simp_all

end Sys2Proof.Machine
end

