-- ==== Sys2Proof/Laws/PerInstr.lean ====
section
/-! SUPPORT. A statement about every instruction as syntax, one lemma for each constructor: whether a word is followed by
an extension word can be told from the word alone (R93). -/

namespace Sys2Proof.Laws

/-- The test of R93 on an instruction's word answers whether the instruction has an extension word (R92). -/
def ExtensionWord.Statement (i : Instr) : Prop := wordHasExtension (encodeWord i) = i.hasExtension

/-! ## One lemma for each format -/

theorem hasExtension_G1 {op : Nat} (h : op < 8) (sa sb d : Reg) : wordHasExtension (wordG1 op sa sb d) = false := by
  simp [wordHasExtension, bits, wordG1]
  omega

theorem hasExtension_G2 {op : Nat} (h : op < 16) (s d : Reg) :
    wordHasExtension (wordG2 op s d) = (op == 12 || op == 14) := by
  rw [Bool.eq_iff_iff]
  simp [wordHasExtension, bits, wordG2]
  omega

theorem hasExtension_G3 {type dir : Nat} (h0 : 0 < type) (h : type < 4) (hd : dir < 2) (a : Reg) (m : Mode) (b : Reg) :
    wordHasExtension (wordG3 type dir a m b) = m.hasExtension := by
  rw [Bool.eq_iff_iff]
  cases m <;> simp [wordHasExtension, bits, wordG3, Mode.code, Mode.hasExtension] <;> omega

theorem hasExtension_BM {cc : Nat} (h : cc < 16) (m : Mode) (r : Reg) :
    wordHasExtension (wordBM cc m r) = m.hasExtension := by
  rw [Bool.eq_iff_iff]
  cases m <;> simp [wordHasExtension, bits, wordBM, Mode.code, Mode.hasExtension] <;> omega

theorem hasExtension_O1 {op : Nat} (h : op < 8) (m : Mode) (r : Reg) :
    wordHasExtension (wordO1 op m r) = m.hasExtension := by
  rw [Bool.eq_iff_iff]
  cases m <;> simp [wordHasExtension, bits, wordO1, Mode.code, Mode.hasExtension] <;> omega

theorem hasExtension_Q {op : Nat} (h : op < 2) (v : BitVec 8) (r : Reg) : wordHasExtension (wordQ op v r) = false := by
  simp [wordHasExtension, bits, wordQ]
  omega

theorem hasExtension_BQ {cc : Nat} (h : cc < 16) (v : BitVec 8) : wordHasExtension (wordBQ cc v) = false := by
  simp [wordHasExtension, bits, wordBQ]
  omega

/-! ## One lemma for each constructor -/

theorem ExtensionWord.adc (sa sb d : Reg) : ExtensionWord.Statement (.adc sa sb d) :=
  hasExtension_G1 (by decide) sa sb d

theorem ExtensionWord.xor (sa sb d : Reg) : ExtensionWord.Statement (.xor sa sb d) :=
  hasExtension_G1 (by decide) sa sb d

theorem ExtensionWord.div (sa sb d : Reg) : ExtensionWord.Statement (.div sa sb d) :=
  hasExtension_G1 (by decide) sa sb d

theorem ExtensionWord.mul (sa sb d : Reg) : ExtensionWord.Statement (.mul sa sb d) :=
  hasExtension_G1 (by decide) sa sb d

theorem ExtensionWord.and (sa sb d : Reg) : ExtensionWord.Statement (.and sa sb d) :=
  hasExtension_G1 (by decide) sa sb d

theorem ExtensionWord.or (sa sb d : Reg) : ExtensionWord.Statement (.or sa sb d) :=
  hasExtension_G1 (by decide) sa sb d

theorem ExtensionWord.add (sa sb d : Reg) : ExtensionWord.Statement (.add sa sb d) :=
  hasExtension_G1 (by decide) sa sb d

theorem ExtensionWord.sub (sa sb d : Reg) : ExtensionWord.Statement (.sub sa sb d) :=
  hasExtension_G1 (by decide) sa sb d

theorem ExtensionWord.rlc (s d : Reg) : ExtensionWord.Statement (.rlc s d) :=
  hasExtension_G2 (op := 0) (by decide) s d

theorem ExtensionWord.rrc (s d : Reg) : ExtensionWord.Statement (.rrc s d) :=
  hasExtension_G2 (op := 1) (by decide) s d

theorem ExtensionWord.srl (s d : Reg) : ExtensionWord.Statement (.srl s d) :=
  hasExtension_G2 (op := 2) (by decide) s d

theorem ExtensionWord.sra (s d : Reg) : ExtensionWord.Statement (.sra s d) :=
  hasExtension_G2 (op := 3) (by decide) s d

theorem ExtensionWord.not (s d : Reg) : ExtensionWord.Statement (.not s d) :=
  hasExtension_G2 (op := 4) (by decide) s d

theorem ExtensionWord.sbb (s d : Reg) : ExtensionWord.Statement (.sbb s d) :=
  hasExtension_G2 (op := 5) (by decide) s d

theorem ExtensionWord.shl (s d : Reg) : ExtensionWord.Statement (.shl s d) :=
  hasExtension_G2 (op := 6) (by decide) s d

theorem ExtensionWord.neg (s d : Reg) : ExtensionWord.Statement (.neg s d) :=
  hasExtension_G2 (op := 7) (by decide) s d

theorem ExtensionWord.inp (s d : Reg) : ExtensionWord.Statement (.inp s d) :=
  hasExtension_G2 (op := 8) (by decide) s d

theorem ExtensionWord.out (s d : Reg) : ExtensionWord.Statement (.out s d) :=
  hasExtension_G2 (op := 9) (by decide) s d

theorem ExtensionWord.swb (s d : Reg) : ExtensionWord.Statement (.swb s d) :=
  hasExtension_G2 (op := 10) (by decide) s d

theorem ExtensionWord.rlb (s d : Reg) : ExtensionWord.Statement (.rlb s d) :=
  hasExtension_G2 (op := 11) (by decide) s d

theorem ExtensionWord.ani (s d : Reg) : ExtensionWord.Statement (.ani s d) :=
  hasExtension_G2 (op := 12) (by decide) s d

theorem ExtensionWord.ext (s d : Reg) : ExtensionWord.Statement (.ext s d) :=
  hasExtension_G2 (op := 13) (by decide) s d

theorem ExtensionWord.adi (s d : Reg) : ExtensionWord.Statement (.adi s d) :=
  hasExtension_G2 (op := 14) (by decide) s d

theorem ExtensionWord.cmp (s d : Reg) : ExtensionWord.Statement (.cmp s d) :=
  hasExtension_G2 (op := 15) (by decide) s d

theorem ExtensionWord.ldb (a : Reg) (m : Mode) (b : Reg) : ExtensionWord.Statement (.ldb a m b) :=
  hasExtension_G3 (by decide) (by decide) (by decide) a m b

theorem ExtensionWord.ldw (a : Reg) (m : Mode) (b : Reg) : ExtensionWord.Statement (.ldw a m b) :=
  hasExtension_G3 (by decide) (by decide) (by decide) a m b

theorem ExtensionWord.ldl (a : Reg) (m : Mode) (b : Reg) : ExtensionWord.Statement (.ldl a m b) :=
  hasExtension_G3 (by decide) (by decide) (by decide) a m b

theorem ExtensionWord.stb (a : Reg) (m : Mode) (b : Reg) : ExtensionWord.Statement (.stb a m b) :=
  hasExtension_G3 (by decide) (by decide) (by decide) a m b

theorem ExtensionWord.stw (a : Reg) (m : Mode) (b : Reg) : ExtensionWord.Statement (.stw a m b) :=
  hasExtension_G3 (by decide) (by decide) (by decide) a m b

theorem ExtensionWord.stl (a : Reg) (m : Mode) (b : Reg) : ExtensionWord.Statement (.stl a m b) :=
  hasExtension_G3 (by decide) (by decide) (by decide) a m b

theorem ExtensionWord.jmp (m : Mode) (r : Reg) : ExtensionWord.Statement (.jmp m r) :=
  hasExtension_BM (by decide) m r

theorem ExtensionWord.jeq (m : Mode) (r : Reg) : ExtensionWord.Statement (.jeq m r) :=
  hasExtension_BM (by decide) m r

theorem ExtensionWord.jne (m : Mode) (r : Reg) : ExtensionWord.Statement (.jne m r) :=
  hasExtension_BM (by decide) m r

theorem ExtensionWord.jge (m : Mode) (r : Reg) : ExtensionWord.Statement (.jge m r) :=
  hasExtension_BM (by decide) m r

theorem ExtensionWord.jle (m : Mode) (r : Reg) : ExtensionWord.Statement (.jle m r) :=
  hasExtension_BM (by decide) m r

theorem ExtensionWord.jgt (m : Mode) (r : Reg) : ExtensionWord.Statement (.jgt m r) :=
  hasExtension_BM (by decide) m r

theorem ExtensionWord.jlw (m : Mode) (r : Reg) : ExtensionWord.Statement (.jlw m r) :=
  hasExtension_BM (by decide) m r

theorem ExtensionWord.jae (m : Mode) (r : Reg) : ExtensionWord.Statement (.jae m r) :=
  hasExtension_BM (by decide) m r

theorem ExtensionWord.jbe (m : Mode) (r : Reg) : ExtensionWord.Statement (.jbe m r) :=
  hasExtension_BM (by decide) m r

theorem ExtensionWord.jab (m : Mode) (r : Reg) : ExtensionWord.Statement (.jab m r) :=
  hasExtension_BM (by decide) m r

theorem ExtensionWord.jbl (m : Mode) (r : Reg) : ExtensionWord.Statement (.jbl m r) :=
  hasExtension_BM (by decide) m r

theorem ExtensionWord.jvs (m : Mode) (r : Reg) : ExtensionWord.Statement (.jvs m r) :=
  hasExtension_BM (by decide) m r

theorem ExtensionWord.jvc (m : Mode) (r : Reg) : ExtensionWord.Statement (.jvc m r) :=
  hasExtension_BM (by decide) m r

theorem ExtensionWord.jpa (m : Mode) (r : Reg) : ExtensionWord.Statement (.jpa m r) :=
  hasExtension_O1 (by decide) m r

theorem ExtensionWord.jea (m : Mode) (r : Reg) : ExtensionWord.Statement (.jea m r) :=
  hasExtension_O1 (by decide) m r

theorem ExtensionWord.jsr (m : Mode) (r : Reg) : ExtensionWord.Statement (.jsr m r) :=
  hasExtension_O1 (by decide) m r

theorem ExtensionWord.trp (m : Mode) (r : Reg) : ExtensionWord.Statement (.trp m r) :=
  hasExtension_O1 (by decide) m r

theorem ExtensionWord.tst (m : Mode) (r : Reg) : ExtensionWord.Statement (.tst m r) :=
  hasExtension_O1 (by decide) m r

theorem ExtensionWord.tsr (m : Mode) (r : Reg) : ExtensionWord.Statement (.tsr m r) :=
  hasExtension_O1 (by decide) m r

theorem ExtensionWord.msr (m : Mode) (r : Reg) : ExtensionWord.Statement (.msr m r) :=
  hasExtension_O1 (by decide) m r

theorem ExtensionWord.mpc (m : Mode) (r : Reg) : ExtensionWord.Statement (.mpc m r) :=
  hasExtension_O1 (by decide) m r

theorem ExtensionWord.nop : ExtensionWord.Statement .nop :=
  rfl

theorem ExtensionWord.hlt : ExtensionWord.Statement .hlt :=
  rfl

theorem ExtensionWord.rts : ExtensionWord.Statement .rts :=
  rfl

theorem ExtensionWord.rti : ExtensionWord.Statement .rti :=
  rfl

theorem ExtensionWord.clc : ExtensionWord.Statement .clc :=
  rfl

theorem ExtensionWord.stc : ExtensionWord.Statement .stc :=
  rfl

theorem ExtensionWord.dsi : ExtensionWord.Statement .dsi :=
  rfl

theorem ExtensionWord.eni : ExtensionWord.Statement .eni :=
  rfl

theorem ExtensionWord.ldq (v : BitVec 8) (r : Reg) : ExtensionWord.Statement (.ldq v r) :=
  hasExtension_Q (by decide) v r

theorem ExtensionWord.adq (v : BitVec 8) (r : Reg) : ExtensionWord.Statement (.adq v r) :=
  hasExtension_Q (by decide) v r

theorem ExtensionWord.jqmp (v : BitVec 8) : ExtensionWord.Statement (.jqmp v) :=
  hasExtension_BQ (by decide) v

theorem ExtensionWord.jqeq (v : BitVec 8) : ExtensionWord.Statement (.jqeq v) :=
  hasExtension_BQ (by decide) v

theorem ExtensionWord.jqne (v : BitVec 8) : ExtensionWord.Statement (.jqne v) :=
  hasExtension_BQ (by decide) v

theorem ExtensionWord.jqge (v : BitVec 8) : ExtensionWord.Statement (.jqge v) :=
  hasExtension_BQ (by decide) v

theorem ExtensionWord.jqle (v : BitVec 8) : ExtensionWord.Statement (.jqle v) :=
  hasExtension_BQ (by decide) v

theorem ExtensionWord.jqgt (v : BitVec 8) : ExtensionWord.Statement (.jqgt v) :=
  hasExtension_BQ (by decide) v

theorem ExtensionWord.jqlw (v : BitVec 8) : ExtensionWord.Statement (.jqlw v) :=
  hasExtension_BQ (by decide) v

theorem ExtensionWord.jqae (v : BitVec 8) : ExtensionWord.Statement (.jqae v) :=
  hasExtension_BQ (by decide) v

theorem ExtensionWord.jqbe (v : BitVec 8) : ExtensionWord.Statement (.jqbe v) :=
  hasExtension_BQ (by decide) v

theorem ExtensionWord.jqab (v : BitVec 8) : ExtensionWord.Statement (.jqab v) :=
  hasExtension_BQ (by decide) v

theorem ExtensionWord.jqbl (v : BitVec 8) : ExtensionWord.Statement (.jqbl v) :=
  hasExtension_BQ (by decide) v

theorem ExtensionWord.jqvs (v : BitVec 8) : ExtensionWord.Statement (.jqvs v) :=
  hasExtension_BQ (by decide) v

theorem ExtensionWord.jqvc (v : BitVec 8) : ExtensionWord.Statement (.jqvc v) :=
  hasExtension_BQ (by decide) v

end Sys2Proof.Laws
end

