-- ==== Sys2Proof/Tests/Slice0.lean ====
section
/-! SUPPORT. Tests. Expected values are those of the examples and tables of spec/, named by rule; the witnesses at the end show
for each statement with hypotheses a state that meets them. -/

namespace Sys2Proof.Tests

open Sys2Proof Sys2Proof.Machine

/-! ## Well-formedness: for each check a term that it refuses -/

theorem test_wellFormed_size :
    (Instr.rlb 1 2).wellFormed .n16 = false ∧ (Instr.rlb 1 2).wellFormed .n32 = true ∧
      (Instr.ldl 1 .indirect 2).wellFormed .n16 = false ∧ (Instr.stl 1 .indirect 2).wellFormed .n16 = false := by decide

theorem test_wellFormed_div_one_register :
    (Instr.div 1 2 1).wellFormed .n16 = false ∧ (Instr.div 1 2 2).wellFormed .n16 = true := by decide

theorem test_wellFormed_automodify :
    (Instr.ldw 1 .postIncrement 1).wellFormed .n16 = false ∧ (Instr.stb 3 .preDecrement 3).wellFormed .n16 = false ∧
      (Instr.ldw 1 .indexed 1).wellFormed .n16 = true := by decide

theorem test_wellFormed_immediate_destination :
    (Instr.stw 1 .immediate 0).wellFormed .n16 = false ∧ (Instr.tsr .immediate 0).wellFormed .n16 = false ∧
      (Instr.msr .immediate 0).wellFormed .n16 = false ∧ (Instr.mpc .immediate 0).wellFormed .n16 = false := by decide

theorem test_wellFormed_no_address :
    (Instr.jea .register 0).wellFormed .n16 = false ∧ (Instr.jsr .immediate 0).wellFormed .n16 = false ∧
      (Instr.jea .direct 0).wellFormed .n16 = true := by decide

/-! ## Decoding: the word of every row, written out from the encodings of the rules (R81 to R88, R105) -/

theorem test_decode_group1 :
    [0x8123, 0x9123, 0xA123, 0xB123, 0xC123, 0xD123, 0xE123, 0xF123].map decodeWord =
      [.ok (.adc 1 2 3), .ok (.xor 1 2 3), .ok (.div 1 2 3), .ok (.mul 1 2 3), .ok (.and 1 2 3), .ok (.or 1 2 3),
        .ok (.add 1 2 3), .ok (.sub 1 2 3)] := by decide

theorem test_decode_group2_low :
    [0x4012, 0x4112, 0x4212, 0x4312, 0x4412, 0x4512, 0x4612, 0x4712].map decodeWord =
      [.ok (.rlc 1 2), .ok (.rrc 1 2), .ok (.srl 1 2), .ok (.sra 1 2), .ok (.not 1 2), .ok (.sbb 1 2), .ok (.shl 1 2),
        .ok (.neg 1 2)] := by decide

theorem test_decode_group2_high :
    [0x4812, 0x4912, 0x4A12, 0x4B12, 0x4C12, 0x4D12, 0x4E12, 0x4F12].map decodeWord =
      [.ok (.inp 1 2), .ok (.out 1 2), .ok (.swb 1 2), .ok (.rlb 1 2), .ok (.ani 1 2), .ok (.ext 1 2), .ok (.adi 1 2),
        .ok (.cmp 1 2)] := by decide

theorem test_decode_group3 :
    [0x51A2, 0x61B2, 0x71A2, 0x5122, 0x614F, 0x7122].map decodeWord =
      [.ok (.ldb 1 .indirect 2), .ok (.ldw 1 .postIncrement 2), .ok (.ldl 1 .indirect 2), .ok (.stb 1 .indirect 2),
        .ok (.stw 1 .preDecrement 15), .ok (.stl 1 .indirect 2)] := by decide

theorem test_decode_mode_branches :
    [0x0093, 0x0100, 0x0180, 0x0200, 0x0280, 0x0300, 0x0380, 0x0400, 0x0480, 0x0500, 0x0580, 0x0600, 0x0680].map
        decodeWord =
      [.ok (.jmp .register 3), .ok (.jeq .immediate 0), .ok (.jne .immediate 0), .ok (.jge .immediate 0),
        .ok (.jle .immediate 0), .ok (.jgt .immediate 0), .ok (.jlw .immediate 0), .ok (.jae .immediate 0),
        .ok (.jbe .immediate 0), .ok (.jab .immediate 0), .ok (.jbl .immediate 0), .ok (.jvs .immediate 0),
        .ok (.jvc .immediate 0)] := by decide

theorem test_decode_one_operand :
    [0x0813, 0x08E2, 0x0950, 0x0980, 0x0A14, 0x0AA2, 0x0B15, 0x0B96].map decodeWord =
      [.ok (.jpa .register 3), .ok (.jea .indexed 2), .ok (.jsr .direct 0), .ok (.trp .immediate 0),
        .ok (.tst .register 4), .ok (.tsr .indirect 2), .ok (.msr .register 5), .ok (.mpc .register 6)] := by decide

theorem test_decode_no_operand :
    [0x0C00, 0x0C01, 0x0C02, 0x0C03, 0x0C04, 0x0C05, 0x0C06, 0x0C07].map decodeWord =
      [.ok .nop, .ok .hlt, .ok .rts, .ok .rti, .ok .clc, .ok .stc, .ok .dsi, .ok .eni] := by decide

theorem test_decode_quick :
    [0x2FF2, 0x2804, 0x3013, 0x3803].map decodeWord =
      [.ok (.ldq 0xFF 2), .ok (.ldq 0x80 4), .ok (.adq 0x01 3), .ok (.adq 0x80 3)] := by decide

theorem test_decode_short_branches :
    [0x11FE, 0x1210, 0x13FA, 0x1410, 0x1510, 0x1610, 0x1710, 0x1810, 0x1910, 0x1A10, 0x1B10, 0x1C10, 0x1D10].map
        decodeWord =
      [.ok (.jqmp 0xFE), .ok (.jqeq 0x10), .ok (.jqne 0xFA), .ok (.jqge 0x10), .ok (.jqle 0x10), .ok (.jqgt 0x10),
        .ok (.jqlw 0x10), .ok (.jqae 0x10), .ok (.jqbe 0x10), .ok (.jqab 0x10), .ok (.jqbl 0x10), .ok (.jqvs 0x10),
        .ok (.jqvc 0x10)] := by decide

/-- The first and the last word of each reserved range of R106. -/
theorem test_decode_reserved :
    [0x0000, 0x007F, 0x0700, 0x07FF, 0x0C08, 0x0FFF, 0x1000, 0x10FF, 0x1E00, 0x1FFF].map decodeWord =
      [.error (.reservedEncoding 0x0000), .error (.reservedEncoding 0x007F), .error (.reservedEncoding 0x0700),
        .error (.reservedEncoding 0x07FF), .error (.reservedEncoding 0x0C08), .error (.reservedEncoding 0x0FFF),
        .error (.reservedEncoding 0x1000), .error (.reservedEncoding 0x10FF), .error (.reservedEncoding 0x1E00),
        .error (.reservedEncoding 0x1FFF)] := by decide

theorem test_decode_truncated : decode [0x0C] = .error .truncated ∧ decode [] = .error .truncated := by decide

theorem test_decodeTableWord : decodeTableWord 16 0x61B2 = some (.ldw 1 .postIncrement 2) := by decide

/-! ## Instructions, on the state in which they run: the PC is past the instruction word, at 0102h -/

/-- N = 16, the registers listed, the PC at 0102h. -/
def cpu (l : List (Reg × Word)) : State := l.foldl (fun s p => s.setX p.1 p.2) { State.reset with pc := 0x0102 }

/-- The same at N = 32. -/
def cpu32 (l : List (Reg × Word)) : State :=
  l.foldl (fun s p => s.setX p.1 p.2)
    { State.reset with pc := 0x0102, params := { Params.standard with size := .n32, extSrcBits := 16 } }

/-- A word of two bytes in memory. -/
def place (s : State) (a w : Word) : State := s.storeBytes a w 2

/-- The flags Z, V, C, N. -/
def zvcn (s : State) : List Bool := [s.sr.ZF, s.sr.VF, s.sr.CF, s.sr.NF]

/-- The same state with flags W, I, Z, V, C, N. -/
def withFlags (s : State) (w i z v c n : Bool) : State :=
  s.setSr { WF := w, IF := i, ZF := z, VF := v, CF := c, NF := n }

/-- What a function gives of the next state, if there is one. -/
def after {α : Type} (o : Result State) (f : State → α) : Option α :=
  match o with
  | .next t => some (f t)
  | _ => none

theorem test_adc :
    after (exec (.adc 1 2 3) (withFlags (cpu [(1, 0xFFFF), (2, 1)]) false false false false true false))
      (fun t => (t.x 3, zvcn t)) = some (1, [false, false, true, false]) := by decide

theorem test_xor :
    after (exec (.xor 1 2 3) (cpu [(1, 0x00FF), (2, 0x0F0F)])) (fun t => (t.x 3, zvcn t)) =
      some (0x0FF0, [false, false, false, false]) := by decide

theorem test_div_trunc :
    after (exec (.div 1 2 3) (cpu [(1, 0xFFF9), (2, 2)])) (fun t => (t.x 3, t.x 1, t.sr.NF)) =
      some (0xFFFD, 0xFFFF, true) := by decide

theorem test_div_overflow :
    after (exec (.div 1 2 3) (cpu [(1, 0x8000), (2, 0xFFFF)])) (fun t => (t.x 3, t.x 1, t.sr.VF, t.sr.NF)) =
      some (0x8000, 0, true, true) := by decide

theorem test_mul :
    after (exec (.mul 1 2 3) (cpu [(1, 0xFFFD), (2, 5)])) (fun t => (t.x 3, t.sr.VF, t.sr.NF)) =
      some (0xFFF1, false, true) := by decide

theorem test_mul_overflow :
    after (exec (.mul 1 2 3) (cpu [(1, 0x0100), (2, 0x0100)])) (fun t => (t.x 3, t.sr.ZF, t.sr.VF)) =
      some (0, true, true) := by decide

theorem test_and :
    after (exec (.and 1 2 3) (cpu [(1, 0xF0F0), (2, 0xFF00)])) (fun t => (t.x 3, zvcn t)) =
      some (0xF000, [false, false, false, true]) := by decide

theorem test_or :
    after (exec (.or 1 2 3) (cpu [(1, 0x00F0), (2, 0x0F00)])) (fun t => (t.x 3, zvcn t)) =
      some (0x0FF0, [false, false, false, false]) := by decide

theorem test_add_overflow :
    after (exec (.add 1 2 3) (cpu [(1, 0x7FFF), (2, 1)])) (fun t => (t.x 3, zvcn t)) =
      some (0x8000, [false, true, false, true]) := by decide

theorem test_add_carry :
    after (exec (.add 1 2 2) (cpu [(1, 0xFFFF), (2, 1)])) (fun t => (t.x 2, zvcn t)) =
      some (0, [true, false, true, false]) := by decide

theorem test_sub_borrow :
    after (exec (.sub 1 2 3) (cpu [(1, 5), (2, 7)])) (fun t => (t.x 3, zvcn t)) =
      some (0xFFFE, [false, false, true, true]) := by decide

theorem test_sub_overflow :
    after (exec (.sub 1 2 3) (cpu [(1, 0x8000), (2, 1)])) (fun t => (t.x 3, zvcn t)) =
      some (0x7FFF, [false, true, false, false]) := by decide

theorem test_rlc :
    after (exec (.rlc 1 2) (cpu [(1, 0x8001)])) (fun t => (t.x 2, zvcn t)) =
      some (2, [false, false, true, false]) := by decide

theorem test_rrc :
    after (exec (.rrc 1 2) (withFlags (cpu [(1, 1)]) false false false false true false)) (fun t => (t.x 2, zvcn t)) =
      some (0x8000, [false, false, true, true]) := by decide

theorem test_srl :
    after (exec (.srl 1 2) (cpu [(1, 0x8003)])) (fun t => (t.x 2, zvcn t)) =
      some (0x4001, [false, false, true, false]) := by decide

theorem test_sra :
    after (exec (.sra 1 2) (cpu [(1, 0xFFF9)])) (fun t => (t.x 2, zvcn t)) =
      some (0xFFFC, [false, false, true, true]) := by decide

theorem test_not :
    after (exec (.not 1 2) (cpu [(1, 0x00FF)])) (fun t => (t.x 2, zvcn t)) =
      some (0xFF00, [false, false, false, true]) := by decide

theorem test_sbb :
    after (exec (.sbb 1 2) (withFlags (cpu [(1, 0)]) false false false false true false)) (fun t => (t.x 2, zvcn t)) =
      some (0xFFFF, [false, false, true, true]) := by decide

theorem test_shl :
    after (exec (.shl 1 2) (cpu [(1, 0x4001)])) (fun t => (t.x 2, zvcn t)) =
      some (0x8002, [false, false, false, true]) := by decide

theorem test_neg :
    after (exec (.neg 1 2) (cpu [(1, 1)])) (fun t => (t.x 2, zvcn t)) =
      some (0xFFFF, [false, false, true, true]) := by decide

theorem test_inp :
    after (exec (.inp 1 2) { cpu [(1, 0x10)] with portIn := [0x0080, 7] }) (fun t => (t.x 2, t.portIn)) =
      some (0x0080, [7]) := by decide

theorem test_out :
    after (exec (.out 1 2) (cpu [(1, 0x41), (2, 3)])) (fun t => (t.portOut, t.x 2)) = some ([(3, 0x41)], 3) := by decide

theorem test_swb :
    after (exec (.swb 1 2) (cpu [(1, 0x12AB)])) (fun t => (t.x 2, t.sr.NF)) = some (0xAB12, true) := by decide

theorem test_rlb :
    after (exec (.rlb 1 2) (cpu32 [(1, 0x1234ABCD)])) (fun t => (t.x 2, t.sr.NF)) = some (0xABCD1234, true) := by decide

theorem test_ani :
    after (exec (.ani 1 2) (place (cpu [(1, 0x1234)]) 0x0102 0x00FF)) (fun t => (t.x 2, t.pc)) =
      some (0x0034, 0x0104) := by decide

theorem test_ext :
    after (exec (.ext 1 2) (cpu [(1, 0x1280)])) (fun t => (t.x 2, t.sr.NF)) = some (0xFF80, true) := by decide

theorem test_adi :
    after (exec (.adi 1 2) (place (cpu [(1, 0x7000)]) 0x0102 0x1000)) (fun t => (t.x 2, zvcn t)) =
      some (0x8000, [false, true, false, true]) := by decide

theorem test_cmp :
    after (exec (.cmp 1 2) (cpu [(1, 0x8000), (2, 1)])) (fun t => (t.x 1, t.x 2, zvcn t)) =
      some (0x8000, 1, [false, true, false, false]) := by decide

theorem test_ldw_immediate :
    after (exec (.ldw 1 .immediate 0) (place (cpu []) 0x0102 0x1234)) (fun t => (t.x 1, t.pc)) =
      some (0x1234, 0x0104) := by decide

theorem test_ldw_postIncrement :
    after (exec (.ldw 1 .postIncrement 2) (place (cpu [(2, 0x2000)]) 0x2000 0x8001))
      (fun t => (t.x 1, t.x 2, t.sr.NF)) = some (0x8001, 0x2002, true) := by decide

theorem test_ldw_indirectIndexed :
    after (exec (.ldw 1 .indirectIndexed 2)
      (place (place (place (cpu [(2, 0x2000)]) 0x0102 0xFFFE) 0x1FFE 0x3000) 0x3000 0xABCD)) (fun t => t.x 1) =
      some 0xABCD := by decide

theorem test_ldb :
    after (exec (.ldb 1 .indirect 2) ((cpu [(1, 0x1234), (2, 0x2001)]).storeByte 0x2001 0xF0))
      (fun t => (t.x 1, t.sr.NF)) = some (0x00F0, true) := by decide

theorem test_ldl :
    after (exec (.ldl 1 .indirect 2) ((cpu32 [(2, 0x1000)]).storeBytes 0x1000 0x12345678 4)) (fun t => t.x 1) =
      some 0x12345678 := by decide

theorem test_stw :
    after (exec (.stw 1 .preDecrement 15) (cpu [(1, 0xBEEF), (15, 0x8000)]))
      (fun t => (t.x 15, t.byteAt 0x7FFE, t.byteAt 0x7FFF)) = some (0x7FFE, 0xBE, 0xEF) := by decide

theorem test_stb :
    after (exec (.stb 1 .indirect 2) (place (cpu [(1, 0x1234), (2, 0x2000)]) 0x2000 0xAAAA))
      (fun t => (t.byteAt 0x2000, t.byteAt 0x2001)) = some (0x34, 0xAA) := by decide

theorem test_stl :
    after (exec (.stl 1 .indirect 2) (cpu32 [(1, 0x12345678), (2, 0x1000)]))
      (fun t => (t.byteAt 0x1000, t.byteAt 0x1003)) = some (0x12, 0x78) := by decide

/-- The thirteen branches with a displacement of 0010h on the flags NF, VF, ZF, CF listed, the PC at 0102h before the
extension word: 0114h when taken, 0104h when not (examples of R204 to R216). -/
theorem test_mode_branches :
    ([(Instr.jmp .immediate 0, false, false, false, false), (.jeq .immediate 0, false, false, true, false),
      (.jne .immediate 0, false, false, true, false), (.jge .immediate 0, true, true, false, false),
      (.jle .immediate 0, false, false, false, false), (.jgt .immediate 0, false, false, false, false),
      (.jlw .immediate 0, true, false, false, false), (.jae .immediate 0, false, false, false, false),
      (.jbe .immediate 0, false, false, true, false), (.jab .immediate 0, false, false, false, true),
      (.jbl .immediate 0, false, false, false, true), (.jvs .immediate 0, false, true, false, false),
      (.jvc .immediate 0, false, false, false, false)] : List (Instr × Bool × Bool × Bool × Bool)).map
        (fun q => after
          (exec q.1 (withFlags (place (cpu []) 0x0102 0x0010) false false q.2.2.2.1 q.2.2.1 q.2.2.2.2 q.2.1)) State.pc) =
      [some 0x0114, some 0x0114, some 0x0104, some 0x0114, some 0x0104, some 0x0114, some 0x0114, some 0x0114,
        some 0x0114, some 0x0104, some 0x0114, some 0x0114, some 0x0114] := by decide

theorem test_jmp_register : after (exec (.jmp .register 3) (cpu [(3, 0xFFFA)])) State.pc = some 0x00FC := by decide

/-- The same for the short branches with the ValueCode 10h: 0112h when taken, 0102h when not (R271 to R283). -/
theorem test_short_branches :
    ([(Instr.jqmp 0x10, false, false, false, false), (.jqeq 0x10, false, false, true, false),
      (.jqne 0x10, false, false, true, false), (.jqge 0x10, false, true, false, false),
      (.jqle 0x10, true, true, false, false), (.jqgt 0x10, true, true, false, false),
      (.jqlw 0x10, false, true, false, false), (.jqae 0x10, false, false, false, true),
      (.jqbe 0x10, false, false, false, true), (.jqab 0x10, false, false, true, false),
      (.jqbl 0x10, false, false, false, true), (.jqvs 0x10, false, true, false, false),
      (.jqvc 0x10, false, true, false, false)] : List (Instr × Bool × Bool × Bool × Bool)).map
        (fun q => after (exec q.1 (withFlags (cpu []) false false q.2.2.2.1 q.2.2.1 q.2.2.2.2 q.2.1)) State.pc) =
      [some 0x0112, some 0x0112, some 0x0102, some 0x0102, some 0x0102, some 0x0112, some 0x0112, some 0x0102,
        some 0x0112, some 0x0102, some 0x0112, some 0x0112, some 0x0102] := by decide

theorem test_jqne_back : after (exec (.jqne 0xFA) (cpu [])) State.pc = some 0x00FC := by decide

theorem test_jpa : after (exec (.jpa .immediate 0) (place (cpu []) 0x0102 0x1234)) State.pc = some 0x1234 := by decide

theorem test_jea :
    after (exec (.jea .indexed 2) (place (cpu [(2, 0x3000)]) 0x0102 0x0010)) State.pc = some 0x3010 := by decide

theorem test_jsr :
    after (exec (.jsr .direct 0) (place (cpu [(15, 0x8000)]) 0x0102 0x2000))
      (fun t => (t.pc, t.x 15, t.byteAt 0x7FFE, t.byteAt 0x7FFF)) = some (0x2000, 0x7FFE, 0x01, 0x04) := by decide

theorem test_trp :
    after (exec (.trp .immediate 0)
      (place (place (withFlags (cpu [(15, 0x8000)]) false true false false false false) 0x0102 5) 0x0014 0x3001))
      (fun t => (t.pc, t.x 15, t.bytesAt 0x7FFE 2, t.bytesAt 0x7FFC 2, t.sr.IF)) =
      some (0x3000, 0x7FFC, 0x0010, 0x0104, false) := by decide

theorem test_tst :
    after (exec (.tst .register 4) (cpu [(4, 0x8000)])) zvcn = some [false, false, false, true] := by decide

theorem test_tsr :
    after (exec (.tsr .indirect 2) (place (cpu [(2, 0x2000)]) 0x2000 1)) (fun t => (t.bytesAt 0x2000 2, zvcn t)) =
      some (0, [false, false, false, false]) := by decide

theorem test_msr :
    after (exec (.msr .register 5) (withFlags (cpu []) false true true false false false)) (fun t => t.x 5) =
      some 0x0018 := by decide

theorem test_mpc : after (exec (.mpc .register 6) (cpu [])) (fun t => t.x 6) = some 0x0102 := by decide

theorem test_nop : exec .nop (cpu []) = .next (cpu []) := rfl

theorem test_hlt : after (exec .hlt (cpu [])) (fun t => t.sr.WF) = some true := by decide

theorem test_rts :
    after (exec .rts (place (cpu [(15, 0x7FFE)]) 0x7FFE 0x0104)) (fun t => (t.pc, t.x 15)) =
      some (0x0104, 0x8000) := by decide

theorem test_rti :
    after (exec .rti (place (place (cpu [(15, 0x7FFC)]) 0x7FFC 0x0104) 0x7FFE 0x0010))
      (fun t => (t.pc, t.x 15, t.sr.IF, t.sr.WF, zvcn t)) =
      some (0x0104, 0x8000, true, false, [false, false, false, false]) := by decide

theorem test_clc :
    after (exec .clc (withFlags (cpu []) false false true true true true)) zvcn = some [true, true, false, true] := by decide

theorem test_stc : after (exec .stc (cpu [])) zvcn = some [false, false, true, false] := by decide

theorem test_dsi :
    after (exec .dsi (withFlags (cpu []) false true false false true false)) (fun t => (t.sr.IF, t.sr.CF)) =
      some (false, true) := by decide

theorem test_eni : after (exec .eni (cpu [])) (fun t => t.sr.IF) = some true := by decide

theorem test_ldq :
    after (exec (.ldq 0x80 4) (cpu [])) (fun t => (t.x 4, t.sr.NF)) = some (0xFF80, true) := by decide

theorem test_adq :
    after (exec (.adq 0xFF 3) (cpu [(3, 5)])) (fun t => (t.x 3, zvcn t)) =
      some (4, [false, false, true, false]) := by decide

theorem test_adq_overflow :
    after (exec (.adq 0x80 3) (cpu [(3, 0x8000)])) (fun t => (t.x 3, zvcn t)) =
      some (0x7F80, [false, true, true, false]) := by decide

/-! ## Steps -/

/-- `JPA #1234h` placed where the first step fetches. -/
theorem test_first_step :
    after (step (State.reset.withFetchWord 32 0x12340800)) State.pc = some 0x1234 := by decide

theorem test_step_interrupt :
    after (step (place { withFlags (cpu [(15, 0x8000)]) true true false false false false with
        schedule := [[.edge 3]] } 0x008C 0x4001))
      (fun t => (t.pc, t.x 15, t.sr.WF, t.bytesAt 0x7FFC 2, t.pending)) =
      some (0x4000, 0x7FFC, false, 0x0102, []) := by decide

theorem test_step_reset :
    after (step { cpu [] with schedule := [[.edge 3, .resetLine true]] }) (fun t => (t.pc, t.pending)) =
      some (0xFFFA, []) := by decide

theorem test_boundary_last_level :
    ({ cpu [] with schedule := [[.resetLine true, .edge 2, .resetLine false], [.resetLine true]] } : State).boundary =
      { cpu [] with pending := [2], schedule := [[.resetLine true]] } := by decide

theorem test_step_reserved : step { cpu [] with pc := 0x0100 } = .refused .reservedEncoding := rfl

/-! ## Witnesses: the hypotheses of the statements can be met -/

/-- A program word at 0100h and the PC at it. -/
def at0100 (w : Word) (s : State) : State := { place s 0x0100 w with pc := 0x0100, written := [] }

theorem witness_DecodedWord_row :
    decodeWord 0x0C07 = .ok .eni ∧ (⟨0x0C07, 0xFFFF⟩ : OpcodeRow) ∈ opcodeRows ∧
      OpcodeRow.holds ⟨0x0C07, 0xFFFF⟩ 0x0C07 = true := by decide

theorem witness_StepRunsTheDecodedInstruction :
    (at0100 0x0C05 (cpu [])).boundary.runs ∧ fetchReady .two (at0100 0x0C05 (cpu [])).boundary ∧
      decode [(at0100 0x0C05 (cpu [])).boundary.byteAt ((at0100 0x0C05 (cpu [])).boundary.addrAt 0x0100 0),
        (at0100 0x0C05 (cpu [])).boundary.byteAt ((at0100 0x0C05 (cpu [])).boundary.addrAt 0x0100 1)] = .ok (.stc, []) := by
  unfold State.runs State.noReset fetchReady; decide

theorem witness_ResetClears_in_a_run :
    ({ cpu [] with rstLow := true } : State).boundary.rstLow = true ∧
      step { cpu [] with rstLow := true } = .next ({ cpu [] with rstLow := true } : State).doReset := ⟨by decide, rfl⟩

theorem witness_HaltedMachineWaits :
    (withFlags (cpu []) true false false false false false).boundary.waits ∧
      (withFlags (cpu []) true true false false false false).boundary.waits := by
  unfold State.waits State.noReset; decide

theorem witness_FetchStops_odd :
    ({ cpu [] with pc := 0xFFFF } : State).boundary.runs ∧
      ({ cpu [] with pc := 0xFFFF } : State).boundary.pc.getLsbD 0 = true := by
  unfold State.runs State.noReset; decide

/-- A machine launched with `SELF_MODIFY = refuse` that has written the second byte at its PC, FFFEh. -/
def selfModified : State :=
  { cpu [] with pc := 0xFFFE, written := [0xFFFF], params := { Params.standard with selfModify := .refuse } }

theorem witness_FetchStops_selfModified :
    selfModified.boundary.runs ∧ selfModified.boundary.pc.getLsbD 0 = false ∧
      selfModified.params.selfModify = .refuse ∧
      selfModified.boundary.addrAt selfModified.boundary.pc 1 ∈ selfModified.written := by
  unfold State.runs State.noReset; decide

theorem witness_FetchStops_reserved :
    (at0100 0x1E00 (cpu [])).boundary.runs ∧ fetchReady .two (at0100 0x1E00 (cpu [])).boundary ∧
      ∃ e, decode [(at0100 0x1E00 (cpu [])).boundary.byteAt 0x0100, (at0100 0x1E00 (cpu [])).boundary.byteAt 0x0101] =
        .error e := by
  refine ⟨?_, ?_, .reservedEncoding 0x1E00, by decide⟩
  · unfold State.runs State.noReset; decide
  · unfold fetchReady; decide

theorem witness_FetchStops_coherent :
    (cpu []).boundary.runs ∧ (cpu []).boundary.pc.getLsbD 0 = false ∧ (cpu []).params.selfModify = .coherent := by
  unfold State.runs State.noReset; decide

theorem witness_FetchStops_extension_word :
    (Instr.ani 1 2).hasExtension = true ∧ (Instr.ani 1 2).wellFormed .n16 = true ∧
      (Instr.ldw 1 .indexed 1).hasExtension = true ∧ (Instr.ldw 1 .indexed 1).wellFormed .n16 = true ∧
      ({ cpu [] with pc := 0xFFFF } : State).pc.getLsbD 0 = true ∧
      selfModified.pc.getLsbD 0 = false ∧ selfModified.params.selfModify = .refuse ∧
      1 < selfModified.params.ieSize.bytes ∧ selfModified.addrAt selfModified.pc 1 ∈ selfModified.written := by decide

/-- A halted machine with interrupts on and lines 0 and 7 pending. -/
def interrupted : State := { withFlags (cpu [(15, 0)]) true true false false false false with pending := [0, 7] }

theorem witness_PendingInterruptIsEntered :
    interrupted.boundary.noReset ∧ interrupted.boundary.sr.IF = true ∧ interrupted.boundary.pending ≠ [] ∧
      (interrupted.boundary.x SP).getLsbD 0 = false := by
  unfold State.noReset; decide

theorem witness_Reset_clauses :
    ({ cpu [] with rstLow := true } : State).boundary.rstLow = true ∧ ((cpu [(15, 0)]).x SP).getLsbD 0 = false ∧
      ({ cpu [] with inError := true } : State).boundary.rstLow = false ∧
      ({ cpu [] with inError := true } : State).boundary.inError = true := by decide

theorem witness_StepKeepsTheInvariant :
    State.reset.Wf ∧ step (State.reset.withFetchWord 16 0x0C00) = .next ((State.reset.withFetchWord 16 0x0C00).setPc 0xFFFC) := by
  refine ⟨⟨by decide, by decide, by decide, by decide, by decide, by decide, by decide, by decide, by decide⟩, rfl⟩

theorem witness_families :
    exec .nop (cpu []) = .next (cpu []) ∧ writesMemory .nop = false ∧ writesPc .nop = false := ⟨rfl, by decide⟩

theorem witness_MemRead_clauses :
    (Size.two ≠ .one ∧ (0xFFFF : Word).toNat % 2 = 1) ∧ (0xFFFE : Word).toNat % 2 = 0 ∧ Size.one = .one := by decide

/-- The index FFFEh with the extension word 0002h: the pointer stands at 0. -/
def indexing : State := place (cpu [(2, 0xFFFE)]) 0x0102 0x0002

theorem witness_AddressingModes :
    fetchReady indexing.params.ieSize indexing ∧
      indexing.memRead (narrow indexing.n (indexing.x 2 + indexing.extensionWord)) indexing.T = .next 0 := by
  unfold fetchReady
  exact ⟨by decide, rfl⟩

theorem witness_stack_even_and_odd :
    ((cpu [(15, 0)]).x SP).getLsbD 0 = false ∧ ((cpu [(15, 0xFFFF)]).x SP).getLsbD 0 = true := by decide

theorem witness_StatusWord_layout :
    SrLayout.standard.distinct ∧ SrLayout.distinct { WF := 15, IF := 0, ZF := 1, VF := 2, CF := 3, NF := 14 } := by decide

theorem witness_DivWrites : (cpu [(2, 0xFFFF)]).x 2 ≠ 0 ∧ (3 : Reg) ≠ 1 := by decide

theorem witness_TwoWord : (2 : Reg) ≠ 3 ∧ (2 : Reg) ≠ 4 ∧ (2 : Reg) ≠ 5 ∧ (5 : Reg) ≠ 4 := by decide

theorem witness_SwbAndRlb_sizes : (cpu []).params.size = .n16 ∧ (cpu32 []).params.size = .n32 := by decide

theorem witness_ShiftsAndRotates_sra : after (exec (.sra 1 2) (cpu [(1, 0x8000)])) (fun t => t.x 2) = some 0xC000 := by decide

theorem witness_AniAndAdi : fetchReady (cpu []).params.ieSize (cpu []) := by unfold fetchReady; decide

theorem witness_ExtExtendsTheSign :
    (1 ≤ (cpu []).params.extSrcBits ∧ (cpu []).params.extSrcBits ≤ (cpu []).n) ∧
      (1 ≤ (cpu32 []).params.extSrcBits ∧ (cpu32 []).params.extSrcBits ≤ (cpu32 []).n) := by decide

theorem witness_ConditionsAfterCmp :
    exec (.cmp 1 2) (cpu [(1, 0x8000), (2, 1)]) =
      .next (withFlags (cpu [(1, 0x8000), (2, 1)]) false false false true false false) := rfl

theorem witness_transfers_memory :
    transferExists .two (cpu [(2, 0x2000)]) ∧ (Mode.postIncrement.autoModifies = true → (1 : Reg) ≠ 2) ∧
      operandReady .postIncrement 2 .two (cpu [(2, 0x2000)]) ∧
      effectiveAddress .postIncrement 2 .two (cpu [(2, 0x2000)]) = some 0x2000 := by
  refine ⟨nofun, by decide, ⟨⟨nofun, by decide⟩, ?_⟩, by decide⟩
  show misaligned .two 0x2000 = false; decide

theorem witness_transfers_extension_word :
    transferExists .four (cpu32 []) ∧ operandReady .immediate 0 .four (cpu32 []) ∧
      operandReady .direct 0 .four (cpu32 []) ∧ effectiveAddress .direct 0 .four (cpu32 []) = some 0 := by
  refine ⟨fun _ => rfl, ⟨⟨fun _ => ?_, by decide⟩, ?_⟩, ⟨⟨fun _ => ?_, by decide⟩, ?_⟩, by decide⟩
  · unfold fetchReady; decide
  · show Size.four.bytes ≤ Size.four.bytes; decide
  · unfold fetchReady; decide
  · show misaligned .four 0 = false; decide

theorem witness_transfers_odd_operand :
    transferExists .two (cpu [(2, 0xFFFF)]) ∧ (Mode.indirect.autoModifies = true → (1 : Reg) ≠ 2) ∧
      (Mode.indirect.hasExtension = true → fetchReady .two (cpu [(2, 0xFFFF)])) ∧
      effectiveAddress .indirect 2 .two (cpu [(2, 0xFFFF)]) = some 0xFFFF ∧ misaligned .two 0xFFFF = true :=
  ⟨nofun, nofun, nofun, by decide⟩

theorem witness_transfers_odd_pointer :
    transferExists .one (cpu [(2, 1)]) ∧ fetchReady (cpu [(2, 1)]).params.ieSize (cpu [(2, 1)]) ∧
      pointerMisaligned .indirectIndexed 2 (cpu [(2, 1)]) = true := by
  refine ⟨nofun, ?_, by decide⟩
  unfold fetchReady; decide

theorem witness_RefusedForms :
    transferExists .one (cpu []) ∧ Mode.preDecrement.autoModifies = true ∧ (cpu []).x 2 = 0 ∧ (cpu [(2, 1)]).x 2 ≠ 0 ∧
      (cpu []).params.size = .n16 := ⟨nofun, by decide⟩

/-- N = 32 with an extension word of 2 bytes. -/
def narrowIE : State := { cpu32 [] with params := { (cpu32 []).params with ieSize32 := .two } }

theorem witness_RefusedForms_narrow :
    narrowIE.params.size = .n32 ∧ narrowIE.params.ieSize32 = .two ∧ fetchReady .two narrowIE := by
  unfold fetchReady; decide

theorem witness_operand_register : addressReady .register 3 (cpu []) ∧ operandReady .register 3 .two (cpu []) :=
  ⟨⟨nofun, rfl⟩, ⟨⟨nofun, rfl⟩, trivial⟩⟩

theorem witness_ModeBranches_ready :
    displacementReady .indirect 3 (cpu [(3, 0xFFFE)]) ∧ displacementReady .immediate 0 narrowIE := by
  refine ⟨⟨⟨nofun, rfl⟩, ?_⟩, ⟨fun _ => ⟨by decide, by decide⟩, rfl⟩, .inl rfl⟩
  show misaligned .two 0xFFFE = false; decide

/-- A launch that refuses the immediate of a branch where it is wider than the extension word. -/
def narrowBranch : State := { narrowIE with params := { narrowIE.params with branchImmediate := .refuse } }

theorem witness_ModeBranches_narrow :
    narrowBranch.params.branchImmediate = .refuse ∧ narrowBranch.params.ieSize.bytes < narrowBranch.T.bytes ∧
      fetchReady narrowBranch.params.ieSize narrowBranch := ⟨rfl, by decide, by decide, by decide⟩

/-- `JMP #FFFEh` with a 2-byte extension word at N = 32: sign-extended (R200), or refused (R103). -/
theorem test_branch_immediate_narrow :
    after (exec (.jmp .immediate 0) (place narrowIE 0x0102 0xFFFE)) State.pc = some 0x0102 ∧
      exec (.jmp .immediate 0) (place narrowBranch 0x0102 0xFFFE) = .refused .immediateTooNarrow := ⟨by decide, rfl⟩

theorem witness_operand_odd :
    addressReady .indirect 3 (cpu [(3, 0xFFFF)]) ∧ operandUnaligned .indirect 3 .two (cpu [(3, 0xFFFF)]) :=
  ⟨⟨nofun, rfl⟩, .inr ⟨⟨nofun, rfl⟩, 0xFFFF, by decide⟩⟩

theorem witness_pointer_odd :
    pointerUnaligned .indirectIndexed 3 (cpu [(3, 1)]) ∧ operandUnaligned .indirectIndexed 3 .two (cpu [(3, 1)]) := by
  have h : pointerUnaligned .indirectIndexed 3 (cpu [(3, 1)]) := ⟨fun _ => ⟨by decide, by decide⟩, by decide⟩
  exact ⟨h, .inl h⟩

theorem witness_JeaJsrTrp :
    addressReady .preDecrement 15 (cpu [(15, 0x8000)]) ∧
      effectiveAddress .preDecrement 15 (cpu []).T (cpu [(15, 0x8000)]) = some 0x7FFE ∧
      ((afterOperand .preDecrement 15 (cpu []).T (cpu [(15, 0x8000)])).x SP).getLsbD 0 = false ∧
      operandReady .preDecrement 15 (cpu []).T (cpu [(15, 0x8000)]) := by
  refine ⟨⟨nofun, rfl⟩, by decide, by decide, ⟨nofun, rfl⟩, ?_⟩
  show misaligned .two 0x7FFE = false; decide

theorem witness_RtsReturnsFromJsr :
    after (exec (.jsr .indirect 15) (cpu [(15, 0x8000)])) (fun t => (t.pc, t.x 15)) = some (0x8000, 0x7FFE) := by decide

theorem witness_RtiUndoesTheEntry :
    State.reset.params.srLayout.distinct ∧
      after ((cpu [(15, 0)]).enter 5 0x0104) (fun t => t.x 15) = some 0xFFFC := by decide

/-- R15 odd, interrupts on, line 0 pending. -/
def oddStack : State := { withFlags (cpu [(15, 1)]) false true false false false false with pending := [0] }

theorem witness_OddStackPointer :
    (oddStack.x SP).getLsbD 0 = true ∧ oddStack.boundary.noReset ∧ oddStack.boundary.sr.IF = true ∧
      oddStack.boundary.pending ≠ [] ∧ (oddStack.boundary.x SP).getLsbD 0 = true := by
  unfold State.noReset; decide

theorem witness_OddStackPointer_operand :
    ((afterOperand .indirect 3 oddStack.T oddStack).x SP).getLsbD 0 = true ∧ addressReady .indirect 3 oddStack ∧
      operandReady .indirect 3 oddStack.T oddStack :=
  ⟨by decide, ⟨nofun, rfl⟩, ⟨nofun, rfl⟩, by show misaligned .two 0 = false; decide⟩

end Sys2Proof.Tests
end

section
/-! PROOF. The statements of `00_scope.md`: which instructions change WF and IF (R12), and what Push and Pop do (R13). -/

namespace Sys2Proof.Machine

/-! ## What the operations do to the flags and to the registers -/

@[simp] theorem result_WF (f : Flags) (w : Nat) (v : Word) (vf cf : Bool) : (f.result w v vf cf).WF = f.WF := rfl
@[simp] theorem result_IF (f : Flags) (w : Nat) (v : Word) (vf cf : Bool) : (f.result w v vf cf).IF = f.IF := rfl

@[simp] theorem afterOperand_sr (mode : Mode) (r : Reg) (z : Size) (s : State) : (afterOperand mode r z s).sr = s.sr :=
  (afterOperand_mem mode r z s).2.2

@[simp] theorem regWrite_sr (r : Reg) (z : Size) (d : Word) (s : State) : (regWrite r z d s).sr = s.sr := by
  obtain ⟨w, h⟩ := regWrite_eq_setX r z d s
  rw [h, setX_sr]

@[simp] theorem ioRead_sr (s : State) (p : Word) : (s.ioRead p).2.sr = s.sr := by
  unfold State.ioRead
  split <;> rfl

theorem writeLoc_sr {l : Loc} {z : Size} {d : Word} {s t : State} (h : writeLoc l z d s = .next t) : t.sr = s.sr := by
  obtain ⟨r, -, rfl⟩ | ⟨a, -, -, rfl⟩ := writeLoc_eq_next.1 h <;> simp

theorem push_sr {s t : State} {v : Word} (h : s.push v = .next t) : t.sr = s.sr := by
  obtain ⟨-, rfl⟩ := push_eq_next.1 h
  simp

theorem pop_sr {s : State} {p : Word × State} (h : s.pop = .next p) : p.2.sr = s.sr := by
  obtain ⟨-, rfl⟩ := pop_eq_next.1 h
  rfl

/-! ## Operands of the one-operand group -/

theorem evalDestination_eq_next {mode : Mode} {r : Reg} {s : State} {o : Operand} :
    evalDestination mode r s = .next o ↔ mode ≠ .immediate ∧ addressReady mode r s ∧
      o = ⟨location mode r s.T s, effectiveAddress mode r s.T s, afterOperand mode r s.T s⟩ := by
  rw [evalDestination, ite_refused_eq_next, evalMode_eq_next]

theorem evalAddress_eq_next {mode : Mode} {r : Reg} {s : State} {p : Word × State} :
    evalAddress mode r s = .next p ↔ mode ≠ .register ∧ mode ≠ .immediate ∧ addressReady mode r s ∧
      ∃ a, effectiveAddress mode r s.T s = some a ∧ p = (a, afterOperand mode r s.T s) := by
  simp only [evalAddress, ite_refused_eq_next, andThen_eq_next, evalMode_eq_next]
  cases h : effectiveAddress mode r s.T s <;> simp [next_eq_next, -Host.Outcome.next.injEq]

/-! ## The families of instructions: what each answers when it completes -/

theorem distinctRegisters_eq_true {mode : Mode} {a b : Reg} :
    mode.distinctRegisters a b = true ↔ ¬ (mode.autoModifies && a == b) = true := by
  rw [Mode.distinctRegisters, Bool.not_eq_true', Bool.not_eq_true]

theorem load_eq_next {z : Size} {a b : Reg} {mode : Mode} {s t : State} :
    load z a mode b s = .next t ↔ mode.distinctRegisters a b = true ∧ addressReady mode b s ∧
      locReady (location mode b z s) z (afterOperand mode b z s) ∧
      t = (regWrite a z (locValue (location mode b z s) z (afterOperand mode b z s)) (afterOperand mode b z s)).transferFlags
        z (locValue (location mode b z s) z (afterOperand mode b z s)) := by
  simp [load, ite_refused_eq_next, andThen_eq_next, evalMode_eq_next, readLoc_eq_next, next_eq_next,
    -Host.Outcome.next.injEq, -Bool.and_eq_true, and_assoc, distinctRegisters_eq_true]

theorem store_eq_next {z : Size} {a b : Reg} {mode : Mode} {s t : State} :
    store z a mode b s = .next t ↔ mode ≠ .immediate ∧ mode.distinctRegisters a b = true ∧ addressReady mode b s ∧
      ∃ u, writeLoc (location mode b z s) z (narrow z.bits (s.x a)) (afterOperand mode b z s) = .next u ∧
        t = u.transferFlags z (narrow z.bits (s.x a)) := by
  simp [store, ite_refused_eq_next, andThen_eq_next, evalMode_eq_next, next_eq_next,
    -Host.Outcome.next.injEq, -Bool.and_eq_true, and_assoc, distinctRegisters_eq_true]

theorem branchMode_eq_next {c : Cond} {mode : Mode} {r : Reg} {s t : State} :
    branchMode c mode r s = .next t ↔ addressReady mode r s ∧
      ∃ disp, readDisplacement (location mode r s.T s) (afterOperand mode r s.T s) = .next disp ∧
        t = if c.holds s.sr then (afterOperand mode r s.T s).setPc ((afterOperand mode r s.T s).pc + disp)
          else afterOperand mode r s.T s := by
  simp [branchMode, andThen_eq_next, evalMode_eq_next, next_eq_next, -Host.Outcome.next.injEq, and_assoc]

/-! ## WF and IF (R12, R33, R34) -/

/-- From `s` to `t` WF and IF stay. -/
def KeepsModes (s t : State) : Prop := t.sr.WF = s.sr.WF ∧ t.sr.IF = s.sr.IF

theorem KeepsModes.of_sr {s t : State} (h : t.sr = s.sr) : KeepsModes s t := by simp [KeepsModes, h]

/-- Writing the result flags of a value leaves WF and IF (R12). -/
theorem KeepsModes.of_result {s t : State} {w : Nat} {v : Word} {vf cf : Bool} (h : t.sr = s.sr.result w v vf cf) :
    KeepsModes s t := by simp [KeepsModes, h]

theorem writeSum_keepsModes {d : Reg} {r : Sum} {s t : State} (h : writeSum d r s = .next t) : KeepsModes s t := by
  obtain rfl := next_eq_next.1 h
  exact .of_result rfl

theorem writeLogic_keepsModes {d : Reg} {v : Word} {s t : State} (h : writeLogic d v s = .next t) : KeepsModes s t := by
  obtain rfl := next_eq_next.1 h
  exact .of_result rfl

theorem execDiv_keepsModes {sa sb d : Reg} {s t : State} (h : execDiv sa sb d s = .next t) : KeepsModes s t := by
  simp only [execDiv, ite_fault_eq_next, ite_refused_eq_next, next_eq_next] at h
  obtain ⟨-, -, rfl⟩ := h
  exact .of_result rfl

theorem execInp_keepsModes {r d : Reg} {s t : State} (h : execInp r d s = .next t) : KeepsModes s t := by
  obtain rfl := next_eq_next.1 h
  exact .of_result (by rw [setResult_sr, setX_sr, ioRead_sr])

theorem execSwb_keepsModes {r d : Reg} {s t : State} (h : execSwb r d s = .next t) : KeepsModes s t := by
  simp only [execSwb] at h
  split at h
  · exact writeLogic_keepsModes h
  · exact writeLogic_keepsModes (s := s.drawn) h

theorem execRlb_keepsModes {r d : Reg} {s t : State} (h : execRlb r d s = .next t) : KeepsModes s t := by
  simp only [execRlb] at h
  split at h
  · cases h
  · exact writeLogic_keepsModes h

theorem execAni_keepsModes {r d : Reg} {s t : State} (h : execAni r d s = .next t) : KeepsModes s t := by
  obtain ⟨s1, hf, h⟩ := andThen_eq_next.1 h
  obtain ⟨-, rfl⟩ := fetchIE_eq_next.1 hf
  exact writeLogic_keepsModes (s := s.setPc _) h

theorem execAdi_keepsModes {r d : Reg} {s t : State} (h : execAdi r d s = .next t) : KeepsModes s t := by
  obtain ⟨s1, hf, h⟩ := andThen_eq_next.1 h
  obtain ⟨-, rfl⟩ := fetchIE_eq_next.1 hf
  exact writeSum_keepsModes (s := s.setPc _) h

theorem load_keepsModes {z : Size} {a b : Reg} {mode : Mode} {s t : State} (h : load z a mode b s = .next t) :
    KeepsModes s t := by
  obtain ⟨-, -, -, rfl⟩ := load_eq_next.1 h
  exact .of_result (by rw [transferFlags_sr, regWrite_sr, afterOperand_sr])

theorem store_keepsModes {z : Size} {a b : Reg} {mode : Mode} {s t : State} (h : store z a mode b s = .next t) :
    KeepsModes s t := by
  obtain ⟨-, -, -, u, hu, rfl⟩ := store_eq_next.1 h
  exact .of_result (by rw [transferFlags_sr, writeLoc_sr hu, afterOperand_sr])

theorem execLdl_keepsModes {a b : Reg} {mode : Mode} {s t : State} (h : execLdl a mode b s = .next t) :
    KeepsModes s t := by
  simp only [execLdl] at h
  split at h
  · cases h
  · exact load_keepsModes h

theorem execStl_keepsModes {a b : Reg} {mode : Mode} {s t : State} (h : execStl a mode b s = .next t) :
    KeepsModes s t := by
  simp only [execStl] at h
  split at h
  · cases h
  · exact store_keepsModes h

theorem branchMode_keepsModes {c : Cond} {mode : Mode} {r : Reg} {s t : State} (h : branchMode c mode r s = .next t) :
    KeepsModes s t := by
  obtain ⟨-, disp, -, rfl⟩ := branchMode_eq_next.1 h
  exact .of_sr (by split <;> simp)

theorem branchShort_keepsModes {c : Cond} {value : BitVec 8} {s t : State} (h : branchShort c value s = .next t) :
    KeepsModes s t := by
  obtain rfl := next_eq_next.1 h
  exact .of_sr (by split <;> rfl)

theorem execJpa_keepsModes {mode : Mode} {r : Reg} {s t : State} (h : execJpa mode r s = .next t) : KeepsModes s t := by
  obtain ⟨p, hp, h⟩ := andThen_eq_next.1 h
  obtain ⟨-, -, rfl⟩ := readOperand_eq_next.1 hp
  obtain rfl := next_eq_next.1 h
  exact .of_sr (by simp)

theorem execJea_keepsModes {mode : Mode} {r : Reg} {s t : State} (h : execJea mode r s = .next t) : KeepsModes s t := by
  obtain ⟨p, hp, h⟩ := andThen_eq_next.1 h
  obtain ⟨-, -, -, a, -, rfl⟩ := evalAddress_eq_next.1 hp
  obtain rfl := next_eq_next.1 h
  exact .of_sr (by simp)

theorem execJsr_keepsModes {mode : Mode} {r : Reg} {s t : State} (h : execJsr mode r s = .next t) : KeepsModes s t := by
  obtain ⟨p, hp, h⟩ := andThen_eq_next.1 h
  obtain ⟨-, -, -, a, -, rfl⟩ := evalAddress_eq_next.1 hp
  obtain ⟨u, hu, h⟩ := andThen_eq_next.1 h
  obtain rfl := next_eq_next.1 h
  exact .of_sr (by rw [setPc_sr, push_sr hu, afterOperand_sr])

theorem execTst_keepsModes {mode : Mode} {r : Reg} {s t : State} (h : execTst mode r s = .next t) : KeepsModes s t := by
  obtain ⟨p, hp, h⟩ := andThen_eq_next.1 h
  obtain ⟨-, -, rfl⟩ := readOperand_eq_next.1 hp
  obtain rfl := next_eq_next.1 h
  exact .of_result (by rw [testFlags_sr, afterOperand_sr])

theorem execTsr_keepsModes {mode : Mode} {r : Reg} {s t : State} (h : execTsr mode r s = .next t) : KeepsModes s t := by
  obtain ⟨o, ho, h⟩ := andThen_eq_next.1 h
  obtain ⟨-, -, rfl⟩ := evalDestination_eq_next.1 ho
  obtain ⟨v, -, h⟩ := andThen_eq_next.1 h
  exact .of_result (by rw [writeLoc_sr h, testFlags_sr, afterOperand_sr])

/-- MSR and MPC write a word to their destination and leave SR (R227, R228). -/
theorem writeDestination_keepsModes {mode : Mode} {r : Reg} {value : Operand → Word} {s t : State}
    (h : andThen (evalDestination mode r s) (fun o => writeLoc o.loc s.T (value o) o.state) = .next t) :
    KeepsModes s t := by
  obtain ⟨o, ho, h⟩ := andThen_eq_next.1 h
  obtain ⟨-, -, rfl⟩ := evalDestination_eq_next.1 ho
  exact .of_sr (by rw [writeLoc_sr h, afterOperand_sr])

theorem execRts_keepsModes {s t : State} (h : execRts s = .next t) : KeepsModes s t := by
  obtain ⟨p, hp, h⟩ := andThen_eq_next.1 h
  obtain rfl := next_eq_next.1 h
  exact .of_sr (by rw [setPc_sr, pop_sr hp])

/-- The entry of an exception clears IF and leaves the other flags (R304). -/
theorem enter_sr {s t : State} {num : Nat} {ret : Word} (h : s.enter num ret = .next t) :
    t.sr = { s.sr with IF := false } := by
  obtain ⟨s1, s2, h1, h2, rfl⟩ := enter_eq_next.1 h
  rw [setPc_sr, push_sr h2, inhibit_sr, push_sr h1]

theorem execTrp_sr {mode : Mode} {r : Reg} {s t : State} (h : execTrp mode r s = .next t) :
    t.sr = { s.sr with IF := false } := by
  obtain ⟨p, hp, h⟩ := andThen_eq_next.1 h
  obtain ⟨-, -, rfl⟩ := readOperand_eq_next.1 hp
  rw [enter_sr h, afterOperand_sr]

/-- Settles O14: each instruction but HLT, RTI, DSI, ENI and TRP keeps WF and IF by the lemma of its family. -/
theorem onlyTheseInstructionsChangeIFAndWF : Obligations.OnlyTheseInstructionsChangeIFAndWF := by
  unfold Obligations.OnlyTheseInstructionsChangeIFAndWF
  intro i s t h
  have kept : KeepsModes s t → (t.sr.WF = s.sr.WF ∨ i = .hlt ∨ i = .rti) ∧
      (t.sr.IF = s.sr.IF ∨ i = .dsi ∨ i = .eni ∨ i = .rti ∨ ∃ m r, i = .trp m r) := .imp .inl .inl
  cases i with
  | hlt => obtain rfl := next_eq_next.1 h; exact ⟨.inr (.inl rfl), .inl rfl⟩
  | rti => exact ⟨.inr (.inr rfl), .inr (.inr (.inr (.inl rfl)))⟩
  | dsi => obtain rfl := next_eq_next.1 h; exact ⟨.inl rfl, .inr (.inl rfl)⟩
  | eni => obtain rfl := next_eq_next.1 h; exact ⟨.inl rfl, .inr (.inr (.inl rfl))⟩
  | trp m r => exact ⟨.inl (by rw [execTrp_sr h]), .inr (.inr (.inr (.inr ⟨m, r, rfl⟩)))⟩
  | adc | add | sub | sbb | neg | adq => exact kept (writeSum_keepsModes h)
  | xor | and | or | not | ext | ldq => exact kept (writeLogic_keepsModes h)
  | rlc | rrc | srl | sra | shl | mul | out | cmp => obtain rfl := next_eq_next.1 h; exact kept (.of_result rfl)
  | div => exact kept (execDiv_keepsModes h)
  | inp => exact kept (execInp_keepsModes h)
  | swb => exact kept (execSwb_keepsModes h)
  | rlb => exact kept (execRlb_keepsModes h)
  | ani => exact kept (execAni_keepsModes h)
  | adi => exact kept (execAdi_keepsModes h)
  | ldb | ldw => exact kept (load_keepsModes h)
  | ldl => exact kept (execLdl_keepsModes h)
  | stb | stw => exact kept (store_keepsModes h)
  | stl => exact kept (execStl_keepsModes h)
  | jmp | jeq | jne | jge | jle | jgt | jlw | jae | jbe | jab | jbl | jvs | jvc =>
    exact kept (branchMode_keepsModes h)
  | jqmp | jqeq | jqne | jqge | jqle | jqgt | jqlw | jqae | jqbe | jqab | jqbl | jqvs | jqvc =>
    exact kept (branchShort_keepsModes h)
  | jpa => exact kept (execJpa_keepsModes h)
  | jea => exact kept (execJea_keepsModes h)
  | jsr => exact kept (execJsr_keepsModes h)
  | tst => exact kept (execTst_keepsModes h)
  | tsr => exact kept (execTsr_keepsModes h)
  | msr | mpc => exact kept (writeDestination_keepsModes h)
  | rts => exact kept (execRts_keepsModes h)
  | nop | clc | stc => obtain rfl := next_eq_next.1 h; exact kept ⟨rfl, rfl⟩

/-! ## The stack (R13) -/

/-- The bytes of a word that is read are the bytes at its address, the most significant first (R56). -/
theorem holdsWord_bytesAt (s : State) (a : Word) {k : Nat} (hk : k ≤ 4) : holdsWord s a k (s.bytesAt a k) := by
  induction k with
  | zero => intro j hj; omega
  | succ k ih =>
    intro j hj
    by_cases e : j = k
    · subst e
      ext i hi
      simp [State.bytesAt]
    · rw [ih (by omega) j (by omega)]
      ext i hi
      have hlow : ¬ 8 * (k - j) + i < 8 := by omega
      have hin : 8 * (k - j) + i < 32 := by omega
      have hidx : 8 * (k - j) + i - 8 = 8 * (k - 1 - j) + i := by omega
      have hin' : 8 * (k - 1 - j) + i < 32 := by omega
      have hbyte : (s.byteAt (s.addrAt a k)).getLsbD (8 * (k - j) + i) = false :=
        BitVec.getLsbD_of_ge _ _ (by omega)
      simp [State.bytesAt, hlow, hin, hidx, hbyte, BitVec.getLsbD_eq_getElem hin']

theorem bytesAt_lt (s : State) (a : Word) (k : Nat) : (s.bytesAt a k).toNat < 2 ^ (8 * k) := by
  induction k with
  | zero => simp [State.bytesAt]
  | succ k ih =>
    have hbyte : (s.byteAt (s.addrAt a k)).toNat < 2 ^ (8 * (k + 1)) :=
      Nat.lt_of_lt_of_le (s.byteAt _).isLt (Nat.pow_le_pow_right (by omega) (by omega))
    have hshift : (s.bytesAt a k <<< 8).toNat < 2 ^ (8 * (k + 1)) := by
      rw [BitVec.toNat_shiftLeft, Nat.shiftLeft_eq, Nat.mul_succ 8, Nat.pow_add]
      exact Nat.lt_of_le_of_lt (Nat.mod_le _ _) (by omega)
    rw [State.bytesAt, BitVec.toNat_or]
    exact Nat.or_lt_two_pow hshift (by rw [BitVec.toNat_setWidth]; omega)

/-- A CPU word has N bits in T bytes, and T is at most 4 (R2). -/
theorem T_bytes (s : State) : 8 * s.T.bytes = s.n ∧ s.T.bytes ≤ 4 := by
  rcases s.n_cases with ⟨_, hn, hT⟩ | ⟨_, hn, hT⟩ <;> simp [hn, hT, Size.bytes]

theorem misaligned_of_even {z : Size} {a : Word} (h : a.getLsbD 0 = false) : misaligned z a = false := by
  rw [misaligned, h, Bool.and_false]

theorem getLsbD_zero_eq_false {a : Word} : a.getLsbD 0 = false ↔ a.toNat % 2 = 0 := by
  rw [BitVec.getLsbD, Nat.testBit_zero, decide_eq_false_iff_not]
  omega

/-- Below an even stack pointer there is an even word (R13). -/
theorem pushAddr_even {s : State} (h : (s.x SP).getLsbD 0 = false) : s.pushAddr.getLsbD 0 = false := by
  rw [getLsbD_zero_eq_false] at h ⊢
  rw [State.pushAddr, narrow_toNat, BitVec.toNat_sub, BitVec.toNat_ofNat]
  rcases s.n_cases with ⟨_, hn, hT⟩ | ⟨_, hn, hT⟩ <;> simp only [hn, hT, Size.bytes] <;> omega

/-- With R15 even a push completes, in the state that the two writes of R13 leave. -/
theorem push_of_even {s : State} (v : Word) (h : (s.x SP).getLsbD 0 = false) :
    s.push v = .next ((s.setX SP s.pushAddr).storeBytes s.pushAddr v s.T.bytes) :=
  push_eq_next.2 ⟨misaligned_of_even (pushAddr_even h), rfl⟩

theorem pop_of_even {s : State} (h : (s.x SP).getLsbD 0 = false) :
    s.pop = .next (s.bytesAt (s.x SP) s.T.bytes, s.setX SP (s.x SP + BitVec.ofNat 32 s.T.bytes)) :=
  pop_eq_next.2 ⟨misaligned_of_even h, rfl⟩

/-- A register write changes that register and nothing else. -/
theorem setX_changesOnly (s : State) (r : Reg) (v : Word) : changesOnly [r] noByte s.pc s.sr s (s.setX r v) where
  left := rfl
  right := ⟨rfl,
    { params := rfl, rstLow := rfl, inError := rfl, schedule := rfl, pending := rfl
      reg := fun q hq => by rw [setX_x, if_neg (by simpa using hq)]
      byte := fun _ _ => rfl
      written := fun _ => by simp [noByte] },
    rfl, rfl, rfl⟩

/-- A memory write changes the bytes at its address and nothing else (R57). -/
theorem storeBytes_changesOnly (s : State) (a v : Word) (k : Nat) :
    changesOnly [] (inBytes s a k) s.pc s.sr s (s.storeBytes a v k) where
  left := storeBytes_pc s a v k
  right := ⟨storeBytes_sr s a v k,
    { params := storeBytes_params s a v k, rstLow := storeBytes_rstLow s a v k, inError := storeBytes_inError s a v k
      schedule := storeBytes_schedule s a v k, pending := storeBytes_pending s a v k
      reg := fun q _ => storeBytes_x s a v k q
      byte := fun _ hb => storeBytes_byteAt_other fun j hj e => hb ⟨j, hj, e⟩
      written := fun _ => mem_storeBytes_written },
    storeBytes_portIn s a v k, storeBytes_portOut s a v k, storeBytes_draws s a v k⟩

/-- A memory write leaves the value at its address (R57). -/
theorem holdsWord_storeBytes (s : State) (a v : Word) {k : Nat} (hk : k ≤ 4) : holdsWord (s.storeBytes a v k) a k v :=
  fun _ hj => by rw [storeBytes_addrAt, storeBytes_byteAt hk hj]

/-- Frames compose: what neither of two passages changes, the two together do not change. -/
theorem changesOnly.trans {regs regs' : List Reg} {stored stored' : Nat → Prop} {pc pc' : Word} {f f' : Flags}
    {s t u : State} (h : changesOnly regs stored pc f s t) (h' : changesOnly regs' stored' pc' f' t u) :
    changesOnly (regs ++ regs') (fun b => stored b ∨ stored' b) pc' f' s u := by
  obtain ⟨-, -, k, q⟩ := h
  obtain ⟨hpc, hsr, k', q'⟩ := h'
  obtain ⟨hin, hout, hdraws⟩ := q
  obtain ⟨hin', hout', hdraws'⟩ := q'
  refine ⟨hpc, hsr, ?_, hin'.trans hin, hout'.trans hout, hdraws'.trans hdraws⟩
  exact
    { params := k'.params.trans k.params, rstLow := k'.rstLow.trans k.rstLow, inError := k'.inError.trans k.inError
      schedule := k'.schedule.trans k.schedule, pending := k'.pending.trans k.pending
      reg := fun r hr => by
        obtain ⟨h1, h2⟩ := not_or.1 (mt List.mem_append.2 hr)
        rw [k'.reg r h2, k.reg r h1]
      byte := fun b hb => by
        obtain ⟨h1, h2⟩ := not_or.1 hb
        rw [k'.byte b h2, k.byte b h1]
      written := fun b => by rw [k'.written, k.written, or_assoc] }

/-- Push(v) changes R15 and the word below the last one pushed (R13). -/
theorem push_changesOnly (s : State) (v : Word) :
    changesOnly [SP] (inBytes s s.pushAddr s.T.bytes) s.pc s.sr s
      ((s.setX SP s.pushAddr).storeBytes s.pushAddr v s.T.bytes) := by
  have hstored : inBytes s s.pushAddr s.T.bytes =
      fun b => noByte b ∨ inBytes (s.setX SP s.pushAddr) s.pushAddr s.T.bytes b := by
    funext b
    simp [noByte, inBytes]
  rw [hstored]
  exact (setX_changesOnly s SP s.pushAddr).trans (storeBytes_changesOnly (s.setX SP s.pushAddr) s.pushAddr v s.T.bytes)

/-- Settles O20: the push writes R15 and then the word below it, the pop reads the word and then writes R15. -/
theorem pushAndPopMoveTheStackPointer : Obligations.PushAndPopMoveTheStackPointer := by
  unfold Obligations.PushAndPopMoveTheStackPointer
  intro s v h
  obtain ⟨hbits, hbytes⟩ := T_bytes s
  constructor
  · have hsp : ((s.setX SP s.pushAddr).storeBytes s.pushAddr v s.T.bytes).x SP = s.pushAddr := by
      simp [State.pushAddr]
    refine ⟨_, push_of_even v h, hsp, ?_, ?_⟩ <;> rw [hsp]
    · exact holdsWord_storeBytes _ _ _ hbytes
    · exact push_changesOnly s v
  · refine ⟨_, _, pop_of_even h, holdsWord_bytesAt s _ hbytes, ?_, by simp, setX_changesOnly s SP _⟩
    exact hbits ▸ bytesAt_lt s _ _

end Sys2Proof.Machine
end

section
/-! PROOF. The statements of `10_state.md`: what every step keeps (R20, R24, R41), the PC (R25), SR as a word (R35, R36), RTI,
Reset (R37, R43) and the environment's moves (R312). -/

namespace Sys2Proof.Machine

/-! ## What an instruction can do to the state

Every instruction is a sequence of the named updates. The four that not every instruction may use are an `Access` each; the
case analysis over the instructions is made once, in `exec_updates`. -/

/-- What only some instructions do: write the PC besides its advance (R25), write memory (R51), read or write a port (R52). -/
inductive Access where
  | pc
  | memory
  | input
  | output

/-- What an instruction may do of these. -/
def accessOf (i : Instr) : Access → Prop
  | .pc => writesPc i = true
  | .memory => writesMemory i = true
  | .input => ∃ r d, i = .inp r d
  | .output => ∃ r d, i = .out r d

/-- From `s` to a state by the named updates, those of an `Access` only where `p` allows it. -/
inductive Updates (p : Access → Prop) (s : State) : State → Prop
  | refl : Updates p s s
  | setX {t : State} (r : Reg) (v : Word) : Updates p s t → Updates p s (t.setX r v)
  | setSr {t : State} (f : Flags) : Updates p s t → Updates p s (t.setSr f)
  | drawn {t : State} : Updates p s t → Updates p s t.drawn
  | setPc {t : State} (v : Word) : p .pc → Updates p s t → Updates p s (t.setPc v)
  | storeBytes {t : State} (a v : Word) (k : Nat) : p .memory → Updates p s t → Updates p s (t.storeBytes a v k)
  | ioRead {t : State} (port : Word) : p .input → Updates p s t → Updates p s (t.ioRead port).2
  | ioWrite {t : State} (port v : Word) : p .output → Updates p s t → Updates p s (t.ioWrite port v)

theorem Updates.trans {p : Access → Prop} {s t u : State} (h : Updates p s t) (h' : Updates p t u) : Updates p s u := by
  induction h' with
  | refl => exact h
  | setX r v _ ih => exact ih.setX r v
  | setSr f _ ih => exact ih.setSr f
  | drawn _ ih => exact ih.drawn
  | setPc v hp _ ih => exact ih.setPc v hp
  | storeBytes a v k hm _ ih => exact ih.storeBytes a v k hm
  | ioRead port hi _ ih => exact ih.ioRead port hi
  | ioWrite port v ho _ ih => exact ih.ioWrite port v ho

/-- The PC past an extension word, if there is one (R92). -/
def State.past (s : State) (extension : Bool) : State :=
  if extension then s.setPc (s.pc + BitVec.ofNat 32 s.params.ieSize.bytes) else s

section
variable {p : Access → Prop} {s t : State}

/-! ### The shared operations -/

theorem past_updates (hp : p .pc) (extension : Bool) : Updates p s (s.past extension) := by
  unfold State.past
  split
  · exact .setPc _ hp .refl
  · exact .refl

theorem afterOperand_updates (mode : Mode) (r : Reg) (z : Size) :
    Updates p (s.past mode.hasExtension) (afterOperand mode r z s) := by
  cases mode with
  | postIncrement => exact .setX r _ .refl
  | preDecrement => exact .setX r _ .refl
  | immediate | register | indirect | direct | indexed | indirectIndexed => exact .refl

theorem regWrite_updates (r : Reg) (z : Size) (d : Word) : Updates p s (regWrite r z d s) := by
  obtain ⟨w, h⟩ := regWrite_eq_setX r z d s
  exact h ▸ .setX r w .refl

theorem writeLoc_updates {l : Loc} {z : Size} {d : Word} (hm : p .memory) (h : writeLoc l z d s = .next t) :
    Updates p s t := by
  obtain ⟨r, -, rfl⟩ | ⟨a, -, -, rfl⟩ := writeLoc_eq_next.1 h
  · exact regWrite_updates r z d
  · exact .storeBytes a d _ hm .refl

theorem push_updates {v : Word} (hm : p .memory) (h : s.push v = .next t) : Updates p s t := by
  obtain ⟨-, rfl⟩ := push_eq_next.1 h
  exact .storeBytes _ _ _ hm (.setX _ _ .refl)

theorem pop_updates {q : Word × State} (h : s.pop = .next q) : Updates p s q.2 := by
  obtain ⟨-, rfl⟩ := pop_eq_next.1 h
  exact .setX _ _ .refl

theorem enter_updates {num : Nat} {ret : Word} (hp : p .pc) (hm : p .memory) (h : s.enter num ret = .next t) :
    Updates p s t := by
  obtain ⟨s1, s2, h1, h2, rfl⟩ := enter_eq_next.1 h
  have hs1 : Updates p s s1.inhibit := .setSr _ (push_updates hm h1)
  exact .setPc _ hp (hs1.trans (push_updates hm h2))

theorem returnFromException_updates (hp : p .pc) (h : s.returnFromException = .next t) : Updates p s t := by
  obtain ⟨q, q', h1, h2, rfl⟩ := returnFromException_eq_next.1 h
  have hq : Updates p s (q.2.setPc q.1) := .setPc _ hp (pop_updates h1)
  exact .setSr _ (hq.trans (pop_updates h2))

/-! ### The families of instructions -/

theorem writeSum_updates {d : Reg} {r : Sum} (h : writeSum d r s = .next t) : Updates p s t := by
  obtain rfl := next_eq_next.1 h
  exact .setSr _ (.setX d r.res .refl)

theorem writeLogic_updates {d : Reg} {v : Word} (h : writeLogic d v s = .next t) : Updates p s t := by
  obtain rfl := next_eq_next.1 h
  exact .setSr _ (.setX d v .refl)

theorem writeShift_updates {d : Reg} {v : Word} {out : Bool} (h : writeShift d v out s = .next t) : Updates p s t := by
  obtain rfl := next_eq_next.1 h
  exact .setSr _ (.setX d v .refl)

theorem execMul_updates {sa sb d : Reg} (h : execMul sa sb d s = .next t) : Updates p s t := by
  obtain rfl := next_eq_next.1 h
  exact .drawn (.setSr _ (.setX d _ .refl))

theorem execDiv_updates {sa sb d : Reg} (h : execDiv sa sb d s = .next t) : Updates p s t := by
  simp only [execDiv, ite_fault_eq_next, ite_refused_eq_next, next_eq_next] at h
  obtain ⟨-, -, rfl⟩ := h
  exact .drawn (.setSr _ (.setX sa _ (.setX d _ .refl)))

theorem execInp_updates {r d : Reg} (hi : p .input) (h : execInp r d s = .next t) : Updates p s t :=
  (Updates.ioRead (s.x r) hi .refl).trans (writeLogic_updates h)

theorem execOut_updates {r d : Reg} (ho : p .output) (h : execOut r d s = .next t) : Updates p s t := by
  obtain rfl := next_eq_next.1 h
  exact .setSr _ (.ioWrite _ _ ho .refl)

theorem execCmp_updates {r d : Reg} (h : execCmp r d s = .next t) : Updates p s t := by
  obtain rfl := next_eq_next.1 h
  exact .setSr _ .refl

theorem execSwb_updates {r d : Reg} (h : execSwb r d s = .next t) : Updates p s t := by
  simp only [execSwb] at h
  split at h
  · exact writeLogic_updates h
  · exact (Updates.drawn .refl).trans (writeLogic_updates h)

theorem execRlb_updates {r d : Reg} (h : execRlb r d s = .next t) : Updates p s t := by
  simp only [execRlb] at h
  split at h
  · cases h
  · exact writeLogic_updates h

theorem execAni_updates {r d : Reg} (h : execAni r d s = .next t) : Updates p (s.past true) t := by
  obtain ⟨s1, hf, h⟩ := andThen_eq_next.1 h
  obtain ⟨-, rfl⟩ := fetchIE_eq_next.1 hf
  exact writeLogic_updates h

theorem execAdi_updates {r d : Reg} (h : execAdi r d s = .next t) : Updates p (s.past true) t := by
  obtain ⟨s1, hf, h⟩ := andThen_eq_next.1 h
  obtain ⟨-, rfl⟩ := fetchIE_eq_next.1 hf
  exact writeSum_updates h

theorem load_updates {z : Size} {a b : Reg} {mode : Mode} (h : load z a mode b s = .next t) :
    Updates p (s.past mode.hasExtension) t := by
  obtain ⟨-, -, -, rfl⟩ := load_eq_next.1 h
  exact .setSr _ ((afterOperand_updates mode b z).trans (regWrite_updates a z _))

theorem store_updates {z : Size} {a b : Reg} {mode : Mode} (hm : p .memory) (h : store z a mode b s = .next t) :
    Updates p (s.past mode.hasExtension) t := by
  obtain ⟨-, -, -, u, hu, rfl⟩ := store_eq_next.1 h
  exact .setSr _ ((afterOperand_updates mode b z).trans (writeLoc_updates hm hu))

theorem execLdl_updates {a b : Reg} {mode : Mode} (h : execLdl a mode b s = .next t) :
    Updates p (s.past mode.hasExtension) t := by
  simp only [execLdl] at h
  split at h
  · cases h
  · exact load_updates h

theorem execStl_updates {a b : Reg} {mode : Mode} (hm : p .memory) (h : execStl a mode b s = .next t) :
    Updates p (s.past mode.hasExtension) t := by
  simp only [execStl] at h
  split at h
  · cases h
  · exact store_updates hm h

theorem branchMode_updates {c : Cond} {mode : Mode} {r : Reg} (hp : p .pc) (h : branchMode c mode r s = .next t) :
    Updates p (s.past mode.hasExtension) t := by
  obtain ⟨-, disp, -, rfl⟩ := branchMode_eq_next.1 h
  split
  · exact .setPc _ hp (afterOperand_updates mode r _)
  · exact afterOperand_updates mode r _

theorem branchShort_updates {c : Cond} {value : BitVec 8} (hp : p .pc) (h : branchShort c value s = .next t) :
    Updates p s t := by
  obtain rfl := next_eq_next.1 h
  split
  · exact .setPc _ hp .refl
  · exact .refl

theorem execJpa_updates {mode : Mode} {r : Reg} (hp : p .pc) (h : execJpa mode r s = .next t) :
    Updates p (s.past mode.hasExtension) t := by
  obtain ⟨q, hq, h⟩ := andThen_eq_next.1 h
  obtain ⟨-, -, rfl⟩ := readOperand_eq_next.1 hq
  obtain rfl := next_eq_next.1 h
  exact .setPc _ hp (afterOperand_updates mode r _)

theorem execJea_updates {mode : Mode} {r : Reg} (hp : p .pc) (h : execJea mode r s = .next t) :
    Updates p (s.past mode.hasExtension) t := by
  obtain ⟨q, hq, h⟩ := andThen_eq_next.1 h
  obtain ⟨-, -, -, a, -, rfl⟩ := evalAddress_eq_next.1 hq
  obtain rfl := next_eq_next.1 h
  exact .setPc _ hp (afterOperand_updates mode r _)

theorem execJsr_updates {mode : Mode} {r : Reg} (hp : p .pc) (hm : p .memory) (h : execJsr mode r s = .next t) :
    Updates p (s.past mode.hasExtension) t := by
  obtain ⟨q, hq, h⟩ := andThen_eq_next.1 h
  obtain ⟨-, -, -, a, -, rfl⟩ := evalAddress_eq_next.1 hq
  obtain ⟨u, hu, h⟩ := andThen_eq_next.1 h
  obtain rfl := next_eq_next.1 h
  exact .setPc _ hp ((afterOperand_updates mode r _).trans (push_updates hm hu))

theorem execTrp_updates {mode : Mode} {r : Reg} (hp : p .pc) (hm : p .memory) (h : execTrp mode r s = .next t) :
    Updates p (s.past mode.hasExtension) t := by
  obtain ⟨q, hq, h⟩ := andThen_eq_next.1 h
  obtain ⟨-, -, rfl⟩ := readOperand_eq_next.1 hq
  exact (afterOperand_updates mode r _).trans (enter_updates hp hm h)

theorem execTst_updates {mode : Mode} {r : Reg} (h : execTst mode r s = .next t) :
    Updates p (s.past mode.hasExtension) t := by
  obtain ⟨q, hq, h⟩ := andThen_eq_next.1 h
  obtain ⟨-, -, rfl⟩ := readOperand_eq_next.1 hq
  obtain rfl := next_eq_next.1 h
  exact .setSr _ (afterOperand_updates mode r _)

theorem execTsr_updates {mode : Mode} {r : Reg} (hm : p .memory) (h : execTsr mode r s = .next t) :
    Updates p (s.past mode.hasExtension) t := by
  obtain ⟨o, ho, h⟩ := andThen_eq_next.1 h
  obtain ⟨-, -, rfl⟩ := evalDestination_eq_next.1 ho
  obtain ⟨v, -, h⟩ := andThen_eq_next.1 h
  exact (Updates.setSr _ (afterOperand_updates mode r _)).trans (writeLoc_updates hm h)

/-- MSR and MPC evaluate their destination and write a word to it (R227, R228). -/
theorem writeDestination_updates {mode : Mode} {r : Reg} {value : Operand → Word} (hm : p .memory)
    (h : andThen (evalDestination mode r s) (fun o => writeLoc o.loc s.T (value o) o.state) = .next t) :
    Updates p (s.past mode.hasExtension) t := by
  obtain ⟨o, ho, h⟩ := andThen_eq_next.1 h
  obtain ⟨-, -, rfl⟩ := evalDestination_eq_next.1 ho
  exact (afterOperand_updates mode r _).trans (writeLoc_updates hm h)

theorem execRts_updates (hp : p .pc) (h : execRts s = .next t) : Updates p s t := by
  obtain ⟨q, hq, h⟩ := andThen_eq_next.1 h
  obtain rfl := next_eq_next.1 h
  exact .setPc _ hp (pop_updates hq)

end

/-- Every instruction that completes leaves a state made by the named updates it may use, once the PC has gone past its
extension word (R25, R51, R52, R92). -/
theorem exec_updates {i : Instr} {s t : State} (h : exec i s = .next t) :
    Updates (accessOf i) (s.past i.hasExtension) t := by
  cases i with
  | adc | add | sub | sbb | neg | adq => exact writeSum_updates h
  | xor | and | or | not | ext | ldq => exact writeLogic_updates h
  | rlc | rrc | srl | sra | shl => exact writeShift_updates h
  | mul => exact execMul_updates h
  | div => exact execDiv_updates h
  | inp r d => exact execInp_updates ⟨r, d, rfl⟩ h
  | out r d => exact execOut_updates ⟨r, d, rfl⟩ h
  | cmp => exact execCmp_updates h
  | swb => exact execSwb_updates h
  | rlb => exact execRlb_updates h
  | ani => exact execAni_updates h
  | adi => exact execAdi_updates h
  | ldb | ldw => exact load_updates h
  | ldl => exact execLdl_updates h
  | stb | stw => exact store_updates rfl h
  | stl => exact execStl_updates rfl h
  | jmp | jeq | jne | jge | jle | jgt | jlw | jae | jbe | jab | jbl | jvs | jvc => exact branchMode_updates rfl h
  | jqmp | jqeq | jqne | jqge | jqle | jqgt | jqlw | jqae | jqbe | jqab | jqbl | jqvs | jqvc =>
    exact branchShort_updates rfl h
  | jpa => exact execJpa_updates rfl h
  | jea => exact execJea_updates rfl h
  | jsr => exact execJsr_updates rfl rfl h
  | trp => exact execTrp_updates rfl rfl h
  | tst => exact execTst_updates h
  | tsr => exact execTsr_updates rfl h
  | msr | mpc => exact writeDestination_updates rfl h
  | rts => exact execRts_updates rfl h
  | rti => exact returnFromException_updates rfl h
  | nop => obtain rfl := next_eq_next.1 h; exact .refl
  | hlt | clc | stc | dsi | eni => obtain rfl := next_eq_next.1 h; exact .setSr _ .refl

/-! ## What the updates leave unchanged -/

@[simp] theorem ioRead_params (s : State) (port : Word) : (s.ioRead port).2.params = s.params := by
  unfold State.ioRead; split <;> rfl
@[simp] theorem ioRead_regs (s : State) (port : Word) : (s.ioRead port).2.regs = s.regs := by
  unfold State.ioRead; split <;> rfl
@[simp] theorem ioRead_pc (s : State) (port : Word) : (s.ioRead port).2.pc = s.pc := by
  unfold State.ioRead; split <;> rfl
@[simp] theorem ioRead_mem (s : State) (port : Word) : (s.ioRead port).2.mem = s.mem := by
  unfold State.ioRead; split <;> rfl
@[simp] theorem ioRead_written (s : State) (port : Word) : (s.ioRead port).2.written = s.written := by
  unfold State.ioRead; split <;> rfl
@[simp] theorem ioRead_pending (s : State) (port : Word) : (s.ioRead port).2.pending = s.pending := by
  unfold State.ioRead; split <;> rfl
@[simp] theorem ioRead_rstLow (s : State) (port : Word) : (s.ioRead port).2.rstLow = s.rstLow := by
  unfold State.ioRead; split <;> rfl
@[simp] theorem ioRead_inError (s : State) (port : Word) : (s.ioRead port).2.inError = s.inError := by
  unfold State.ioRead; split <;> rfl
@[simp] theorem ioRead_schedule (s : State) (port : Word) : (s.ioRead port).2.schedule = s.schedule := by
  unfold State.ioRead; split <;> rfl
@[simp] theorem ioRead_portOut (s : State) (port : Word) : (s.ioRead port).2.portOut = s.portOut := by
  unfold State.ioRead; split <;> rfl

@[simp] theorem past_params (s : State) (e : Bool) : (s.past e).params = s.params := by cases e <;> rfl
@[simp] theorem past_pending (s : State) (e : Bool) : (s.past e).pending = s.pending := by cases e <;> rfl
@[simp] theorem past_rstLow (s : State) (e : Bool) : (s.past e).rstLow = s.rstLow := by cases e <;> rfl
@[simp] theorem past_schedule (s : State) (e : Bool) : (s.past e).schedule = s.schedule := by cases e <;> rfl
@[simp] theorem past_portIn (s : State) (e : Bool) : (s.past e).portIn = s.portIn := by cases e <;> rfl
@[simp] theorem past_portOut (s : State) (e : Bool) : (s.past e).portOut = s.portOut := by cases e <;> rfl

theorem past_pc (s : State) (e : Bool) :
    (s.past e).pc = if e then narrow s.n (s.pc + BitVec.ofNat 32 s.params.ieSize.bytes) else s.pc := by
  cases e <;> rfl

section
variable {p : Access → Prop} {s t : State}

/-- No update touches the launch parameters, the lines or a running Error handler: they are the environment's and the
exceptions' (R41, R308, R348). -/
theorem Updates.lines (h : Updates p s t) : t.params = s.params ∧ t.pending = s.pending ∧ t.rstLow = s.rstLow ∧
    t.schedule = s.schedule ∧ t.inError = s.inError := by
  induction h with
  | refl => simp
  | setX _ _ _ ih | setSr _ _ ih | drawn _ ih | setPc _ _ _ ih | storeBytes _ _ _ _ _ ih | ioRead _ _ _ ih
  | ioWrite _ _ _ _ ih => simpa using ih

theorem Updates.pc_eq (hp : ¬ p .pc) (h : Updates p s t) : t.pc = s.pc := by
  induction h with
  | refl => rfl
  | setPc _ hp' => exact absurd hp' hp
  | setX _ _ _ ih | setSr _ _ ih | drawn _ ih | storeBytes _ _ _ _ _ ih | ioRead _ _ _ ih
  | ioWrite _ _ _ _ ih => simpa using ih

theorem Updates.portIn_eq (hi : ¬ p .input) (h : Updates p s t) : t.portIn = s.portIn := by
  induction h with
  | refl => rfl
  | ioRead _ hi' => exact absurd hi' hi
  | setX _ _ _ ih | setSr _ _ ih | drawn _ ih | setPc _ _ _ ih | storeBytes _ _ _ _ _ ih
  | ioWrite _ _ _ _ ih => simpa using ih

theorem Updates.portOut_eq (ho : ¬ p .output) (h : Updates p s t) : t.portOut = s.portOut := by
  induction h with
  | refl => rfl
  | ioWrite _ _ ho' => exact absurd ho' ho
  | setX _ _ _ ih | setSr _ _ ih | drawn _ ih | setPc _ _ _ ih | storeBytes _ _ _ _ _ ih
  | ioRead _ _ _ ih => simpa using ih

end

/-- Settles O15: the updates an instruction may use reach a port only in INP and OUT, and the lines in none. -/
theorem onlyInpAndOutReachThePorts : Obligations.OnlyInpAndOutReachThePorts := by
  unfold Obligations.OnlyInpAndOutReachThePorts
  intro i s t h
  have hu := exec_updates h
  obtain ⟨-, hpending, hrst, hschedule, -⟩ := hu.lines
  refine ⟨by simpa using hpending, by simpa using hrst, by simpa using hschedule, ?_, ?_⟩
  · by_cases hi : accessOf i .input
    · exact .inr hi
    · exact .inl (by simpa using hu.portIn_eq hi)
  · by_cases ho : accessOf i .output
    · exact .inr ho
    · exact .inl (by simpa using hu.portOut_eq ho)

/-- Settles O17: where the updates may not write the PC, it is the one past the extension word. -/
theorem onlyTheseInstructionsWriteThePc : Obligations.OnlyTheseInstructionsWriteThePc := by
  unfold Obligations.OnlyTheseInstructionsWriteThePc
  intro i s t h hw
  have hpc : ¬ accessOf i .pc := by simp [accessOf, hw]
  rw [(exec_updates h).pc_eq hpc, past_pc]

/-! ## The invariant of the machine -/

/-- The invariant reads the parameters, the registers, the PC, memory, the written addresses and the pending lines only. -/
theorem State.Wf.congr {s t : State} (h : s.Wf) (hparams : t.params = s.params) (hregs : t.regs = s.regs)
    (hpc : t.pc = s.pc) (hmem : t.mem = s.mem) (hwritten : t.written = s.written) (hpending : t.pending = s.pending) :
    t.Wf := by
  have hn : t.n = s.n := by rw [State.n, hparams, State.n]
  constructor <;> simp only [hparams, hregs, hpc, hmem, hwritten, hpending, hn]
  exacts [h.params, h.regs, h.pc, h.mem, h.space, h.written, h.writtenSpace, h.pending, h.lines]

theorem State.Wf.setX {s : State} (h : s.Wf) (r : Reg) (v : Word) : (s.setX r v).Wf where
  __ := h
  regs q := by
    by_cases e : (r : Nat) = q
    · simpa [e] using narrow_lt s.n v
    · simpa [e] using h.regs q

theorem State.Wf.setPc {s : State} (h : s.Wf) (v : Word) : (s.setPc v).Wf where
  __ := h
  pc := narrow_lt s.n v

theorem State.Wf.storeByte {s : State} (h : s.Wf) {a : Nat} (ha : a < 2 ^ s.n) (v : Byte) : (s.storeByte a v).Wf where
  __ := h
  mem := Memory.write_wf a v h.mem
  space c hc := by
    obtain ⟨rfl, -⟩ | hc := Memory.mem_write hc
    · exact ha
    · exact h.space c hc
  written := insertAsc_pairwise h.written
  writtenSpace b hb := by
    obtain rfl | hb := mem_insertAsc.1 hb
    · exact ha
    · exact h.writtenSpace b hb

theorem addrAt_lt (s : State) (a : Word) (k : Nat) : s.addrAt a k < 2 ^ s.n := Nat.mod_lt _ (Nat.two_pow_pos _)

theorem State.Wf.storeBytes {s : State} (h : s.Wf) (a v : Word) (k : Nat) : (s.storeBytes a v k).Wf := by
  induction k generalizing v with
  | zero => exact h
  | succ k ih => exact (ih (v >>> 8)).storeByte (by simpa using addrAt_lt s a k) _

theorem Updates.wf {p : Access → Prop} {s t : State} (h : Updates p s t) (hs : s.Wf) : t.Wf := by
  induction h with
  | refl => exact hs
  | setX r v _ ih => exact ih.setX r v
  | setPc v _ _ ih => exact ih.setPc v
  | storeBytes a v k _ _ ih => exact ih.storeBytes a v k
  | setSr _ _ ih | drawn _ ih | ioWrite _ _ _ _ ih => exact ih.congr rfl rfl rfl rfl rfl rfl
  | ioRead _ _ _ ih => exact ih.congr (by simp) (by simp) (by simp) (by simp) (by simp) (by simp)

@[simp] theorem doReset_params (s : State) : s.doReset.params = s.params := by rw [State.doReset]
@[simp] theorem doReset_regs (s : State) (r : Reg) :
    s.doReset.regs[r] = narrow s.n (Config.resetRegister s.draws r) := by simp [State.doReset]
@[simp] theorem doReset_pc (s : State) : s.doReset.pc = narrow s.n s.params.startAddr := by rw [State.doReset]
@[simp] theorem doReset_sr (s : State) : s.doReset.sr = .clear := by rw [State.doReset]
@[simp] theorem doReset_mem (s : State) : s.doReset.mem = s.mem := by rw [State.doReset]
@[simp] theorem doReset_written (s : State) : s.doReset.written = s.written := by rw [State.doReset]
@[simp] theorem doReset_pending (s : State) : s.doReset.pending = [] := by rw [State.doReset]
@[simp] theorem doReset_inError (s : State) : s.doReset.inError = false := by rw [State.doReset]
@[simp] theorem doReset_n (s : State) : s.doReset.n = s.n := by rw [State.n, doReset_params, State.n]

theorem State.Wf.doReset {s : State} (h : s.Wf) : s.doReset.Wf := by
  constructor
  case params => rw [doReset_params]; exact h.params
  case regs => intro r; rw [doReset_regs, doReset_n]; exact narrow_lt _ _
  case pc => rw [doReset_pc, doReset_n]; exact narrow_lt _ _
  case mem => rw [doReset_mem]; exact h.mem
  case space => rw [doReset_mem, doReset_n]; exact h.space
  case written => rw [doReset_written]; exact h.written
  case writtenSpace => rw [doReset_written, doReset_n]; exact h.writtenSpace
  case pending => rw [doReset_pending]; exact .nil
  case lines => rw [doReset_pending]; exact nofun

theorem State.Wf.acknowledge {s : State} (h : s.Wf) (i : Nat) : (s.acknowledge i).Wf where
  __ := h
  pending := h.pending.filter _
  lines j hj := h.lines j (List.mem_of_mem_filter hj)

/-- An edge on a line that exists sets its pending bit (R41, R311). -/
theorem envMove_edge_of_lt {s : State} {i : Nat} (hi : i < s.params.nirq) :
    s.envMove (.edge i) = { s with pending := insertAsc i s.pending } := if_pos hi

/-- An edge on a line that does not exist does nothing (R311). -/
theorem envMove_edge_of_not_lt {s : State} {i : Nat} (hi : ¬ i < s.params.nirq) : s.envMove (.edge i) = s := if_neg hi

theorem State.Wf.envMove {s : State} (h : s.Wf) (m : EnvMove) : (s.envMove m).Wf := by
  cases m with
  | resetLine low => exact h.congr rfl rfl rfl rfl rfl rfl
  | edge i =>
    by_cases hi : i < s.params.nirq
    · rw [envMove_edge_of_lt hi]
      exact
        { h with
          pending := insertAsc_pairwise h.pending
          lines := fun j hj => by
            obtain rfl | hj := mem_insertAsc.1 hj
            · exact hi
            · exact h.lines j hj }
    · rwa [envMove_edge_of_not_lt hi]

/-! ## What every step keeps -/

/-- From `s` to `t` the launch parameters stay, no Error is raised, and the invariant is kept. -/
structure Preserves (s t : State) : Prop where
  params : t.params = s.params
  noError : s.inError = false → t.inError = false
  wf : s.Wf → t.Wf

theorem Preserves.refl (s : State) : Preserves s s := ⟨rfl, id, id⟩

theorem Preserves.trans {s t u : State} (h : Preserves s t) (h' : Preserves t u) : Preserves s u :=
  ⟨h'.params.trans h.params, h'.noError ∘ h.noError, h'.wf ∘ h.wf⟩

theorem Updates.preserves {p : Access → Prop} {s t : State} (h : Updates p s t) : Preserves s t := by
  obtain ⟨hparams, -, -, -, herror⟩ := h.lines
  exact ⟨hparams, herror.trans, h.wf⟩

theorem envMove_preserves (s : State) (m : EnvMove) : Preserves s (s.envMove m) := by
  obtain ⟨hparams, -, -, -, -, -, -, -, -, -, herror⟩ := envMove_fields s m
  exact ⟨hparams, herror.trans, (·.envMove m)⟩

theorem foldl_envMove_preserves (s : State) (l : List EnvMove) : Preserves s (l.foldl State.envMove s) := by
  induction l generalizing s with
  | nil => exact .refl s
  | cons m l ih => exact (envMove_preserves s m).trans (ih (s.envMove m))

theorem boundary_preserves (s : State) : Preserves s s.boundary := by
  unfold State.boundary
  split
  · exact .refl s
  · next rest _ =>
    have hs : Preserves s { s with schedule := rest } := ⟨rfl, id, fun h => h.congr rfl rfl rfl rfl rfl rfl⟩
    exact hs.trans (foldl_envMove_preserves _ _)

theorem passError_preserves (s : State) : Preserves s s.passError :=
  ⟨by simp, by simp, fun h => h.congr (by simp) (by simp) (by simp) (by simp) (by simp) (by simp)⟩

theorem doReset_preserves (s : State) : Preserves s s.doReset :=
  ⟨doReset_params s, fun _ => doReset_inError s, State.Wf.doReset⟩

theorem acceptInterrupt_preserves {s t : State} (hs : s.pending ≠ []) (h : s.acceptInterrupt = .next t) :
    Preserves s t := by
  obtain ⟨i, -, -, h⟩ := (acceptInterrupt_eq_next hs).1 h
  have hack : Preserves s (s.acknowledge i) := ⟨rfl, id, (·.acknowledge i)⟩
  have henter : Updates (fun _ => True) (s.acknowledge i) t := enter_updates trivial trivial h
  exact hack.trans henter.preserves

theorem runInstr_preserves {s t : State} (h : runInstr s = .next t) : Preserves s t := by
  obtain ⟨⟨i, s1⟩, hf, h⟩ := andThen_eq_next.1 h
  obtain ⟨-, -, rfl⟩ := fetchInstr_eq_next.1 hf
  have hfetch : Updates (fun _ => True) s ((s.setPc (s.pc + 2)).past i.hasExtension) :=
    (Updates.setPc _ trivial .refl).trans (past_updates trivial _)
  exact hfetch.preserves.trans (exec_updates h).preserves

theorem stepReady_preserves {s t : State} (h : stepReady s = .next t) : Preserves s t := by
  unfold stepReady at h
  split at h
  · next hpending => exact acceptInterrupt_preserves (by rintro e; simp [e] at hpending) h
  · split at h
    · obtain rfl := next_eq_next.1 h; exact .refl _
    · exact runInstr_preserves h

theorem step_preserves {s t : State} (h : step s = .next t) : Preserves s t := by
  apply (boundary_preserves s).trans
  unfold step stepCpu at h
  split at h
  · obtain rfl := next_eq_next.1 h; exact doReset_preserves _
  · exact (passError_preserves _).trans (stepReady_preserves h)

/-- Settles O12: the boundary, and then a Reset, an acceptance, waiting or an instruction, each preserve the invariant. -/
theorem stepKeepsTheInvariant : Obligations.StepKeepsTheInvariant := by
  unfold Obligations.StepKeepsTheInvariant
  intro s t h
  obtain ⟨hparams, herror, hwf⟩ := step_preserves h
  exact ⟨hparams, herror, hwf⟩

/-! ## The environment's moves (R41, R312, R340) -/

/-- The moves of a boundary change the pending bits and the level of `/RST` only. -/
theorem foldl_envMove_eq (s : State) (l : List EnvMove) :
    l.foldl State.envMove s =
      { s with pending := (l.foldl State.envMove s).pending, rstLow := (l.foldl State.envMove s).rstLow } := by
  have hfields := foldl_envMove_fields s l
  generalize l.foldl State.envMove s = t at hfields ⊢
  cases t
  simp_all

theorem envMove_edge_rstLow (s : State) (i : Nat) : (s.envMove (.edge i)).rstLow = s.rstLow := by
  by_cases hi : i < s.params.nirq
  · rw [envMove_edge_of_lt hi]
  · rw [envMove_edge_of_not_lt hi]

/-- Of the levels of `/RST` the last one set counts (log 45). -/
theorem foldl_envMove_rstLow (s : State) (l : List EnvMove) :
    (l.foldl State.envMove s).rstLow = (l.filterMap EnvMove.resetLevel).getLast?.getD s.rstLow := by
  induction l generalizing s with
  | nil => rfl
  | cons m l ih =>
    rw [List.foldl_cons, ih]
    cases m with
    | edge i =>
      simp [EnvMove.resetLevel, envMove_edge_rstLow]
    | resetLine low => simp [EnvMove.resetLevel, State.envMove, List.getLast?_cons]

/-- One move makes a line pending only if it is an edge on that line, which exists (R41, R311). -/
theorem mem_envMove_pending {s : State} {m : EnvMove} {i : Nat} :
    i ∈ (s.envMove m).pending ↔ i ∈ s.pending ∨ (i < s.params.nirq ∧ .edge i = m) := by
  cases m with
  | resetLine low => simp [State.envMove]
  | edge j =>
    by_cases hj : j < s.params.nirq
    · rw [envMove_edge_of_lt hj, mem_insertAsc, EnvMove.edge.injEq]
      constructor
      · rintro (rfl | h)
        exacts [.inr ⟨hj, rfl⟩, .inl h]
      · rintro (h | ⟨-, rfl⟩)
        exacts [.inr h, .inl rfl]
    · have hno : ¬ (i < s.params.nirq ∧ EnvMove.edge i = .edge j) := by
        rintro ⟨hi, e⟩
        exact hj (EnvMove.edge.inj e ▸ hi)
      rw [envMove_edge_of_not_lt hj, or_iff_left hno]

theorem mem_foldl_envMove_pending {s : State} {l : List EnvMove} {i : Nat} :
    i ∈ (l.foldl State.envMove s).pending ↔ i ∈ s.pending ∨ (i < s.params.nirq ∧ .edge i ∈ l) := by
  induction l generalizing s with
  | nil => simp
  | cons m l ih =>
    have hparams : (s.envMove m).params = s.params := (envMove_preserves s m).params
    rw [List.foldl_cons, ih, mem_envMove_pending, hparams, List.mem_cons]
    tauto

/-- A boundary takes the moves at the head of the schedule; an exhausted schedule has none. -/
theorem boundary_eq_foldl (s : State) :
    s.boundary = (s.schedule.headD []).foldl State.envMove { s with schedule := s.schedule.tail } := by
  obtain ⟨_, _, _, _, _, _, _, _, _, schedule, _, _, _⟩ := s
  cases schedule <;> rfl

/-- Settles O6: the boundary is a fold of the moves, of which each touches the pending bits or the level of `/RST`. -/
theorem boundaryMovesOnlyTheLines : Obligations.BoundaryMovesOnlyTheLines := by
  unfold Obligations.BoundaryMovesOnlyTheLines
  intro s
  rw [boundary_eq_foldl]
  exact ⟨foldl_envMove_eq _ _, foldl_envMove_rstLow _ _, fun _ => mem_foldl_envMove_pending⟩

/-! ## SR as a word (R35, R36) -/

theorem bitAt_getLsbD {i k : Nat} (hi : i < 32) (b : Bool) : (bitAt i b).getLsbD k = (b && decide (i = k)) := by
  cases b with
  | false => simp [bitAt]
  | true =>
    simp only [bitAt, if_true, BitVec.getLsbD_ofNat, Nat.testBit_two_pow, Bool.true_and]
    by_cases e : i = k
    · simp [← e, hi]
    · simp [e]

/-- Each bit of the SR word is the flags whose place it is. -/
theorem srWord_getLsbD (l : SrLayout) (f : Flags) (k : Nat) :
    (srWord l f).getLsbD k =
      ((f.WF && decide (l.WF.val = k)) || (f.IF && decide (l.IF.val = k)) || (f.ZF && decide (l.ZF.val = k)) ||
        (f.VF && decide (l.VF.val = k)) || (f.CF && decide (l.CF.val = k)) || (f.NF && decide (l.NF.val = k))) := by
  have hbit (i : Fin 16) (b : Bool) : (bitAt i b).getLsbD k = (b && decide (i.val = k)) := bitAt_getLsbD (by omega) b
  simp only [srWord, BitVec.getLsbD_or, hbit]

/-- Settles O21: at the place of one flag the other five, standing elsewhere, contribute nothing. -/
theorem statusWordHoldsTheFlags : Obligations.StatusWordHoldsTheFlags := by
  unfold Obligations.StatusWordHoldsTheFlags
  intro l f hdistinct
  constructor
  · simp only [SrLayout.distinct, List.nodup_cons, List.mem_cons, List.not_mem_nil, or_false, not_or, Fin.ext_iff]
      at hdistinct
    obtain ⟨⟨_, _, _, _, _⟩, ⟨_, _, _, _⟩, ⟨_, _, _⟩, ⟨_, _⟩, _, _⟩ := hdistinct
    simp only [srLoad, srWord_getLsbD]
    simp [*, eq_comm]
  · intro k hk
    simp only [List.forall_mem_cons] at hk
    obtain ⟨hWF, hIF, hZF, hVF, hCF, hNF, -⟩ := hk
    simp [srWord_getLsbD, hWF, hIF, hZF, hVF, hCF, hNF]

/-! ## RTI (R244, R315) -/

/-- The state once a word has been popped (R13). -/
def State.popped (s : State) : State := s.setX SP (s.x SP + BitVec.ofNat 32 s.T.bytes)

/-- The state once the PC and then SR have been popped (R244). -/
def State.returned (s : State) : State :=
  (s.popped.setPc (s.bytesAt (s.x SP) s.T.bytes)).popped.setSr
    (srLoad s.params.srLayout (s.bytesAt (s.popped.x SP) s.T.bytes))

@[simp] theorem popped_sp (s : State) : s.popped.x SP = narrow s.n (s.x SP + BitVec.ofNat 32 s.T.bytes) := by
  simp [State.popped]

/-- Above an even stack pointer there is an even word (R13). -/
theorem popped_sp_even {s : State} (h : (s.x SP).getLsbD 0 = false) : (s.popped.x SP).getLsbD 0 = false := by
  rw [getLsbD_zero_eq_false] at h ⊢
  rw [popped_sp, narrow_toNat, BitVec.toNat_add, BitVec.toNat_ofNat]
  rcases s.n_cases with ⟨_, hn, hT⟩ | ⟨_, hn, hT⟩ <;> simp only [hn, hT, Size.bytes] <;> omega

/-- With R15 even a return from an exception completes. -/
theorem returnFromException_of_even {s : State} (h : (s.x SP).getLsbD 0 = false) :
    s.returnFromException = .next s.returned := by
  have hsecond : ((s.popped.setPc (s.bytesAt (s.x SP) s.T.bytes)).x SP).getLsbD 0 = false := by
    simpa using popped_sp_even h
  have hbytes : (s.popped.setPc (s.bytesAt (s.x SP) s.T.bytes)).bytesAt (s.popped.x SP) s.T.bytes =
      s.bytesAt (s.popped.x SP) s.T.bytes := bytesAt_congr (s := s) (t := s.popped.setPc _) rfl (fun _ => rfl) _ _
  rw [returnFromException_eq_next]
  exact ⟨_, _, pop_of_even h, pop_of_even hsecond, by rw [State.returned, ← hbytes]; rfl⟩

theorem returned_pc (s : State) : s.returned.pc = s.bytesAt (s.x SP) s.T.bytes :=
  narrow_of_lt ((T_bytes s).1 ▸ bytesAt_lt s _ _)

theorem returned_sp (s : State) : s.returned.x SP = narrow s.n (s.x SP + BitVec.ofNat 32 (2 * s.T.bytes)) := by
  have htwo : BitVec.ofNat 32 (2 * s.T.bytes) = BitVec.ofNat 32 s.T.bytes + BitVec.ofNat 32 s.T.bytes := by
    rw [Nat.two_mul, BitVec.ofNat_add]
  calc s.returned.x SP
      = narrow s.n (narrow s.n (s.x SP + BitVec.ofNat 32 s.T.bytes) + BitVec.ofNat 32 s.T.bytes) := by
        simp [State.returned, State.popped]
    _ = narrow s.n (s.x SP + BitVec.ofNat 32 s.T.bytes + BitVec.ofNat 32 s.T.bytes) := by
        rw [← narrow_add_narrow s.n_le (narrow s.n _), narrow_narrow, narrow_add_narrow s.n_le]
    _ = narrow s.n (s.x SP + BitVec.ofNat 32 (2 * s.T.bytes)) := by rw [htwo, BitVec.add_assoc]

/-- A return changes R15, the PC and the flags, and nothing else. -/
theorem returned_changesOnly (s : State) : changesOnly [SP] noByte s.returned.pc s.returned.sr s s.returned where
  left := rfl
  right := ⟨rfl,
    { params := rfl, rstLow := rfl, inError := rfl, schedule := rfl, pending := rfl
      reg := fun q hq => by
        have hne : q ≠ SP := by simpa using hq
        simp [State.returned, State.popped, hne]
      byte := fun _ _ => rfl
      written := fun _ => by simp [noByte, State.returned, State.popped] },
    rfl, rfl, rfl⟩

/-- Settles O56: the state after the two pops, field by field. -/
theorem rtiPopsThePcAndTheFlags : Obligations.RtiPopsThePcAndTheFlags := by
  unfold Obligations.RtiPopsThePcAndTheFlags
  intro s h
  obtain ⟨hbits, hbytes⟩ := T_bytes s
  refine ⟨s.returned, s.bytesAt (s.popped.x SP) s.T.bytes, returnFromException_of_even h, ?_, ?_, ?_,
    rfl, rfl, rfl, rfl, rfl, rfl, returned_sp s, returned_changesOnly s⟩
  · exact returned_pc s ▸ holdsWord_bytesAt s _ hbytes
  · rw [returned_pc, ← hbits]
    exact bytesAt_lt s _ _
  · exact popped_sp s ▸ holdsWord_bytesAt s _ hbytes

/-! ## Reset (R37, R43, R340) -/

/-- Settles O7: at launch SR is clear, and a step while `/RST` is low is a Reset, which clears it. -/
theorem resetClearsTheStatusRegister : Obligations.ResetClearsTheStatusRegister := by
  unfold Obligations.ResetClearsTheStatusRegister
  intro s t h
  have hsr : t.sr = Flags.clear := by
    obtain rfl | ⟨hlow, hstep⟩ := h
    · rfl
    · rw [step_of_reset (.inl hlow)] at hstep
      obtain rfl := next_eq_next.1 hstep
      exact doReset_sr s.boundary
  simp [hsr, Flags.clear]

/-- The invariant at launch: the lists are empty, and every register and the PC fit in 16 bits. -/
theorem reset_wf : State.reset.Wf where
  params := by decide
  regs := by decide
  pc := by decide
  mem := reset_memory_wf
  space := nofun
  written := .nil
  writtenSpace := nofun
  pending := .nil
  lines := nofun

/-- Settles O13: the fields of the launch state are given in its definition. -/
theorem resetHasTheInvariant : Obligations.ResetHasTheInvariant := by
  unfold Obligations.ResetHasTheInvariant
  exact ⟨reset_wf, rfl, rfl, rfl⟩

end Sys2Proof.Machine
end

section
/-! PROOF. The statements of `20_memory.md`: which instructions write memory (R51), the ports (R52), MemRead and MemWrite (R56,
R57), the fetch of an instruction (R55), and where an odd address (R59), an odd PC (R60) or a byte the program has written (R69)
stops the machine. -/

namespace Sys2Proof.Machine

/-! ## Which instructions write memory (R51) -/

@[simp] theorem past_mem (s : State) (e : Bool) : (s.past e).mem = s.mem := by cases e <;> rfl
@[simp] theorem past_written (s : State) (e : Bool) : (s.past e).written = s.written := by cases e <;> rfl

theorem Updates.memory_eq {p : Access → Prop} {s t : State} (hm : ¬ p .memory) (h : Updates p s t) :
    t.mem = s.mem ∧ t.written = s.written := by
  induction h with
  | refl => exact ⟨rfl, rfl⟩
  | storeBytes _ _ _ hm' => exact absurd hm' hm
  | setX _ _ _ ih | setSr _ _ ih | drawn _ ih | setPc _ _ _ ih | ioRead _ _ _ ih | ioWrite _ _ _ _ ih => simpa using ih

/-- Settles O16: where the updates may not write memory, its cells and the written addresses are those before. -/
theorem onlyTheseInstructionsWriteMemory : Obligations.OnlyTheseInstructionsWriteMemory := by
  unfold Obligations.OnlyTheseInstructionsWriteMemory
  intro i s t h hw
  have hm : ¬ accessOf i .memory := by simp [accessOf, hw]
  obtain ⟨hmem, hwritten⟩ := (exec_updates h).memory_eq hm
  rw [past_mem] at hmem
  exact ⟨by simpa using hwritten, fun a => by rw [State.byteAt, hmem, State.byteAt]⟩

/-! ## MemRead and MemWrite (R56, R57, R59) -/

theorem getLsbD_zero_eq_true {a : Word} : a.getLsbD 0 = true ↔ a.toNat % 2 = 1 := by
  rw [BitVec.getLsbD, Nat.testBit_zero, decide_eq_true_iff]

theorem misaligned_eq_true {z : Size} {a : Word} : misaligned z a = true ↔ z ≠ .one ∧ a.toNat % 2 = 1 := by
  rw [misaligned, Bool.and_eq_true, getLsbD_zero_eq_true, bne_iff_ne]

theorem misaligned_eq_false {z : Size} {a : Word} : misaligned z a = false ↔ z = .one ∨ a.toNat % 2 = 0 := by
  rw [misaligned, Bool.and_eq_false_iff, getLsbD_zero_eq_false, bne_eq_false_iff_eq]

/-- Settles O18: an aligned read and an aligned write are the bytes of a word at their address, and an odd wide access
is none. -/
theorem memReadAndMemWriteAreBigEndian : Obligations.MemReadAndMemWriteAreBigEndian := by
  unfold Obligations.MemReadAndMemWriteAreBigEndian
  intro s a v z
  have hz : z.bytes ≤ 4 := by cases z <;> decide
  refine ⟨fun hodd => readLoc_writeLoc_of_misaligned (misaligned_eq_true.2 hodd) s v, fun heven => ⟨?_, ?_⟩⟩
  · exact ⟨_, memRead_eq_next.2 ⟨misaligned_eq_false.2 heven, rfl⟩, bytesAt_lt s a _, holdsWord_bytesAt s a hz⟩
  · refine ⟨_, memWrite_eq_next.2 ⟨misaligned_eq_false.2 heven, rfl⟩, fun k hk => ?_,
      fun b => storeBytes_byteAt_other, ?_⟩
    · exact storeBytes_byteAt hz hk
    · exact ⟨storeBytes_regs s a v _, storeBytes_pc s a v _, storeBytes_sr s a v _⟩

/-! ## The flags of a result (R12) -/

@[simp] theorem narrow_x (s : State) (r : Reg) : narrow s.n (s.x r) = s.x r := narrow_narrow _ _

/-- The flags of a result that is an N-bit value already, in the terms of the statements. -/
theorem result_eq_withResult {n : Nat} {v : Word} (hv : narrow n v = v) (f : Flags) (vf cf : Bool) :
    f.result n v vf cf = f.withResult (decide (v = 0)) (v.getLsbD (n - 1)) vf cf := by
  have hzero : (narrow n v == 0) = decide (v = 0) := by rw [hv, Bool.eq_iff_iff]; simp
  simp only [Flags.result, Flags.setZN, Flags.withResult, signBit, hzero]

/-! ## The ports (R52) -/

@[simp] theorem ioRead_n (s : State) (port : Word) : (s.ioRead port).2.n = s.n := by rw [State.n, ioRead_params, State.n]

@[simp] theorem ioRead_x (s : State) (port : Word) (r : Reg) : (s.ioRead port).2.x r = s.x r := by
  rw [State.x, ioRead_n, ioRead_regs, State.x]

@[simp] theorem ioRead_byteAt (s : State) (port : Word) (a : Nat) : (s.ioRead port).2.byteAt a = s.byteAt a := by
  rw [State.byteAt, ioRead_mem, State.byteAt]

/-- An answer, queued or free, is an N-bit value. -/
theorem narrow_ioRead (s : State) (port : Word) : narrow s.n (s.ioRead port).1 = (s.ioRead port).1 := by
  unfold State.ioRead
  split <;> exact narrow_narrow _ _

/-- A queued answer is taken from the queue. -/
theorem ioRead_of_cons {s : State} {v : Word} {rest : List Word} (h : s.portIn = v :: rest) (port : Word) :
    s.ioRead port = (narrow s.n v, { s with portIn := rest }) := by
  rw [State.ioRead, h]

theorem ioRead_portIn_of_nil {s : State} (h : s.portIn = []) (port : Word) : (s.ioRead port).2.portIn = [] := by
  rw [State.ioRead, h]
  exact h

/-- Settles O31: Rd and the flags are written from the answer on the state that the read of the port leaves. -/
theorem inpWritesTheEnvironmentsAnswer : Obligations.InpWritesTheEnvironmentsAnswer := by
  unfold Obligations.InpWritesTheEnvironmentsAnswer
  intro s r d
  have hanswer := narrow_ioRead s (s.x r)
  have hd : (((s.ioRead (s.x r)).2.setX d (s.ioRead (s.x r)).1).setResult (s.ioRead (s.x r)).1 false false).x d =
      (s.ioRead (s.x r)).1 := by simp [hanswer]
  refine ⟨_, rfl, fun v rest h => ?_, fun h => ?_, by simp, by simp, ?_, ?_⟩
  · rw [hd, ioRead_of_cons h]
    exact ⟨rfl, rfl, rfl⟩
  · exact ioRead_portIn_of_nil h _
  · exact
      { params := by simp, rstLow := by simp, inError := by simp, schedule := by simp, pending := by simp
        reg := fun q hq => by
          have hne : q ≠ d := by simpa using hq
          simp [hne]
        byte := fun a _ => by simp
        written := fun a => by simp [noByte] }
  · rw [hd, ← result_eq_withResult hanswer]
    simp

/-- Settles O32: the record grows by the pair, and the flags are those of the value. -/
theorem outSendsTheValueToThePort : Obligations.OutSendsTheValueToThePort := by
  unfold Obligations.OutSendsTheValueToThePort
  intro s r d
  refine ⟨_, rfl, rfl, rfl, rfl, rfl, ?_, result_eq_withResult (narrow_x s r) _ _ _⟩
  exact
    { params := rfl, rstLow := rfl, inError := rfl, schedule := rfl, pending := rfl
      reg := fun _ _ => rfl, byte := fun _ _ => rfl, written := fun _ => by simp [noByte] }

/-! ## The fetch of an instruction (R55, R60, R69, R344) -/

theorem fetch_of_odd {s : State} {z : Size} (h : s.pc.getLsbD 0 = true) : s.fetch z = .fault .oddPc := if_pos h

theorem fetch_of_refused {s : State} {z : Size} (heven : s.pc.getLsbD 0 = false) (h : s.fetchRefused z.bytes = true) :
    s.fetch z = .refused .selfModifiedCode := by
  rw [State.fetch, heven, if_neg (by decide), if_pos h]

/-- A fetch is refused where the launch refuses and the program has written one of its bytes (R69). -/
theorem fetchRefused_eq_true {s : State} {k : Nat} :
    s.fetchRefused k = true ↔ s.params.selfModify = .refuse ∧ ∃ j, j < k ∧ s.addrAt s.pc j ∈ s.written := by
  simp [State.fetchRefused]

/-- Under `SELF_MODIFY = coherent` an even PC is enough (R69). -/
theorem fetchReady_of_coherent {s : State} {z : Size} (heven : s.pc.getLsbD 0 = false)
    (h : s.params.selfModify = .coherent) : fetchReady z s :=
  ⟨heven, by simp [State.fetchRefused, h]⟩

@[simp] theorem passError_fetchRefused (s : State) (k : Nat) : s.passError.fetchRefused k = s.fetchRefused k := by
  simp [State.fetchRefused]

theorem fetchReady_passError {z : Size} {s : State} (h : fetchReady z s) : fetchReady z s.passError := by
  simpa [fetchReady] using h

theorem passError_bytesAt (s : State) (a : Word) (k : Nat) : s.passError.bytesAt a k = s.bytesAt a k :=
  bytesAt_congr (passError_n s) (passError_byteAt s) a k

/-- Two bytes side by side, in the container and in arithmetic. -/
theorem setWidth_shiftLeft_or (hi lo : Byte) :
    (hi.setWidth 32 <<< 8 ||| lo.setWidth 32).setWidth 16 = BitVec.ofNat 16 (hi.toNat * 256 + lo.toNat) := by
  have hhi : (hi.setWidth 32 <<< 8).toNat = hi.toNat <<< 8 := by
    rw [BitVec.toNat_shiftLeft, BitVec.toNat_setWidth, Nat.shiftLeft_eq, Nat.shiftLeft_eq]
    omega
  have hlo : (lo.setWidth 32).toNat = lo.toNat := by
    rw [BitVec.toNat_setWidth]
    omega
  apply BitVec.eq_of_toNat_eq
  rw [BitVec.toNat_setWidth, BitVec.toNat_or, hhi, hlo, ← Nat.shiftLeft_add_eq_or_of_lt lo.isLt, Nat.shiftLeft_eq,
    BitVec.toNat_ofNat]

/-- The instruction word is the two bytes at its address, the first most significant (R55). -/
theorem bytesAt_two (s : State) (a : Word) :
    (s.bytesAt a 2).setWidth 16 =
      BitVec.ofNat 16 ((s.byteAt (s.addrAt a 0)).toNat * 256 + (s.byteAt (s.addrAt a 1)).toNat) := by
  rw [← setWidth_shiftLeft_or]
  simp [State.bytesAt]

theorem decode_bytes_eq_ok {hi lo : Byte} {i : Instr} {rest : List Byte} :
    decode [hi, lo] = .ok (i, rest) ↔
      decodeWord (BitVec.ofNat 16 (hi.toNat * 256 + lo.toNat)) = .ok i ∧ rest = [] := by
  cases h : decodeWord (BitVec.ofNat 16 (hi.toNat * 256 + lo.toNat)) <;> simp [decode, h, eq_comm]

theorem decode_bytes_eq_error {hi lo : Byte} {e : DecodeError} :
    decode [hi, lo] = .error e ↔ decodeWord (BitVec.ofNat 16 (hi.toNat * 256 + lo.toNat)) = .error e := by
  cases h : decodeWord (BitVec.ofNat 16 (hi.toNat * 256 + lo.toNat)) <;> simp [decode, h]

theorem fetchInstr_of_reserved {s : State} {e : DecodeError} (hr : fetchReady .two s)
    (h : decodeWord ((s.bytesAt s.pc 2).setWidth 16) = .error e) : fetchInstr s = .refused .reservedEncoding := by
  rw [fetchInstr, fetch_eq_next.2 ⟨hr, rfl⟩, andThen_next]
  simp only [Size.bytes, h]

/-- The step of a state that is to run an instruction (R344). -/
theorem step_of_runs {s : State} (h : s.boundary.runs) : step s = runInstr s.boundary.passError := by
  obtain ⟨hreset, hirq, hwf⟩ := h
  have hnone : (s.boundary.sr.IF && !s.boundary.pending.isEmpty) = false := by
    obtain hif | hpending := hirq
    · simp [hif]
    · simp [hpending]
  rw [step_of_noReset hreset, stepReady, if_neg (by simp [hnone]), if_neg (by simp [hwf])]

/-- Settles O5: the fetch yields the instruction, and the step runs it. -/
theorem stepRunsTheDecodedInstruction : Obligations.StepRunsTheDecodedInstruction := by
  unfold Obligations.StepRunsTheDecodedInstruction
  intro s i hruns hready hdecode
  obtain ⟨hword, -⟩ := decode_bytes_eq_ok.1 hdecode
  rw [← bytesAt_two] at hword
  have hfetch : fetchInstr s.boundary.passError = .next (i, s.boundary.passError.setPc (s.boundary.pc + 2)) :=
    fetchInstr_eq_next.2 ⟨fetchReady_passError hready, by rw [passError_pc, passError_bytesAt, hword], by rw [passError_pc]⟩
  rw [step_of_runs hruns, runInstr, hfetch, andThen_next]

/-! ## The fetch of an extension word comes first (R92) -/

theorem andThen_assoc {α β γ : Type} (o : Result α) (f : α → Result β) (g : β → Result γ) :
    andThen (andThen o f) g = andThen o fun a => andThen (f a) g := by
  cases o <;> rfl

/-- The outcome is the fetch of the extension word, and then the rest. -/
def FetchesFirst {α : Type} (s : State) (o : Result α) : Prop := ∃ f : State → Result α, o = andThen (fetchIE s) f

section
variable {α β : Type} {s : State} {o : Result α}

theorem FetchesFirst.andThen (h : FetchesFirst s o) (g : α → Result β) : FetchesFirst s (andThen o g) := by
  obtain ⟨f, rfl⟩ := h
  exact ⟨_, andThen_assoc _ _ _⟩

theorem FetchesFirst.of_odd (h : FetchesFirst s o) (hodd : s.pc.getLsbD 0 = true) : o = .fault .oddPc := by
  obtain ⟨f, rfl⟩ := h
  rw [fetchIE, fetch_of_odd hodd, andThen_fault, andThen_fault]

theorem FetchesFirst.of_refused (h : FetchesFirst s o) (heven : s.pc.getLsbD 0 = false)
    (hr : s.fetchRefused s.params.ieSize.bytes = true) : o = .refused .selfModifiedCode := by
  obtain ⟨f, rfl⟩ := h
  rw [fetchIE, fetch_of_refused heven hr, andThen_refused, andThen_refused]

end

section
variable {mode : Mode} {r a b : Reg} {z : Size} {s : State}

theorem not_autoModifies_of_hasExtension (h : mode.hasExtension = true) : mode.autoModifies = false := by
  cases mode with
  | postIncrement | preDecrement => cases h
  | immediate | register | indirect | direct | indexed | indirectIndexed => rfl

theorem evalMode_fetchesFirst (h : mode.hasExtension = true) : FetchesFirst s (evalMode mode r z s) := by
  rw [evalMode, if_pos h]
  exact ⟨_, rfl⟩

theorem readOperand_fetchesFirst (h : mode.hasExtension = true) : FetchesFirst s (readOperand mode r s) :=
  (evalMode_fetchesFirst h).andThen _

theorem evalAddress_fetchesFirst (h : mode.hasExtension = true) (himm : mode ≠ .immediate) :
    FetchesFirst s (evalAddress mode r s) := by
  have hreg : mode ≠ .register := by rintro rfl; cases h
  rw [evalAddress, if_neg hreg, if_neg himm]
  exact (evalMode_fetchesFirst h).andThen _

theorem evalDestination_fetchesFirst (h : mode.hasExtension = true) (himm : mode ≠ .immediate) :
    FetchesFirst s (evalDestination mode r s) := by
  rw [evalDestination, if_neg himm]
  exact evalMode_fetchesFirst h

theorem load_fetchesFirst (h : mode.hasExtension = true) : FetchesFirst s (load z a mode b s) := by
  rw [load, not_autoModifies_of_hasExtension h, if_neg (by simp)]
  exact (evalMode_fetchesFirst h).andThen _

theorem store_fetchesFirst (h : mode.hasExtension = true) (himm : mode ≠ .immediate) :
    FetchesFirst s (store z a mode b s) := by
  rw [store, if_neg himm, not_autoModifies_of_hasExtension h, if_neg (by simp)]
  exact (evalMode_fetchesFirst h).andThen _

end

/-- Transfers of 4 bytes, where they exist (R170). -/
theorem execLdl_of_n32 {s : State} (h : s.params.size = .n32) (a : Reg) (mode : Mode) (b : Reg) :
    execLdl a mode b s = load .four a mode b s := by rw [execLdl, h]

theorem execStl_of_n32 {s : State} (h : s.params.size = .n32) (a : Reg) (mode : Mode) (b : Reg) :
    execStl a mode b s = store .four a mode b s := by rw [execStl, h]

/-- Every instruction with an extension word whose operand form has a meaning fetches that word before all else (R92). -/
theorem exec_fetchesFirst {i : Instr} {s : State} (hext : i.hasExtension = true)
    (hwf : i.wellFormed s.params.size = true) : FetchesFirst s (exec i s) := by
  obtain ⟨hexists, hform⟩ := (Bool.and_eq_true _ _).mp hwf
  cases i with
  | ani | adi => exact ⟨_, rfl⟩
  | ldb | ldw => exact load_fetchesFirst hext
  | stb | stw => exact store_fetchesFirst hext (by rintro rfl; cases hform)
  | ldl a mode b =>
    rw [exec, execLdl_of_n32 (eq_of_beq hexists)]
    exact load_fetchesFirst hext
  | stl a mode b =>
    rw [exec, execStl_of_n32 (eq_of_beq hexists)]
    exact store_fetchesFirst hext (by rintro rfl; cases hform)
  | jmp | jeq | jne | jge | jle | jgt | jlw | jae | jbe | jab | jbl | jvs | jvc =>
    exact (evalMode_fetchesFirst hext).andThen _
  | jpa | trp | tst => exact (readOperand_fetchesFirst hext).andThen _
  | jea | jsr => exact (evalAddress_fetchesFirst hext (by rintro rfl; cases hform)).andThen _
  | tsr | msr | mpc => exact (evalDestination_fetchesFirst hext (by rintro rfl; cases hform)).andThen _
  | _ => cases hext

/-- Settles O10: the fetch comes first in the step and, for the extension word, in the instruction; where it stops they stop. -/
theorem fetchStopsOnOddPcAndReservedWords : Obligations.FetchStopsOnOddPcAndReservedWords := by
  unfold Obligations.FetchStopsOnOddPcAndReservedWords
  refine ⟨fun s hruns => ?_, fun s i hext hwf => ?_⟩
  · have hstep := step_of_runs hruns
    have hparams : s.boundary.params = s.params := (boundary_preserves s).params
    have hwritten : s.boundary.written = s.written := by rw [(boundaryMovesOnlyTheLines s).1]
    refine ⟨fun hodd => ?_, fun heven hsm hw => ?_, fun hready hdecode => ?_, fun heven hsm => ?_⟩
    · rw [hstep, runInstr, fetchInstr, fetch_of_odd (by rwa [passError_pc]), andThen_fault, andThen_fault]
    · have hbyte : ∃ j, j < Size.two.bytes ∧ s.boundary.addrAt s.boundary.pc j ∈ s.boundary.written := by
        rw [hwritten]
        exact hw.elim (⟨0, by decide, ·⟩) (⟨1, by decide, ·⟩)
      have hrefused := fetchRefused_eq_true.2 ⟨hparams ▸ hsm, hbyte⟩
      rw [hstep, runInstr, fetchInstr, fetch_of_refused (by rwa [passError_pc]) (by rwa [passError_fetchRefused]),
        andThen_refused, andThen_refused]
    · obtain ⟨e, he⟩ := hdecode
      have hword := decode_bytes_eq_error.1 he
      rw [← bytesAt_two] at hword
      rw [hstep, runInstr, fetchInstr_of_reserved (fetchReady_passError hready)
        (by rw [passError_pc, passError_bytesAt, hword]), andThen_refused]
    · exact fetchReady_of_coherent heven (hparams ▸ hsm)
  · have hfirst := exec_fetchesFirst hext hwf
    exact ⟨hfirst.of_odd, fun heven hsm hw => hfirst.of_refused heven (fetchRefused_eq_true.2 ⟨hsm, hw⟩)⟩

/-! ## What a ready operand yields (R94 to R103) -/

@[simp] theorem afterOperand_params (mode : Mode) (r : Reg) (z : Size) (s : State) :
    (afterOperand mode r z s).params = s.params := (afterOperand_mem mode r z s).1

@[simp] theorem afterOperand_n (mode : Mode) (r : Reg) (z : Size) (s : State) : (afterOperand mode r z s).n = s.n := by
  rw [State.n, afterOperand_params, State.n]

/-- The value of an operand is that of its location before the evaluation and after it: the mode that steps a register
does not read that register's value. -/
theorem locValue_afterOperand (mode : Mode) (r : Reg) (z : Size) (s : State) :
    locValue (location mode r z s) z (afterOperand mode r z s) = operandValue mode r z s := by
  have hbytes (a : Word) (k : Nat) : (afterOperand mode r z s).bytesAt a k = s.bytesAt a k :=
    bytesAt_congr (afterOperand_n mode r z s) (fun b => by
      rw [State.byteAt, (afterOperand_mem mode r z s).2.1, State.byteAt]) a k
  cases mode with
  | immediate | register => rfl
  | indirect | postIncrement | preDecrement | direct | indexed | indirectIndexed => exact hbytes _ _

theorem locReady_afterOperand {l : Loc} {mode : Mode} {r : Reg} {z z' : Size} {s : State} :
    locReady l z (afterOperand mode r z' s) ↔ locReady l z s := by
  cases l with
  | imm v => rw [locReady, afterOperand_params, locReady]
  | reg | mem => exact Iff.rfl

theorem locValue_lt (l : Loc) (z : Size) (s : State) : (locValue l z s).toNat < 2 ^ z.bits := by
  cases l with
  | imm | reg => exact narrow_lt _ _
  | mem a => exact bytesAt_lt s a _

/-- The value of an operand of a CPU word is an N-bit value. -/
theorem narrow_operandValue (mode : Mode) (r : Reg) (s : State) :
    narrow s.n (operandValue mode r s.T s) = operandValue mode r s.T s :=
  narrow_of_lt ((T_bytes s).1 ▸ locValue_lt _ _ _)

theorem readOperand_of_ready {mode : Mode} {r : Reg} {s : State} (h : operandReady mode r s.T s) :
    readOperand mode r s = .next (operandValue mode r s.T s,
      ⟨location mode r s.T s, effectiveAddress mode r s.T s, afterOperand mode r s.T s⟩) := by
  obtain ⟨haddress, hloc⟩ := h
  exact readOperand_eq_next.2 ⟨haddress, locReady_afterOperand.2 hloc, by rw [locValue_afterOperand]⟩

/-! ### Frames -/

theorem changesOnly.refl (s : State) : changesOnly [] noByte s.pc s.sr s s where
  left := rfl
  right := ⟨rfl,
    { params := rfl, rstLow := rfl, inError := rfl, schedule := rfl, pending := rfl
      reg := fun _ _ => rfl, byte := fun _ _ => rfl, written := fun _ => by simp [noByte] },
    rfl, rfl, rfl⟩

section
variable {regs : List Reg} {stored : Nat → Prop} {pc : Word} {f : Flags} {s t : State}

theorem changesOnly.n_eq (h : changesOnly regs stored pc f s t) : t.n = s.n := by
  obtain ⟨-, -, k, -⟩ := h
  rw [State.n, k.params, State.n]

/-- A passage that ends with a write of the PC. -/
theorem changesOnly.setPc (h : changesOnly regs stored pc f s t) (v : Word) :
    changesOnly regs stored (narrow s.n v) f s (t.setPc v) := by
  have hn := h.n_eq
  obtain ⟨-, hsr, k, q⟩ := h
  exact ⟨by rw [setPc_pc, hn], hsr, { k with }, q⟩

/-- A passage that ends with a write of the result flags. -/
theorem changesOnly.setResult (h : changesOnly regs stored pc f s t) (v : Word) (vf cf : Bool) :
    changesOnly regs stored pc (f.result s.n v vf cf) s (t.setResult v vf cf) := by
  have hn := h.n_eq
  obtain ⟨hpc, hsr, k, q⟩ := h
  exact ⟨hpc, by rw [setResult_sr, hsr, hn], { k with }, q⟩

end

/-- The evaluation of an operand moves the PC past the extension word and steps the register of modes 011 and 100, and
nothing else (R92, R98, R99). -/
theorem afterOperand_changesOnly (mode : Mode) (r : Reg) (z : Size) (s : State) :
    changesOnly (modeRegs mode r) noByte (nextPc mode s) s.sr s (afterOperand mode r z s) := by
  cases mode with
  | immediate | direct | indexed | indirectIndexed => exact (changesOnly.refl s).setPc _
  | postIncrement | preDecrement => exact setX_changesOnly s r _
  | register | indirect => exact changesOnly.refl s

theorem afterOperand_stepped (mode : Mode) (r : Reg) (z : Size) (s : State) :
    stepped mode r z s (afterOperand mode r z s) := by
  cases mode with
  | postIncrement => exact (setX_x s r _ r).trans (if_pos rfl)
  | preDecrement => exact (setX_x s r _ r).trans (if_pos rfl)
  | immediate | register | indirect | direct | indexed | indirectIndexed => trivial

theorem stepped.congr {mode : Mode} {r : Reg} {z : Size} {s t u : State} (h : stepped mode r z s t) (hx : u.x r = t.x r) :
    stepped mode r z s u := by
  cases mode with
  | postIncrement | preDecrement => exact hx.trans h
  | immediate | register | indirect | direct | indexed | indirectIndexed => trivial

/-! ## Operands at odd addresses (R59) -/

/-- An operand that does not go through: its evaluation faults, or it stands at an odd address. -/
theorem evalMode_of_operandUnaligned {mode : Mode} {r : Reg} {z : Size} {s : State} (h : operandUnaligned mode r z s) :
    evalMode mode r z s = .fault .misalignedAccess ∨
      ∃ o a, evalMode mode r z s = .next o ∧ o.loc = .mem a ∧ misaligned z a = true := by
  obtain hpointer | ⟨haddress, a, hloc, hodd⟩ := h
  · exact .inl (evalMode_of_pointerUnaligned hpointer)
  · exact .inr ⟨_, a, evalMode_eq_next.2 ⟨haddress, rfl⟩, hloc, hodd⟩

section
variable {mode : Mode} {r a b : Reg} {z : Size} {s : State}

theorem readOperand_of_unaligned (h : operandUnaligned mode r s.T s) : readOperand mode r s = .fault .misalignedAccess := by
  obtain heval | ⟨o, a, heval, hloc, hodd⟩ := evalMode_of_operandUnaligned h
  · rw [readOperand, heval, andThen_fault]
  · rw [readOperand, heval, andThen_next, hloc, (readLoc_writeLoc_of_misaligned hodd o.state 0).1, andThen_fault]

theorem load_of_unaligned (hd : mode.distinctRegisters a b = true) (h : operandUnaligned mode b z s) :
    load z a mode b s = .fault .misalignedAccess := by
  rw [load, if_neg (distinctRegisters_eq_true.1 hd)]
  obtain heval | ⟨o, a, heval, hloc, hodd⟩ := evalMode_of_operandUnaligned h
  · rw [heval, andThen_fault]
  · rw [heval, andThen_next, hloc, (readLoc_writeLoc_of_misaligned hodd o.state 0).1, andThen_fault]

theorem store_of_unaligned (himm : mode ≠ .immediate) (hd : mode.distinctRegisters a b = true)
    (h : operandUnaligned mode b z s) : store z a mode b s = .fault .misalignedAccess := by
  rw [store, if_neg himm, if_neg (distinctRegisters_eq_true.1 hd)]
  obtain heval | ⟨o, a, heval, hloc, hodd⟩ := evalMode_of_operandUnaligned h
  · simp only [heval, andThen_fault]
  · simp only [heval, andThen_next, hloc, (readLoc_writeLoc_of_misaligned hodd o.state _).2, andThen_fault]

/-- The location of an operand in memory is its effective address (R97 to R102). -/
theorem location_of_effectiveAddress {ea : Word} (himm : mode ≠ .immediate) (h : effectiveAddress mode r z s = some ea) :
    location mode r z s = .mem ea := by
  cases mode with
  | immediate => exact absurd rfl himm
  | register => cases h
  | indirect | postIncrement | preDecrement | direct | indexed | indirectIndexed => exact congrArg Loc.mem (Option.some.inj h)

end

theorem exec_loadInstr {z : Size} {s : State} (h : transferExists z s) (a : Reg) (mode : Mode) (b : Reg) :
    exec (loadInstr z a mode b) s = load z a mode b s := by
  cases z with
  | one | two => rfl
  | four => exact execLdl_of_n32 (h rfl) a mode b

theorem exec_storeInstr {z : Size} {s : State} (h : transferExists z s) (a : Reg) (mode : Mode) (b : Reg) :
    exec (storeInstr z a mode b) s = store z a mode b s := by
  cases z with
  | one | two => rfl
  | four => exact execStl_of_n32 (h rfl) a mode b

/-- Settles O41: the load and the store both use the operand, which is reached through or stands at an odd address. -/
theorem transfersStopOnOddAddresses : Obligations.TransfersStopOnOddAddresses := by
  unfold Obligations.TransfersStopOnOddAddresses
  intro s z a m b ea hexists hregs himm hfetch hodd
  have hd : m.distinctRegisters a b = true := by
    rw [distinctRegisters_eq_true]
    simpa using hregs
  have hunaligned : operandUnaligned m b z s := by
    by_cases hpointer : pointerMisaligned m b s = true
    · exact .inl ⟨hfetch, hpointer⟩
    · obtain ⟨hea, hmis⟩ := hodd.resolve_left hpointer
      exact .inr ⟨⟨hfetch, by simpa using hpointer⟩, ea, location_of_effectiveAddress himm hea, hmis⟩
  rw [exec_loadInstr hexists, exec_storeInstr hexists]
  exact ⟨load_of_unaligned hd hunaligned, store_of_unaligned himm hd hunaligned⟩

/-! ## JPA and TST (R221, R225) -/

/-- The words of the one-operand group (R85). -/
theorem wordO1_div {op : Nat} (h : op < 8) (m : Mode) (r : Reg) : (wordO1 op m r).toNat / 0x80 = 0x10 + op := by
  have hm : m.code < 8 := by cases m <;> decide
  rw [wordO1, BitVec.toNat_ofNat]
  omega

/-- Settles O45: the operand is read, or is at an odd address; the PC takes what is read. -/
theorem jpaJumpsToTheOperandsValue : Obligations.JpaJumpsToTheOperandsValue := by
  unfold Obligations.JpaJumpsToTheOperandsValue
  intro s m r
  refine ⟨wordO1_div (by decide) m r, fun hready => ?_, fun hunaligned => ?_⟩
  · have hexec : exec (.jpa m r) s = .next ((afterOperand m r s.T s).setPc (operandValue m r s.T s)) := by
      rw [exec, execJpa, readOperand_of_ready hready, andThen_next]
    have hframe := (afterOperand_changesOnly m r s.T s).setPc (operandValue m r s.T s)
    rw [narrow_operandValue] at hframe
    exact ⟨_, hexec, (afterOperand_stepped m r s.T s).congr rfl, hframe⟩
  · rw [exec, execJpa, readOperand_of_unaligned hunaligned, andThen_fault]

/-- Settles O50: the operand is read, or is at an odd address; the flags are those of what is read. -/
theorem tstTestsTheOperand : Obligations.TstTestsTheOperand := by
  unfold Obligations.TstTestsTheOperand
  intro s m r
  refine ⟨wordO1_div (by decide) m r, fun hready => ?_, fun hunaligned => ?_⟩
  · have hexec : exec (.tst m r) s = .next ((afterOperand m r s.T s).testFlags (operandValue m r s.T s)) := by
      rw [exec, execTst, readOperand_of_ready hready, andThen_next]
    have hframe := (afterOperand_changesOnly m r s.T s).setResult (operandValue m r s.T s) false false
    rw [result_eq_withResult (narrow_operandValue m r s)] at hframe
    exact ⟨_, hexec, (afterOperand_stepped m r s.T s).congr rfl, hframe⟩
  · rw [exec, execTst, readOperand_of_unaligned hunaligned, andThen_fault]

/-! ## The stack pointer odd (R59, R243) -/

/-- A CPU word is never one byte, so every odd address is misaligned for it. -/
theorem misaligned_word (s : State) (a : Word) : misaligned s.T a = a.getLsbD 0 := by
  rcases s.n_cases with ⟨_, _, hT⟩ | ⟨_, _, hT⟩ <;> rw [hT] <;> rfl

/-- Below an odd stack pointer there is an odd word (R13). -/
theorem pushAddr_odd {s : State} (h : (s.x SP).getLsbD 0 = true) : s.pushAddr.getLsbD 0 = true := by
  rw [getLsbD_zero_eq_true] at h ⊢
  rw [State.pushAddr, narrow_toNat, BitVec.toNat_sub, BitVec.toNat_ofNat]
  rcases s.n_cases with ⟨_, hn, hT⟩ | ⟨_, hn, hT⟩ <;> simp only [hn, hT, Size.bytes] <;> omega

section
variable {s : State} (h : (s.x SP).getLsbD 0 = true)
include h

theorem push_of_odd (v : Word) : s.push v = .fault .misalignedAccess := by
  rw [State.push, State.memWrite, if_pos (by rw [misaligned_word, pushAddr_odd h])]

theorem pop_of_odd : s.pop = .fault .misalignedAccess := by
  rw [State.pop, State.memRead, if_pos (by rw [misaligned_word, h]), andThen_fault]

theorem execRts_of_odd : execRts s = .fault .misalignedAccess := by rw [execRts, pop_of_odd h, andThen_fault]

theorem returnFromException_of_odd : s.returnFromException = .fault .misalignedAccess := by
  rw [State.returnFromException, pop_of_odd h, andThen_fault]

theorem enter_of_odd (num : Nat) (ret : Word) : s.enter num ret = .fault .misalignedAccess := by
  rw [State.enter, push_of_odd h, andThen_fault]

theorem acceptInterrupt_of_odd (hpending : s.pending ≠ []) : s.acceptInterrupt = .fault .misalignedAccess := by
  obtain ⟨i, hi⟩ := pickLine_isSome (draw := s.draws) hpending
  have hentry : (s.acknowledge i).enter (32 + i) s.pc = .fault .misalignedAccess := enter_of_odd (s := s.acknowledge i) h _ _
  simp [State.acceptInterrupt, hi, hentry]

end

/-- Settles O55: the pop reads the word at R15 and steps R15, and the PC takes the word. -/
theorem rtsPopsThePc : Obligations.RtsPopsThePc := by
  unfold Obligations.RtsPopsThePc
  intro s
  obtain ⟨hbits, hbytes⟩ := T_bytes s
  have hlt : (s.bytesAt (s.x SP) s.T.bytes).toNat < 2 ^ s.n := hbits ▸ bytesAt_lt s _ _
  refine ⟨rfl, execRts_of_odd, fun heven => ?_⟩
  have hexec : exec .rts s = .next (s.popped.setPc (s.bytesAt (s.x SP) s.T.bytes)) := by
    rw [exec, execRts, pop_of_even heven, andThen_next, State.popped]
  have hpc : (s.popped.setPc (s.bytesAt (s.x SP) s.T.bytes)).pc = s.bytesAt (s.x SP) s.T.bytes := narrow_of_lt hlt
  refine ⟨_, hexec, ?_, ?_, popped_sp s, ?_⟩
  · rw [hpc]
    exact holdsWord_bytesAt s _ hbytes
  · rwa [hpc]
  · exact (setX_changesOnly s SP _).setPc _

/-- Every mode but 001 has an effective address (R95 to R102). -/
theorem effectiveAddress_isSome {mode : Mode} (hreg : mode ≠ .register) (r : Reg) (z : Size) (s : State) :
    ∃ ea, effectiveAddress mode r z s = some ea := by
  cases mode with
  | register => exact absurd rfl hreg
  | immediate | indirect | postIncrement | preDecrement | direct | indexed | indirectIndexed => exact ⟨_, rfl⟩

/-- Settles O58: each of them pushes or pops first, once its operand is evaluated. -/
theorem oddStackPointerStops : Obligations.OddStackPointerStops := by
  unfold Obligations.OddStackPointerStops
  intro s
  refine ⟨fun hodd => ?_, fun m r hodd => ⟨fun himm hreg haddress => ?_, fun hready => ?_⟩,
    fun hreset hif hpending hodd => ?_⟩
  · exact ⟨push_of_odd hodd, pop_of_odd hodd, execRts_of_odd hodd, returnFromException_of_odd hodd⟩
  · obtain ⟨ea, hea⟩ := effectiveAddress_isSome hreg r s.T s
    rw [exec, execJsr, evalAddress_eq_next.2 ⟨hreg, himm, haddress, ea, hea, rfl⟩, andThen_next, push_of_odd hodd,
      andThen_fault]
  · rw [exec, execTrp, readOperand_of_ready hready, andThen_next, State.raiseTrap, enter_of_odd hodd]
  · rw [step_of_noReset hreset, stepReady, if_pos (by simp [hif, hpending])]
    exact acceptInterrupt_of_odd (by simpa using hodd) (by simpa using hpending)

end Sys2Proof.Machine
end

section
/-! PROOF. The statements of `30_encoding.md`: decoding (R80 to R93, R105, R106), the addressing modes (R94 to R102), and the
operand forms of R103 and R104 in the transfers and in the branches with a mode operand. -/

namespace Sys2Proof

/-! ## The fields of a word (R90, R91, R94) -/

theorem regField_val (w : InstrWord) (lo : Nat) : (regField w lo).val = w.toNat / 2 ^ lo % 16 := rfl

theorem regField_eq {w : InstrWord} {lo : Nat} {r : Reg} (h : w.toNat / 2 ^ lo % 16 = r.val) : regField w lo = r :=
  Fin.ext h

theorem valueField_toNat (w : InstrWord) (lo : Nat) : (valueField w lo).toNat = w.toNat / 2 ^ lo % 256 :=
  BitVec.toNat_ofNat _ _

theorem valueField_eq {w : InstrWord} {lo : Nat} {v : BitVec 8} (h : w.toNat / 2 ^ lo % 256 = v.toNat) :
    valueField w lo = v :=
  BitVec.eq_of_toNat_eq ((valueField_toNat w lo).trans h)

theorem mode_code_lt (m : Mode) : m.code < 8 := by cases m <;> decide

theorem mode_ofCode_code (m : Mode) : Mode.ofCode m.code = m := by cases m <;> rfl

theorem mode_code_ofCode {k : Nat} (h : k < 8) : (Mode.ofCode k).code = k := by interval_cases k <;> rfl

theorem modeField_code (w : InstrWord) : (modeField w).code = w.toNat / 2 ^ 4 % 8 :=
  mode_code_ofCode (Nat.mod_lt _ (by decide))

theorem modeField_eq {w : InstrWord} {m : Mode} (h : w.toNat / 2 ^ 4 % 8 = m.code) : modeField w = m := by
  rw [← mode_ofCode_code m, ← h]
  rfl

/-! ## The branches of the top-level decode (R89)

Each test of the decode is a range of the word as a number. -/

section
variable {w : InstrWord}

theorem select_of_G1 (h : 0x8000 ≤ w.toNat) :
    select w = groupITable[bits w 14 12]?.map fun op => op (regField w 8) (regField w 4) (regField w 0) := by
  rw [select, if_pos (by rw [bits]; omega)]

theorem select_of_G2 (h : 0x4000 ≤ w.toNat) (h' : w.toNat < 0x5000) :
    select w = groupIITable[bits w 11 8]?.map fun op => op (regField w 4) (regField w 0) := by
  rw [select, if_neg (by rw [bits]; omega), if_pos (by rw [bits]; omega)]

theorem select_of_G3 (h : 0x5000 ≤ w.toNat) (h' : w.toNat < 0x8000) :
    select w =
      groupIIITable[2 * bits w 13 12 + bits w 7 7]?.join.map fun op => op (regField w 8) (modeField w) (regField w 0) := by
  rw [select, if_neg (by rw [bits]; omega), if_neg (by rw [bits]; omega), if_pos (by rw [bits]; omega)]

theorem select_of_Q (h : 0x2000 ≤ w.toNat) (h' : w.toNat < 0x4000) :
    select w = quickTable[bits w 12 12]?.map fun op => op (valueField w 4) (regField w 0) := by
  rw [select]
  repeat rw [if_neg (by rw [bits]; omega)]
  rw [if_pos (by rw [bits]; omega)]

theorem select_of_BQ (h : 0x1000 ≤ w.toNat) (h' : w.toNat < 0x2000) :
    select w = branchShortTable[bits w 11 8]?.join.map fun op => op (valueField w 0) := by
  rw [select]
  repeat rw [if_neg (by rw [bits]; omega)]
  rw [if_pos (by rw [bits]; omega)]

theorem select_of_BM (h : w.toNat < 0x800) :
    select w = branchModeTable[bits w 10 7]?.join.map fun op => op (modeField w) (regField w 0) := by
  rw [select]
  repeat rw [if_neg (by rw [bits]; omega)]
  rw [if_pos (by rw [bits]; omega)]

theorem select_of_O1 (h : 0x800 ≤ w.toNat) (h' : w.toNat < 0xC00) :
    select w = op1Table[bits w 9 7]?.map fun op => op (modeField w) (regField w 0) := by
  rw [select]
  repeat rw [if_neg (by rw [bits]; omega)]
  rw [if_pos (by rw [bits]; omega)]

/-- The no-operand group: a word past its table selects nothing. -/
theorem select_of_O0 (h : 0xC00 ≤ w.toNat) (h' : w.toNat < 0x1000) :
    select w = if w.toNat < 0xC08 then op0Table[bits w 2 0]? else none := by
  have hzero : bits w 9 3 = 0 ↔ w.toNat < 0xC08 := by rw [bits]; omega
  rw [select]
  repeat rw [if_neg (by rw [bits]; omega)]
  simp only [hzero]

end

/-! ## What a word of each format selects (R81 to R88) -/

theorem wordG1_toNat {op : Nat} (h : op < 8) (sa sb d : Reg) :
    (wordG1 op sa sb d).toNat = 0x8000 + op * 0x1000 + sa.val * 0x100 + sb.val * 0x10 + d.val := by
  rw [wordG1, BitVec.toNat_ofNat]
  omega

theorem wordG2_toNat {op : Nat} (h : op < 16) (s d : Reg) :
    (wordG2 op s d).toNat = 0x4000 + op * 0x100 + s.val * 0x10 + d.val := by
  rw [wordG2, BitVec.toNat_ofNat]
  omega

theorem wordG3_toNat {type dir : Nat} (h : type < 4) (h' : dir < 2) (a : Reg) (m : Mode) (b : Reg) :
    (wordG3 type dir a m b).toNat =
      0x4000 + type * 0x1000 + a.val * 0x100 + dir * 0x80 + m.code * 0x10 + b.val := by
  have := mode_code_lt m
  rw [wordG3, BitVec.toNat_ofNat]
  omega

theorem wordBM_toNat {cc : Nat} (h : cc < 16) (m : Mode) (r : Reg) :
    (wordBM cc m r).toNat = cc * 0x80 + m.code * 0x10 + r.val := by
  have := mode_code_lt m
  rw [wordBM, BitVec.toNat_ofNat]
  omega

theorem wordO1_toNat {op : Nat} (h : op < 8) (m : Mode) (r : Reg) :
    (wordO1 op m r).toNat = 0x0800 + op * 0x80 + m.code * 0x10 + r.val := by
  have := mode_code_lt m
  rw [wordO1, BitVec.toNat_ofNat]
  omega

theorem wordO0_toNat {op : Nat} (h : op < 8) : (wordO0 op).toNat = 0x0C00 + op := by
  rw [wordO0, BitVec.toNat_ofNat]
  omega

theorem wordQ_toNat {op : Nat} (h : op < 2) (v : BitVec 8) (r : Reg) :
    (wordQ op v r).toNat = 0x2000 + op * 0x1000 + v.toNat * 0x10 + r.val := by
  rw [wordQ, BitVec.toNat_ofNat]
  omega

theorem wordBQ_toNat {cc : Nat} (h : cc < 16) (v : BitVec 8) :
    (wordBQ cc v).toNat = 0x1000 + cc * 0x100 + v.toNat := by
  rw [wordBQ, BitVec.toNat_ofNat]
  omega

theorem select_wordG1 {op : Nat} (h : op < 8) (sa sb d : Reg) :
    select (wordG1 op sa sb d) = groupITable[op]?.map fun f => f sa sb d := by
  have hw := wordG1_toNat h sa sb d
  have hop : bits (wordG1 op sa sb d) 14 12 = op := by rw [bits]; omega
  rw [select_of_G1 (by omega), hop, regField_eq (r := sa) (by omega), regField_eq (r := sb) (by omega),
    regField_eq (r := d) (by omega)]

theorem select_wordG2 {op : Nat} (h : op < 16) (s d : Reg) :
    select (wordG2 op s d) = groupIITable[op]?.map fun f => f s d := by
  have hw := wordG2_toNat h s d
  have hop : bits (wordG2 op s d) 11 8 = op := by rw [bits]; omega
  rw [select_of_G2 (by omega) (by omega), hop, regField_eq (r := s) (by omega), regField_eq (r := d) (by omega)]

theorem select_wordG3 {type dir : Nat} (h0 : 0 < type) (h : type < 4) (hd : dir < 2) (a : Reg) (m : Mode) (b : Reg) :
    select (wordG3 type dir a m b) = groupIIITable[2 * type + dir]?.join.map fun f => f a m b := by
  have hw := wordG3_toNat h hd a m b
  have hm := mode_code_lt m
  have hop : 2 * bits (wordG3 type dir a m b) 13 12 + bits (wordG3 type dir a m b) 7 7 = 2 * type + dir := by
    rw [bits, bits]; omega
  rw [select_of_G3 (by omega) (by omega), hop, regField_eq (r := a) (by omega), modeField_eq (m := m) (by omega),
    regField_eq (r := b) (by omega)]

theorem select_wordBM {cc : Nat} (h : cc < 16) (m : Mode) (r : Reg) :
    select (wordBM cc m r) = branchModeTable[cc]?.join.map fun f => f m r := by
  have hw := wordBM_toNat h m r
  have hm := mode_code_lt m
  have hcc : bits (wordBM cc m r) 10 7 = cc := by rw [bits]; omega
  rw [select_of_BM (by omega), hcc, modeField_eq (m := m) (by omega), regField_eq (r := r) (by omega)]

theorem select_wordO1 {op : Nat} (h : op < 8) (m : Mode) (r : Reg) :
    select (wordO1 op m r) = op1Table[op]?.map fun f => f m r := by
  have hw := wordO1_toNat h m r
  have hm := mode_code_lt m
  have hop : bits (wordO1 op m r) 9 7 = op := by rw [bits]; omega
  rw [select_of_O1 (by omega) (by omega), hop, modeField_eq (m := m) (by omega), regField_eq (r := r) (by omega)]

theorem select_wordO0 {op : Nat} (h : op < 8) : select (wordO0 op) = op0Table[op]? := by
  have hw := wordO0_toNat h
  have hop : bits (wordO0 op) 2 0 = op := by rw [bits]; omega
  rw [select_of_O0 (by omega) (by omega), if_pos (by omega), hop]

theorem select_wordQ {op : Nat} (h : op < 2) (v : BitVec 8) (r : Reg) :
    select (wordQ op v r) = quickTable[op]?.map fun f => f v r := by
  have hw := wordQ_toNat h v r
  have hop : bits (wordQ op v r) 12 12 = op := by rw [bits]; omega
  rw [select_of_Q (by omega) (by omega), hop, valueField_eq (v := v) (by omega), regField_eq (r := r) (by omega)]

theorem select_wordBQ {cc : Nat} (h : cc < 16) (v : BitVec 8) :
    select (wordBQ cc v) = branchShortTable[cc]?.join.map fun f => f v := by
  have hw := wordBQ_toNat h v
  have hcc : bits (wordBQ cc v) 11 8 = cc := by rw [bits]; omega
  rw [select_of_BQ (by omega) (by omega), hcc, valueField_eq (v := v) (by omega)]

/-- The word of an instruction selects that instruction (R89, R105). -/
theorem select_encodeWord (i : Instr) : select (encodeWord i) = some i := by
  cases i with
  | adc | xor | div | mul | and | or | add | sub => exact select_wordG1 (by decide) _ _ _
  | rlc | rrc | srl | sra | not | sbb | shl | neg | inp | out | swb | rlb | ani | ext | adi | cmp =>
    exact select_wordG2 (by decide) _ _
  | ldb | ldw | ldl | stb | stw | stl => exact select_wordG3 (by decide) (by decide) (by decide) _ _ _
  | jmp | jeq | jne | jge | jle | jgt | jlw | jae | jbe | jab | jbl | jvs | jvc => exact select_wordBM (by decide) _ _
  | jpa | jea | jsr | trp | tst | tsr | msr | mpc => exact select_wordO1 (by decide) _ _
  | nop | hlt | rts | rti | clc | stc | dsi | eni => exact select_wordO0 (by decide)
  | ldq | adq => exact select_wordQ (by decide) _ _
  | jqmp | jqeq | jqne | jqge | jqle | jqgt | jqlw | jqae | jqbe | jqab | jqbl | jqvs | jqvc =>
    exact select_wordBQ (by decide) _

theorem decodeWord_eq_ok {w : InstrWord} {i : Instr} : decodeWord w = .ok i ↔ select w = some i := by
  cases h : select w <;> simp [decodeWord, h]

theorem decodeWord_eq_reserved {w : InstrWord} :
    decodeWord w = .error (.reservedEncoding w) ↔ select w = none := by
  cases h : select w <;> simp [decodeWord, h]

/-- A byte string that begins with the bytes of a word (R55). -/
theorem decode_wordBytes_append {w : InstrWord} {i : Instr} (h : decodeWord w = .ok i) (rest : List Byte) :
    decode (wordBytes w ++ rest) = .ok (i, rest) := by
  have hword : BitVec.ofNat 16
      ((BitVec.ofNat 8 (w.toNat / 256)).toNat * 256 + (BitVec.ofNat 8 w.toNat).toNat) = w := by
    apply BitVec.eq_of_toNat_eq
    simp only [BitVec.toNat_ofNat]
    omega
  simp only [wordBytes, List.cons_append, List.nil_append, decode, hword, h]

/-- Settles O1: the first two bytes give the word back, and the word selects its instruction. -/
theorem decodeOfEncodeIsTheInstruction : Obligations.DecodeOfEncodeIsTheInstruction := by
  unfold Obligations.DecodeOfEncodeIsTheInstruction
  intro i rest
  exact decode_wordBytes_append (decodeWord_eq_ok.2 (select_encodeWord i)) rest

/-! ## The opcode table (R105) -/

/-- The row of the words whose bits from `k` up are `p`: all rows but those of the transfers. -/
def leadingRow (k p : Nat) : OpcodeRow := ⟨BitVec.ofNat 16 (p * 2 ^ k), BitVec.allOnes 16 <<< k⟩

/-- The row of a transfer, whose opcode is the leading digit and bit 7 (R83). -/
def transferRow (type dir : Nat) : OpcodeRow :=
  ⟨BitVec.ofNat 16 (0x4000 + type * 0x1000 + dir * 0x80), BitVec.allOnes 16 <<< 12 ||| BitVec.twoPow 16 7⟩

theorem and_allOnes_shiftLeft (w : InstrWord) (k : Nat) :
    (w &&& BitVec.allOnes 16 <<< k).toNat = w.toNat / 2 ^ k * 2 ^ k := by
  rw [← BitVec.shiftLeft_ushiftRight, BitVec.toNat_shiftLeft, BitVec.toNat_ushiftRight, Nat.shiftLeft_eq,
    Nat.shiftRight_eq_div_pow]
  exact Nat.mod_eq_of_lt (Nat.lt_of_le_of_lt (Nat.div_mul_le_self _ _) w.isLt)

theorem and_twoPow_seven (w : InstrWord) : (w &&& BitVec.twoPow 16 7).toNat = w.toNat / 0x80 % 2 * 0x80 := by
  rw [BitVec.toNat_and, BitVec.toNat_twoPow_of_lt (by decide), Nat.and_two_pow, Nat.toNat_testBit]
  rfl

theorem leadingRow_holds {k p : Nat} (h : p * 2 ^ k < 2 ^ 16) {w : InstrWord} :
    (leadingRow k p).holds w = true ↔ w.toNat / 2 ^ k = p := by
  rw [OpcodeRow.holds, leadingRow, beq_iff_eq, BitVec.toNat_eq, and_allOnes_shiftLeft, BitVec.toNat_ofNat,
    Nat.mod_eq_of_lt h]
  exact Nat.mul_left_inj (Nat.two_pow_pos k).ne'

theorem transferRow_holds {type dir : Nat} (h : type < 4) (h' : dir < 2) {w : InstrWord} :
    (transferRow type dir).holds w = true ↔ w.toNat / 0x1000 = 4 + type ∧ w.toNat / 0x80 % 2 = dir := by
  have hapart : (w &&& BitVec.allOnes 16 <<< 12) &&& (w &&& BitVec.twoPow 16 7) = 0 := by
    calc (w &&& BitVec.allOnes 16 <<< 12) &&& (w &&& BitVec.twoPow 16 7)
      _ = (w &&& w) &&& (BitVec.allOnes 16 <<< 12 &&& BitVec.twoPow 16 7) := by ac_rfl
      _ = (w &&& w) &&& 0 := rfl
      _ = 0 := BitVec.and_zero
  rw [OpcodeRow.holds, transferRow, beq_iff_eq, BitVec.toNat_eq, BitVec.and_or_distrib_left,
    ← BitVec.add_eq_or_of_and_eq_zero _ _ hapart, BitVec.toNat_add, and_allOnes_shiftLeft, and_twoPow_seven,
    BitVec.toNat_ofNat]
  omega

/-! ### The tables of the decoder and the opcode table, entry by entry -/

theorem groupITable_entries (sa sb d : Reg) :
    groupITable.map (fun f => (encodeWord (f sa sb d), (f sa sb d).row)) =
      (List.range 8).map fun op => (wordG1 op sa sb d, leadingRow 12 (8 + op)) := rfl

theorem groupIITable_entries (s d : Reg) :
    groupIITable.map (fun f => (encodeWord (f s d), (f s d).row)) =
      (List.range 16).map fun op => (wordG2 op s d, leadingRow 8 (0x40 + op)) := rfl

theorem groupIIITable_entries (a : Reg) (m : Mode) (b : Reg) :
    groupIIITable.map (Option.map fun f => (encodeWord (f a m b), (f a m b).row)) =
      (List.range 8).map fun k =>
        if 2 ≤ k then some (wordG3 (k / 2) (k % 2) a m b, transferRow (k / 2) (k % 2)) else none := rfl

theorem branchModeTable_entries (m : Mode) (r : Reg) :
    branchModeTable.map (Option.map fun f => (encodeWord (f m r), (f m r).row)) =
      (List.range 16).map fun cc => if 1 ≤ cc ∧ cc < 14 then some (wordBM cc m r, leadingRow 7 cc) else none := rfl

theorem op1Table_entries (m : Mode) (r : Reg) :
    op1Table.map (fun f => (encodeWord (f m r), (f m r).row)) =
      (List.range 8).map fun op => (wordO1 op m r, leadingRow 7 (0x10 + op)) := rfl

theorem op0Table_entries :
    op0Table.map (fun i => (encodeWord i, i.row)) =
      (List.range 8).map fun op => (wordO0 op, leadingRow 0 (0xC00 + op)) := rfl

theorem quickTable_entries (v : BitVec 8) (r : Reg) :
    quickTable.map (fun f => (encodeWord (f v r), (f v r).row)) =
      (List.range 2).map fun op => (wordQ op v r, leadingRow 12 (2 + op)) := rfl

theorem branchShortTable_entries (v : BitVec 8) :
    branchShortTable.map (Option.map fun f => (encodeWord (f v), (f v).row)) =
      (List.range 16).map fun cc => if 1 ≤ cc ∧ cc < 14 then some (wordBQ cc v, leadingRow 8 (0x10 + cc)) else none := rfl

theorem opcodeRows_eq :
    opcodeRows =
      (List.range 8).map (fun op => leadingRow 12 (8 + op)) ++
      (List.range 16).map (fun op => leadingRow 8 (0x40 + op)) ++
      (List.range 3).map (fun k => transferRow (1 + k) 1) ++
      (List.range 3).map (fun k => transferRow (1 + k) 0) ++
      (List.range 13).map (fun k => leadingRow 7 (1 + k)) ++
      (List.range 8).map (fun op => leadingRow 7 (0x10 + op)) ++
      (List.range 8).map (fun op => leadingRow 0 (0xC00 + op)) ++
      (List.range 2).map (fun op => leadingRow 12 (2 + op)) ++
      (List.range 13).map (fun k => leadingRow 8 (0x10 + (1 + k))) := by decide

/-! ### Every word of a row is the word of an instruction of that row -/

/-- The table's equation, read at one place. -/
theorem exists_of_entries {α : Type} {l : List α} {f : α → Instr} {n k : Nat} {g : Nat → InstrWord × OpcodeRow}
    (h : l.map (fun a => (encodeWord (f a), (f a).row)) = (List.range n).map g) (hk : k < n) :
    ∃ i : Instr, (encodeWord i, i.row) = g k := by
  have hmem : g k ∈ l.map fun a => (encodeWord (f a), (f a).row) := h ▸ List.mem_map_of_mem (List.mem_range.2 hk)
  obtain ⟨a, -, ha⟩ := List.mem_map.1 hmem
  exact ⟨f a, ha⟩

/-- The same of a table with free places. -/
theorem exists_of_some_entries {α : Type} {l : List (Option α)} {f : α → Instr} {n k : Nat} {p : Nat → Prop}
    [DecidablePred p] {g : Nat → InstrWord × OpcodeRow}
    (h : l.map (Option.map fun a => (encodeWord (f a), (f a).row)) =
      (List.range n).map fun k => if p k then some (g k) else none) (hk : k < n) (hp : p k) :
    ∃ i : Instr, (encodeWord i, i.row) = g k := by
  have hmem : some (g k) ∈ l.map (Option.map fun a => (encodeWord (f a), (f a).row)) := by
    rw [h]
    exact List.mem_map.2 ⟨k, List.mem_range.2 hk, if_pos hp⟩
  obtain ⟨o, -, ho⟩ := List.mem_map.1 hmem
  obtain ⟨a, -, ha⟩ := Option.map_eq_some_iff.1 ho
  exact ⟨f a, ha⟩

/-- The word belongs to the row, and is the word of an instruction whose row it is. -/
def IsReadAs (w : InstrWord) (q : OpcodeRow) : Prop :=
  q.holds w = true ∧ ∃ i : Instr, (encodeWord i, i.row) = (w, q)

section
variable {w : InstrWord}

theorem isReadAs_G1 {op : Nat} (h : op < 8) (hw : w.toNat / 2 ^ 12 = 8 + op) : IsReadAs w (leadingRow 12 (8 + op)) := by
  have hword : wordG1 op (regField w 8) (regField w 4) (regField w 0) = w := by
    apply BitVec.eq_of_toNat_eq
    simp only [wordG1_toNat h, regField_val]
    omega
  exact ⟨(leadingRow_holds (by omega)).2 hw, hword ▸ exists_of_entries (groupITable_entries _ _ _) h⟩

theorem isReadAs_G2 {op : Nat} (h : op < 16) (hw : w.toNat / 2 ^ 8 = 0x40 + op) :
    IsReadAs w (leadingRow 8 (0x40 + op)) := by
  have hword : wordG2 op (regField w 4) (regField w 0) = w := by
    apply BitVec.eq_of_toNat_eq
    simp only [wordG2_toNat h, regField_val]
    omega
  exact ⟨(leadingRow_holds (by omega)).2 hw, hword ▸ exists_of_entries (groupIITable_entries _ _) h⟩

theorem isReadAs_G3 {type dir : Nat} (h0 : 0 < type) (h : type < 4) (hd : dir < 2)
    (hw : w.toNat / 0x1000 = 4 + type ∧ w.toNat / 0x80 % 2 = dir) : IsReadAs w (transferRow type dir) := by
  have hword : wordG3 type dir (regField w 8) (modeField w) (regField w 0) = w := by
    apply BitVec.eq_of_toNat_eq
    simp only [wordG3_toNat h hd, regField_val, modeField_code]
    omega
  have hentry := exists_of_some_entries (k := 2 * type + dir)
    (groupIIITable_entries (regField w 8) (modeField w) (regField w 0)) (by omega) (by omega)
  have htype : (2 * type + dir) / 2 = type := by omega
  have hdir : (2 * type + dir) % 2 = dir := by omega
  exact ⟨(transferRow_holds h hd).2 hw, by simpa only [htype, hdir, hword] using hentry⟩

theorem isReadAs_BM {cc : Nat} (h : 1 ≤ cc ∧ cc < 14) (hw : w.toNat / 2 ^ 7 = cc) : IsReadAs w (leadingRow 7 cc) := by
  have hword : wordBM cc (modeField w) (regField w 0) = w := by
    apply BitVec.eq_of_toNat_eq
    simp only [wordBM_toNat (by omega : cc < 16), regField_val, modeField_code]
    omega
  exact ⟨(leadingRow_holds (by omega)).2 hw,
    hword ▸ exists_of_some_entries (branchModeTable_entries _ _) (by omega) h⟩

theorem isReadAs_O1 {op : Nat} (h : op < 8) (hw : w.toNat / 2 ^ 7 = 0x10 + op) : IsReadAs w (leadingRow 7 (0x10 + op)) := by
  have hword : wordO1 op (modeField w) (regField w 0) = w := by
    apply BitVec.eq_of_toNat_eq
    simp only [wordO1_toNat h, regField_val, modeField_code]
    omega
  exact ⟨(leadingRow_holds (by omega)).2 hw, hword ▸ exists_of_entries (op1Table_entries _ _) h⟩

theorem isReadAs_O0 {op : Nat} (h : op < 8) (hw : w.toNat / 2 ^ 0 = 0xC00 + op) :
    IsReadAs w (leadingRow 0 (0xC00 + op)) := by
  have hword : wordO0 op = w := by
    apply BitVec.eq_of_toNat_eq
    simp only [wordO0_toNat h]
    omega
  exact ⟨(leadingRow_holds (by omega)).2 hw, hword ▸ exists_of_entries op0Table_entries h⟩

theorem isReadAs_Q {op : Nat} (h : op < 2) (hw : w.toNat / 2 ^ 12 = 2 + op) : IsReadAs w (leadingRow 12 (2 + op)) := by
  have hword : wordQ op (valueField w 4) (regField w 0) = w := by
    apply BitVec.eq_of_toNat_eq
    simp only [wordQ_toNat h, regField_val, valueField_toNat]
    omega
  exact ⟨(leadingRow_holds (by omega)).2 hw, hword ▸ exists_of_entries (quickTable_entries _ _) h⟩

theorem isReadAs_BQ {cc : Nat} (h : 1 ≤ cc ∧ cc < 14) (hw : w.toNat / 2 ^ 8 = 0x10 + cc) :
    IsReadAs w (leadingRow 8 (0x10 + cc)) := by
  have hword : wordBQ cc (valueField w 0) = w := by
    apply BitVec.eq_of_toNat_eq
    simp only [wordBQ_toNat (by omega : cc < 16), valueField_toNat]
    omega
  exact ⟨(leadingRow_holds (by omega)).2 hw,
    hword ▸ exists_of_some_entries (branchShortTable_entries _) (by omega) h⟩

/-- Every word of a row of the opcode table is read as that row (R105). -/
theorem isReadAs_of_mem {q : OpcodeRow} (hq : q ∈ opcodeRows) (hw : q.holds w = true) : IsReadAs w q := by
  rw [opcodeRows_eq] at hq
  simp only [List.mem_append, List.mem_map, List.mem_range, or_assoc] at hq
  obtain ⟨k, hk, rfl⟩ | ⟨k, hk, rfl⟩ | ⟨k, hk, rfl⟩ | ⟨k, hk, rfl⟩ | ⟨k, hk, rfl⟩ | ⟨k, hk, rfl⟩ | ⟨k, hk, rfl⟩ |
    ⟨k, hk, rfl⟩ | ⟨k, hk, rfl⟩ := hq
  · exact isReadAs_G1 hk ((leadingRow_holds (by omega)).1 hw)
  · exact isReadAs_G2 hk ((leadingRow_holds (by omega)).1 hw)
  · exact isReadAs_G3 (by omega) (by omega) (by omega) ((transferRow_holds (by omega) (by omega)).1 hw)
  · exact isReadAs_G3 (by omega) (by omega) (by omega) ((transferRow_holds (by omega) (by omega)).1 hw)
  · exact isReadAs_BM (by omega) ((leadingRow_holds (by omega)).1 hw)
  · exact isReadAs_O1 hk ((leadingRow_holds (by omega)).1 hw)
  · exact isReadAs_O0 hk ((leadingRow_holds (by omega)).1 hw)
  · exact isReadAs_Q hk ((leadingRow_holds (by omega)).1 hw)
  · exact isReadAs_BQ (by omega) ((leadingRow_holds (by omega)).1 hw)

/-! ### The words of no row (R106) -/

/-- The word lies in one of the ranges of R106 that depend on no word size. -/
def IsReserved (w : InstrWord) : Prop :=
  w.toNat < 0x80 ∨ (0x700 ≤ w.toNat ∧ w.toNat < 0x800) ∨ (0xC08 ≤ w.toNat ∧ w.toNat < 0x1100) ∨
    (0x1E00 ≤ w.toNat ∧ w.toNat < 0x2000)

/-- The rows and the reserved ranges cover the 65536 words. -/
theorem isReadAs_or_isReserved (w : InstrWord) : (∃ q, IsReadAs w q) ∨ IsReserved w := by
  have hlt := w.isLt
  have hranges : 0x8000 ≤ w.toNat ∨ (0x4000 ≤ w.toNat ∧ w.toNat < 0x5000) ∨ (0x5000 ≤ w.toNat ∧ w.toNat < 0x8000) ∨
      (0x80 ≤ w.toNat ∧ w.toNat < 0x700) ∨ (0x800 ≤ w.toNat ∧ w.toNat < 0xC00) ∨ (0xC00 ≤ w.toNat ∧ w.toNat < 0xC08) ∨
      (0x2000 ≤ w.toNat ∧ w.toNat < 0x4000) ∨ (0x1100 ≤ w.toNat ∧ w.toNat < 0x1E00) ∨ IsReserved w := by
    rw [IsReserved]
    omega
  obtain h | h | h | h | h | h | h | h | h := hranges
  · exact .inl ⟨_, isReadAs_G1 (op := w.toNat / 0x1000 - 8) (by omega) (by omega)⟩
  · exact .inl ⟨_, isReadAs_G2 (op := w.toNat / 0x100 - 0x40) (by omega) (by omega)⟩
  · exact .inl ⟨_, isReadAs_G3 (type := w.toNat / 0x1000 - 4) (by omega) (by omega) (Nat.mod_lt _ (by decide))
      ⟨by omega, rfl⟩⟩
  · exact .inl ⟨_, isReadAs_BM (by omega) rfl⟩
  · exact .inl ⟨_, isReadAs_O1 (op := w.toNat / 0x80 - 0x10) (by omega) (by omega)⟩
  · exact .inl ⟨_, isReadAs_O0 (op := w.toNat - 0xC00) (by omega) (by omega)⟩
  · exact .inl ⟨_, isReadAs_Q (op := w.toNat / 0x1000 - 2) (by omega) (by omega)⟩
  · exact .inl ⟨_, isReadAs_BQ (cc := w.toNat / 0x100 - 0x10) (by omega) (by omega)⟩
  · exact .inr h

/-- A reserved word stands at a free place of the branch tables, or past the no-operand table. -/
theorem select_of_isReserved (h : IsReserved w) : select w = none := by
  have hfree {k : Nat} (hk : k = 0 ∨ k = 14 ∨ k = 15) :
      branchModeTable[k]?.join = none ∧ branchShortTable[k]?.join = none := by
    obtain rfl | rfl | rfl := hk <;> exact ⟨rfl, rfl⟩
  have hcases : (w.toNat < 0x800 ∧ (bits w 10 7 = 0 ∨ bits w 10 7 = 14 ∨ bits w 10 7 = 15)) ∨
      (0xC08 ≤ w.toNat ∧ w.toNat < 0x1000) ∨
      (0x1000 ≤ w.toNat ∧ w.toNat < 0x2000 ∧ (bits w 11 8 = 0 ∨ bits w 11 8 = 14 ∨ bits w 11 8 = 15)) := by
    rw [IsReserved] at h
    rw [bits, bits]
    omega
  obtain ⟨hw, hk⟩ | ⟨hw, hw'⟩ | ⟨hw, hw', hk⟩ := hcases
  · rw [select_of_BM hw, (hfree hk).1, Option.map_none]
  · rw [select_of_O0 (by omega) hw', if_neg (by omega)]
  · rw [select_of_BQ hw hw', (hfree hk).2, Option.map_none]

theorem select_eq_none_iff : select w = none ↔ IsReserved w := by
  refine ⟨fun h => ?_, select_of_isReserved⟩
  obtain ⟨q, -, i, hi⟩ | h' := isReadAs_or_isReserved w
  · obtain ⟨rfl, -⟩ := Prod.mk.inj hi
    rw [select_encodeWord] at h
    cases h
  · exact h'

theorem encodeWord_of_select {i : Instr} (h : select w = some i) : encodeWord i = w ∧ i.row.holds w = true := by
  obtain ⟨q, hq, j, hj⟩ | h' := isReadAs_or_isReserved w
  · obtain ⟨rfl, rfl⟩ := Prod.mk.inj hj
    obtain rfl := Option.some.inj ((select_encodeWord j).symm.trans h)
    exact ⟨rfl, hq⟩
  · rw [select_of_isReserved h'] at h
    cases h

end

/-- The length of an instruction can be told from its word (R92, R93). -/
theorem wordHasExtension_encodeWord (i : Instr) : wordHasExtension (encodeWord i) = i.hasExtension := by
  cases i with
  | adc | xor | div | mul | and | or | add | sub => exact Laws.hasExtension_G1 (by decide) _ _ _
  | rlc | rrc | srl | sra | not | sbb | shl | neg | inp | out | swb | rlb | ani | ext | adi | cmp =>
    exact Laws.hasExtension_G2 (by decide) _ _
  | ldb | ldw | ldl | stb | stw | stl => exact Laws.hasExtension_G3 (by decide) (by decide) (by decide) _ _ _
  | jmp | jeq | jne | jge | jle | jgt | jlw | jae | jbe | jab | jbl | jvs | jvc =>
    exact Laws.hasExtension_BM (by decide) _ _
  | jpa | jea | jsr | trp | tst | tsr | msr | mpc => exact Laws.hasExtension_O1 (by decide) _ _
  | nop | hlt | rts | rti | clc | stc | dsi | eni => rfl
  | ldq | adq => exact Laws.hasExtension_Q (by decide) _ _
  | jqmp | jqeq | jqne | jqge | jqle | jqgt | jqlw | jqae | jqbe | jqab | jqbl | jqvs | jqvc =>
    exact Laws.hasExtension_BQ (by decide) _

/-- Settles O2: a word that selects an instruction is its word; a word of a row is the word of an instruction of the row. -/
theorem decodedWordIsTheInstructionsWord : Obligations.DecodedWordIsTheInstructionsWord := by
  unfold Obligations.DecodedWordIsTheInstructionsWord
  refine ⟨fun w i h => ?_, fun q w hq hw => ?_⟩
  · obtain ⟨rfl, hrow⟩ := encodeWord_of_select (decodeWord_eq_ok.1 h)
    exact ⟨rfl, hrow, wordHasExtension_encodeWord i⟩
  · obtain ⟨-, i, hi⟩ := isReadAs_of_mem hq hw
    obtain ⟨rfl, rfl⟩ := Prod.mk.inj hi
    exact ⟨i, decodeWord_eq_ok.2 (select_encodeWord i), rfl⟩

/-- Settles O3: the words of the rows select an instruction, the others none. -/
theorem reservedWordsAreExactlyThese : Obligations.ReservedWordsAreExactlyThese := by
  unfold Obligations.ReservedWordsAreExactlyThese
  intro w
  exact decodeWord_eq_reserved.trans select_eq_none_iff

end Sys2Proof

namespace Sys2Proof.Machine

/-! ## Signed values of fewer bits (R4, R92) -/

/-- A signed n-bit integer survives being stored in n bits. -/
theorem sint_wordOfInt {n : Nat} (hpos : 0 < n) (hn : n ≤ 32) {i : Int} (hlow : -2 ^ (n - 1) ≤ i)
    (hhigh : i ≤ 2 ^ (n - 1) - 1) : sint n (wordOfInt n i) = i := by
  obtain ⟨k, rfl⟩ : ∃ k, n = k + 1 := ⟨n - 1, by omega⟩
  have hpow : (2 : Int) ^ (k + 1) = 2 ^ k + 2 ^ k := by rw [pow_succ]; omega
  have hpowNat : (2 : Nat) ^ (k + 1) = 2 ^ k + 2 ^ k := by rw [pow_succ]; omega
  have hcast : ((2 ^ k : Nat) : Int) = 2 ^ k := by push_cast; rfl
  have hself : (wordOfInt (k + 1) i).toNat % 2 ^ (k + 1) = (wordOfInt (k + 1) i).toNat :=
    Nat.mod_eq_of_lt (by rw [← narrow_wordOfInt hn]; exact narrow_lt _ _)
  rw [Nat.add_sub_cancel] at hlow hhigh
  rw [sint_eq hpos, hself, wordOfInt_toNat hn, Nat.add_sub_cancel]
  by_cases hneg : i < 0
  · have hmod : i % 2 ^ (k + 1) = i + 2 ^ (k + 1) := by
      rw [← Int.add_emod_right, Int.emod_eq_of_lt (by omega) (by omega)]
    rw [hmod]
    split <;> omega
  · rw [Int.emod_eq_of_lt (by omega) (by omega)]
    split <;> omega

/-- Extending the sign of w bits to n keeps the number (R4). -/
theorem sint_sext {n w : Nat} (hw : 0 < w) (hwn : w ≤ n) (hn : n ≤ 32) (v : Word) : sint n (sext n w v) = sint w v := by
  obtain ⟨hlow, hhigh⟩ := sint_bounds hw v
  have hle : (2 : Int) ^ (w - 1) ≤ 2 ^ (n - 1) := pow_le_pow_right₀ (by decide) (by omega)
  exact sint_wordOfInt (by omega) hn (by omega) (by omega)

theorem size_bits_pos (z : Size) : 0 < z.bits := by cases z <;> decide

/-- The extension word is never wider than a CPU word (R92). -/
theorem ieSize_bits_le (s : State) : s.params.ieSize.bits ≤ s.n := by
  have hsize (z : Size) : z.bits ≤ 32 := by cases z <;> decide
  rcases s.n_cases with ⟨hp, hn, _⟩ | ⟨hp, hn, _⟩ <;> rw [hn, Params.ieSize, hp]
  · exact le_refl Size.two.bits
  · exact hsize _

/-- The extension word is an N-bit value (R92). -/
theorem narrow_extensionWord (s : State) : narrow s.n s.extensionWord = s.extensionWord := by
  rw [State.extensionWord]
  split
  · exact narrow_wordOfInt s.n_le _
  · next h =>
    have hbits : s.params.ieSize.bits = s.n := Nat.le_antisymm (ieSize_bits_le s) (Nat.not_lt.1 h)
    exact narrow_of_lt (hbits ▸ bytesAt_lt s _ _)

/-- The extension word stands for the signed number its bytes stand for (R92). -/
theorem sint_extensionWord (s : State) :
    sint s.n s.extensionWord = sint s.params.ieSize.bits (s.bytesAt s.pc s.params.ieSize.bytes) := by
  have hle := ieSize_bits_le s
  rw [State.extensionWord]
  split
  · exact sint_sext (size_bits_pos _) hle s.n_le _
  · next h => rw [Nat.le_antisymm hle (Nat.not_lt.1 h)]

/-! ## The addressing modes (R94 to R102) -/

theorem pointerMisaligned_eq_false_of_memRead {r : Reg} {s : State} {p : Word}
    (h : s.memRead (indexedAddr r s) s.T = .next p) : pointerMisaligned .indirectIndexed r s = false := by
  rw [pointerMisaligned, (memRead_eq_next.1 h).1, Bool.and_false]

/-- Settles O19: each mode is ready, and yields the location, the address and the state of its row of the table. -/
theorem addressingModesFollowTheTable : Obligations.AddressingModesFollowTheTable := by
  unfold Obligations.AddressingModesFollowTheTable
  intro s r z
  have plain {m : Mode} (hext : m.hasExtension = false) (hm : m ≠ .indirectIndexed) : addressReady m r s :=
    ⟨by simp [hext], by simp [pointerMisaligned, hm]⟩
  refine ⟨sint_extensionWord s, ?_, ?_, ?_, ?_, ?_⟩
  · exact evalMode_eq_next.2 ⟨plain rfl (by decide), rfl⟩
  · exact evalMode_eq_next.2 ⟨plain rfl (by decide), rfl⟩
  · exact evalMode_eq_next.2 ⟨plain rfl (by decide), rfl⟩
  · exact evalMode_eq_next.2 ⟨plain rfl (by decide), rfl⟩
  · rintro u rfl hfetch
    refine ⟨?_, ?_, ?_, fun p hp => ?_⟩
    · exact evalMode_eq_next.2 ⟨⟨fun _ => hfetch, rfl⟩, rfl⟩
    · exact evalMode_eq_next.2 ⟨⟨fun _ => hfetch, rfl⟩, rfl⟩
    · exact evalMode_eq_next.2 ⟨⟨fun _ => hfetch, rfl⟩, rfl⟩
    · obtain rfl := (memRead_eq_next.1 hp).2
      exact evalMode_eq_next.2 ⟨⟨fun _ => hfetch, pointerMisaligned_eq_false_of_memRead hp⟩, rfl⟩

/-! ## Writing a register at a size (R103) -/

/-- Extending the sign leaves the low bits (R6). -/
theorem narrow_sext {n w : Nat} (hwn : w ≤ n) (hn : n ≤ 32) (v : Word) : narrow w (sext n w v) = narrow w v := by
  apply BitVec.eq_of_toNat_eq
  have hpos : (2 : Int) ^ n ≠ 0 := by positivity
  have hsub : sint w v % 2 ^ w = v.toNat % 2 ^ w := by
    rw [sint, narrow_toNat]
    split <;> simp
  zify
  rw [narrow_toNat, narrow_toNat, sext, wordOfInt_toNat hn]
  push_cast
  rw [Int.toNat_of_nonneg (Int.emod_nonneg _ hpos), Int.emod_emod_of_dvd _ (pow_dvd_pow 2 hwn), hsub]

/-! A datum merged into the low bits of a register: the upper bits stay, the low ones are the datum's. -/

theorem merge_shiftRight (old v : Word) (w : Nat) : (old >>> w <<< w ||| narrow w v) >>> w = old >>> w := by
  apply BitVec.eq_of_getLsbD_eq
  intro i _
  rw [BitVec.getLsbD_ushiftRight, BitVec.getLsbD_or, BitVec.getLsbD_shiftLeft, narrow_getLsbD,
    BitVec.getLsbD_ushiftRight, BitVec.getLsbD_ushiftRight, Nat.add_sub_cancel_left]
  by_cases hin : w + i < 32
  · simp [hin]
  · simp [hin, BitVec.getLsbD_of_ge old (w + i) (by omega)]

theorem narrow_merge (old v : Word) (w : Nat) : narrow w (old >>> w <<< w ||| narrow w v) = narrow w v := by
  apply BitVec.eq_of_getLsbD_eq
  intro i _
  by_cases hlow : i < w <;> simp [hlow]

/-- Merging fewer than n bits into n bits gives n bits. -/
theorem merge_lt {n w : Nat} (hwn : w ≤ n) {old : Word} (hold : old.toNat < 2 ^ n) (v : Word) :
    (old >>> w <<< w ||| narrow w v).toNat < 2 ^ n := by
  have hhigh : (old >>> w <<< w).toNat < 2 ^ n := by
    rw [BitVec.toNat_shiftLeft, BitVec.toNat_ushiftRight, Nat.shiftLeft_eq, Nat.shiftRight_eq_div_pow]
    exact Nat.lt_of_le_of_lt ((Nat.mod_le _ _).trans (Nat.div_mul_le_self _ _)) hold
  have hlow : (narrow w v).toNat < 2 ^ n := Nat.lt_of_lt_of_le (narrow_lt w v) (Nat.pow_le_pow_right (by omega) hwn)
  rw [BitVec.toNat_or]
  exact Nat.or_lt_two_pow hhigh hlow

/-- A size at which a transfer exists is that of a part of a register, or of all of it (R170). -/
theorem transferExists.bits_le {z : Size} {s : State} (h : transferExists z s) : z.bits ≤ s.n := by
  cases z with
  | one => rcases s.n_cases with ⟨_, hn, _⟩ | ⟨_, hn, _⟩ <;> rw [hn] <;> decide
  | two => rcases s.n_cases with ⟨_, hn, _⟩ | ⟨_, hn, _⟩ <;> rw [hn] <;> decide
  | four => rw [State.n, h rfl]; decide

/-- A datum of the size, written to a register at that size, leaves what the statements say (R103). -/
theorem regWrite_narrowWritten {z : Size} {d : Word} {s : State} (hle : z.bits ≤ s.n)
    (hd : narrow z.bits d = d) (r : Reg) : narrowWritten z s (s.x r) d ((regWrite r z d s).x r) := by
  have hself : (s.setX r d).x r = d := by
    rw [setX_x, if_pos rfl]
    exact narrow_of_lt (Nat.lt_of_lt_of_le (hd ▸ narrow_lt _ _) (Nat.pow_le_pow_right (by omega) hle))
  rw [narrowWritten, regWrite]
  split
  · next heq => exact ⟨by rw [hself, hd], fun hlt => absurd heq hlt.ne⟩
  · cases s.params.narrowWrite with
    | zext =>
      simp only [hd, hself, implies_true, and_self]
    | sext =>
      have hx : (s.setX r (sext s.n z.bits d)).x r = sext s.n z.bits d := by
        rw [setX_x, if_pos rfl, sext, narrow_wordOfInt s.n_le]
      simp only [hx, narrow_sext hle s.n_le, sint_sext (size_bits_pos z) hle s.n_le, hd, implies_true, and_self]
    | merge =>
      have hx : (s.setX r (s.x r >>> z.bits <<< z.bits ||| narrow z.bits d)).x r =
          s.x r >>> z.bits <<< z.bits ||| narrow z.bits d := by
        rw [setX_x, if_pos rfl]
        exact narrow_of_lt (merge_lt hle (narrow_lt _ _) d)
      have hlow : narrow z.bits ((s.setX r (s.x r >>> z.bits <<< z.bits ||| narrow z.bits d)).x r) = d := by
        rw [hx, narrow_merge, hd]
      have hhigh : (s.setX r (s.x r >>> z.bits <<< z.bits ||| narrow z.bits d)).x r >>> z.bits = s.x r >>> z.bits := by
        rw [hx, merge_shiftRight]
      exact ⟨hlow, fun _ => hhigh⟩

/-! ## Loads and stores into a register (R172 to R180) -/

section
variable {regs : List Reg} {stored : Nat → Prop} {pc : Word} {f : Flags} {s t : State}

/-- A passage that ends with a write of the flags. -/
theorem changesOnly.setSr (h : changesOnly regs stored pc f s t) (f' : Flags) :
    changesOnly regs stored pc f' s (t.setSr f') := by
  obtain ⟨hpc, -, k, q⟩ := h
  exact ⟨hpc, rfl, { k with }, q⟩

/-- A passage that ends with a write of a register. -/
theorem changesOnly.regWrite (h : changesOnly regs stored pc f s t) (r : Reg) (z : Size) (d : Word) :
    changesOnly (r :: regs) stored pc f s (regWrite r z d t) := by
  obtain ⟨w, hw⟩ := regWrite_eq_setX r z d t
  obtain ⟨hpc, hsr, k, q⟩ := h
  refine hw ▸ ⟨hpc, hsr, { k with reg := fun q hq => ?_ }, q⟩
  obtain ⟨hne, hq⟩ := not_or.1 (mt List.mem_cons.2 hq)
  rw [setX_x, if_neg hne, k.reg q hq]

end

/-- The datum of a transfer describes itself in the flags (R172). -/
theorem transferFlags_changesOnly {regs : List Reg} {stored : Nat → Prop} {pc : Word} {s t : State} {z : Size} {v : Word}
    (hv : narrow z.bits v = v) (h : changesOnly regs stored pc s.sr s t) :
    changesOnly regs stored pc (s.sr.withResult (decide (v = 0)) (v.getLsbD (z.bits - 1)) false false) s
      (t.transferFlags z v) := by
  obtain ⟨-, hsr, -, -⟩ := id h
  rw [← result_eq_withResult hv, ← hsr]
  exact h.setSr _

theorem narrow_bits_operandValue (mode : Mode) (r : Reg) (z : Size) (s : State) :
    narrow z.bits (operandValue mode r z s) = operandValue mode r z s :=
  narrow_of_lt (locValue_lt _ _ _)

theorem load_of_ready {z : Size} {a b : Reg} {mode : Mode} {s : State} (hd : mode.distinctRegisters a b = true)
    (h : operandReady mode b z s) :
    load z a mode b s = .next ((regWrite a z (operandValue mode b z s) (afterOperand mode b z s)).transferFlags z
      (operandValue mode b z s)) := by
  obtain ⟨haddress, hloc⟩ := h
  exact load_eq_next.2 ⟨hd, haddress, locReady_afterOperand.2 hloc, by rw [locValue_afterOperand]⟩

/-- What is written to a register of the state after the operand is what the statements say of the state before. -/
theorem narrowWritten.of_params {z : Size} {s u : State} {old v new : Word} (h : narrowWritten z u old v new)
    (hp : u.params = s.params) : narrowWritten z s old v new := by
  simpa only [narrowWritten, State.n, hp] using h

theorem not_mem_modeRegs {mode : Mode} {a b : Reg} (h : mode.autoModifies = true → a ≠ b) : a ∉ modeRegs mode b := by
  rw [modeRegs]
  split
  · next hauto => simpa using h hauto
  · exact List.not_mem_nil

theorem regWrite_x_other {q r : Reg} (h : q ≠ r) (z : Size) (d : Word) (s : State) : (regWrite r z d s).x q = s.x q := by
  obtain ⟨w, hw⟩ := regWrite_eq_setX r z d s
  rw [hw, setX_x, if_neg h]

/-- Only the modes that step their register ask where it stands. -/
theorem stepped.congr_of_autoModifies {mode : Mode} {r : Reg} {z : Size} {s t u : State} (h : stepped mode r z s t)
    (hx : mode.autoModifies = true → u.x r = t.x r) : stepped mode r z s u := by
  cases mode with
  | postIncrement | preDecrement => exact (hx rfl).trans h
  | immediate | register | indirect | direct | indexed | indirectIndexed => trivial

/-- Settles O38: the operand is evaluated and read, and the datum goes to Ra, which the mode does not step. -/
theorem loadsWriteTheRegister : Obligations.LoadsWriteTheRegister := by
  unfold Obligations.LoadsWriteTheRegister
  intro s z a m b hexists hregs hready
  have hd : m.distinctRegisters a b = true := by
    rw [distinctRegisters_eq_true]
    simpa using hregs
  have hv := narrow_bits_operandValue m b z s
  have hframe := afterOperand_changesOnly m b z s
  have hold : (afterOperand m b z s).x a = s.x a := by
    obtain ⟨-, -, k, -⟩ := hframe
    exact k.reg a (not_mem_modeRegs hregs)
  have hle : z.bits ≤ (afterOperand m b z s).n := by
    rw [afterOperand_n]
    exact hexists.bits_le
  refine ⟨_, (exec_loadInstr hexists a m b).trans (load_of_ready hd hready), ?_, ?_,
    transferFlags_changesOnly hv (hframe.regWrite a z _)⟩
  · have hwritten := regWrite_narrowWritten hle hv a
    rw [hold] at hwritten
    exact hwritten.of_params (afterOperand_params m b z s)
  · exact (afterOperand_stepped m b z s).congr_of_autoModifies fun hauto => regWrite_x_other (hregs hauto).symm z _ _

/-- Settles O40: the store writes Rb as a load writes Ra, with the low bytes of Ra. -/
theorem storeInRegisterModeWritesTheRegister : Obligations.StoreInRegisterModeWritesTheRegister := by
  unfold Obligations.StoreInRegisterModeWritesTheRegister
  intro s z a b hexists
  have hv : narrow z.bits (narrow z.bits (s.x a)) = narrow z.bits (s.x a) := narrow_narrow _ _
  have hstore : store z a .register b s =
      .next ((regWrite b z (narrow z.bits (s.x a)) s).transferFlags z (narrow z.bits (s.x a))) :=
    store_eq_next.2 ⟨by decide, rfl, ⟨nofun, rfl⟩, _, rfl, rfl⟩
  have hsign : (narrow z.bits (s.x a)).getLsbD (z.bits - 1) = (s.x a).getLsbD (z.bits - 1) := by
    have := size_bits_pos z
    rw [narrow_getLsbD, decide_eq_true (by omega), Bool.true_and]
  refine ⟨_, (exec_storeInstr hexists a .register b).trans hstore, regWrite_narrowWritten hexists.bits_le hv b, ?_⟩
  rw [← hsign]
  exact transferFlags_changesOnly hv ((changesOnly.refl s).regWrite b z _)

/-! ## The branches with a mode operand (R200 to R217) -/

/-- The branch with a mode operand of each condition (R201, R204 to R216). -/
def branchInstr : Cond → Mode → Reg → Instr
  | .always => .jmp
  | .eq => .jeq
  | .ne => .jne
  | .ge => .jge
  | .le => .jle
  | .gt => .jgt
  | .lw => .jlw
  | .ae => .jae
  | .be => .jbe
  | .ab => .jab
  | .bl => .jbl
  | .vs => .jvs
  | .vc => .jvc

theorem exec_branchInstr (c : Cond) (mode : Mode) (r : Reg) (s : State) :
    exec (branchInstr c mode r) s = branchMode c mode r s := by cases c <;> rfl

/-- The branches of a family, each with its condition written on the flags (R201), are those of the thirteen conditions. -/
theorem exists_cond_of_mem {branch : Cond → Instr} {f : Flags} {p : Instr × Bool}
    (h : p ∈ [(branch .always, true), (branch .eq, f.ZF), (branch .ne, !f.ZF), (branch .ge, f.NF == f.VF),
      (branch .le, f.NF != f.VF || f.ZF), (branch .gt, f.NF == f.VF && !f.ZF), (branch .lw, f.NF != f.VF),
      (branch .ae, !f.CF), (branch .be, f.CF || f.ZF), (branch .ab, !f.CF && !f.ZF), (branch .bl, f.CF),
      (branch .vs, f.VF), (branch .vc, !f.VF)]) :
    ∃ c : Cond, p = (branch c, c.holds f) := by
  have hsame : (f.NF == f.VF) = !(f.NF ^^ f.VF) := by cases f.NF <;> cases f.VF <;> rfl
  rw [hsame] at h
  simp only [List.mem_cons, List.not_mem_nil, or_false] at h
  obtain h | h | h | h | h | h | h | h | h | h | h | h | h := h
  exacts [⟨.always, h⟩, ⟨.eq, h⟩, ⟨.ne, h⟩, ⟨.ge, h⟩, ⟨.le, h⟩, ⟨.gt, h⟩, ⟨.lw, h⟩, ⟨.ae, h⟩, ⟨.be, h⟩, ⟨.ab, h⟩,
    ⟨.bl, h⟩, ⟨.vs, h⟩, ⟨.vc, h⟩]

theorem afterOperand_T (mode : Mode) (r : Reg) (z : Size) (s : State) : (afterOperand mode r z s).T = s.T := by
  rw [State.T, afterOperand_params, State.T]

theorem readDisplacement_reg (q : Reg) (s : State) : readDisplacement (.reg q) s = readLoc (.reg q) s.T s := rfl

theorem readDisplacement_mem (a : Word) (s : State) : readDisplacement (.mem a) s = readLoc (.mem a) s.T s := rfl

theorem readDisplacement_imm_of_extend {s : State} (h : s.params.branchImmediate = .extend) (v : Word) :
    readDisplacement (.imm v) s = .next v := by
  simp only [readDisplacement, h]

theorem readDisplacement_imm_of_refuse {s : State} (h : s.params.branchImmediate = .refuse) (v : Word) :
    readDisplacement (.imm v) s = readLoc (.imm v) s.T s := by
  simp only [readDisplacement, h]

theorem eq_extensionWord_of_location {mode : Mode} {r : Reg} {z : Size} {s : State} {v : Word}
    (h : location mode r z s = .imm v) : v = s.extensionWord := by
  cases mode with
  | immediate => exact (Loc.imm.inj h).symm
  | register | indirect | postIncrement | preDecrement | direct | indexed | indirectIndexed => cases h

/-- An immediate displacement is the extension word, read as it is or extended to it (R103, R200). -/
theorem readDisplacement_imm {s : State} (h : s.params.branchImmediate = .extend ∨ locReady (.imm s.extensionWord) s.T s)
    {t : State} (hp : t.params = s.params) : readDisplacement (.imm s.extensionWord) t = .next s.extensionWord := by
  cases hb : s.params.branchImmediate with
  | extend => exact readDisplacement_imm_of_extend (hp ▸ hb) _
  | refuse =>
    have hT : t.T = s.T := by rw [State.T, hp, State.T]
    have hready : locReady (.imm s.extensionWord) s.T t := by
      rw [locReady, hp]
      exact h.resolve_left (by simp [hb])
    have hvalue : locValue (.imm s.extensionWord) s.T t = s.extensionWord := by
      rw [locValue, Size.bits, (T_bytes s).1, narrow_extensionWord]
    rw [readDisplacement_imm_of_refuse (hp ▸ hb), hT]
    exact readLoc_eq_next.2 ⟨hready, hvalue.symm⟩

/-- A displacement that is ready is read as the statements write it (R200). -/
theorem readDisplacement_of_ready {mode : Mode} {r : Reg} {s : State} (h : displacementReady mode r s) :
    readDisplacement (location mode r s.T s) (afterOperand mode r s.T s) = .next (displacement mode r s) := by
  obtain ⟨-, hloc⟩ := h
  have hvalue := locValue_afterOperand mode r s.T s
  rw [operandValue] at hvalue
  rw [displacement]
  cases hl : location mode r s.T s with
  | imm v =>
    obtain rfl := eq_extensionWord_of_location hl
    simp only [hl] at hloc
    exact readDisplacement_imm hloc (afterOperand_params mode r s.T s)
  | reg q =>
    rw [hl] at hvalue
    rw [readDisplacement_reg, afterOperand_T]
    exact readLoc_eq_next.2 ⟨trivial, hvalue.symm⟩
  | mem a =>
    rw [hl] at hvalue
    simp only [hl] at hloc
    rw [readDisplacement_mem, afterOperand_T]
    exact readLoc_eq_next.2 ⟨locReady_afterOperand.2 hloc, hvalue.symm⟩

theorem branchMode_of_unaligned {c : Cond} {mode : Mode} {r : Reg} {s : State} (h : operandUnaligned mode r s.T s) :
    branchMode c mode r s = .fault .misalignedAccess := by
  obtain heval | ⟨o, a, heval, hloc, hodd⟩ := evalMode_of_operandUnaligned h
  · rw [branchMode, heval, andThen_fault]
  · have hT : o.state.T = s.T := by
      obtain ⟨-, rfl⟩ := evalMode_eq_next.1 heval
      exact afterOperand_T mode r s.T s
    rw [branchMode, heval, andThen_next, hloc, readDisplacement_mem, hT,
      (readLoc_writeLoc_of_misaligned hodd o.state 0).1, andThen_fault]

/-- An operand in immediate mode whose extension word can be fetched (R95). -/
theorem evalMode_immediate {s : State} (h : fetchReady s.params.ieSize s) (r : Reg) (z : Size) :
    evalMode .immediate r z s = .next ⟨.imm s.extensionWord, some s.pc, afterOperand .immediate r z s⟩ :=
  evalMode_eq_next.2 ⟨⟨fun _ => h, rfl⟩, rfl⟩

theorem readLoc_imm_of_narrow {s : State} {z : Size} (h : s.params.ieSize.bytes < z.bytes) (v : Word) :
    readLoc (.imm v) z s = .refused .immediateTooNarrow := if_pos h

theorem branchMode_of_narrow {c : Cond} {r : Reg} {s : State} (h : s.params.branchImmediate = .refuse)
    (hnarrow : s.params.ieSize.bytes < s.T.bytes) (hfetch : fetchReady s.params.ieSize s) :
    branchMode c .immediate r s = .refused .immediateTooNarrow := by
  rw [branchMode, evalMode_immediate hfetch, andThen_next,
    readDisplacement_imm_of_refuse (by rw [afterOperand_params, h]), afterOperand_T,
    readLoc_imm_of_narrow (by rwa [afterOperand_params]), andThen_refused]

/-- Settles O43: each of the thirteen is `branchMode` of its condition, which reads the displacement before it looks at the
flags. -/
theorem modeBranchesAddTheDisplacement : Obligations.ModeBranchesAddTheDisplacement := by
  unfold Obligations.ModeBranchesAddTheDisplacement
  intro s m r p hp
  obtain ⟨c, rfl⟩ := exists_cond_of_mem (branch := fun c => branchInstr c m r) hp
  simp only [exec_branchInstr]
  refine ⟨fun hready => ?_, branchMode_of_unaligned, ?_⟩
  · have hexec := branchMode_eq_next (c := c).2 ⟨hready.1, _, readDisplacement_of_ready hready, rfl⟩
    have hframe := afterOperand_changesOnly m r s.T s
    have hpc : (afterOperand m r s.T s).pc = nextPc m s := hframe.1
    refine ⟨_, hexec, ?_⟩
    rw [hpc]
    split
    · exact ⟨(afterOperand_stepped m r s.T s).congr rfl, hframe.setPc _⟩
    · exact ⟨afterOperand_stepped m r s.T s, hframe⟩
  · rintro rfl hrefuse hnarrow hfetch
    exact branchMode_of_narrow hrefuse hnarrow hfetch

/-! ## The operand forms and instructions that stop (R103, R104, R106, R124) -/

theorem store_immediate (z : Size) (a b : Reg) (s : State) : store z a .immediate b s = .refused .writeToImmediate := rfl

section
variable {mode : Mode} {s : State}

theorem load_of_one_register (h : mode.autoModifies = true) (z : Size) (a : Reg) :
    load z a mode a s = .refused .sameRegisterAutomodify :=
  if_pos (by rw [h, beq_self_eq_true]; rfl)

theorem store_of_one_register (h : mode.autoModifies = true) (z : Size) (a : Reg) :
    store z a mode a s = .refused .sameRegisterAutomodify := by
  have himm : mode ≠ .immediate := by rintro rfl; cases h
  rw [store, if_neg himm, if_pos (by rw [h, beq_self_eq_true]; rfl)]

/-- An immediate operand wider than the extension word is evaluated and not read (R103). -/
theorem readOperand_of_narrow (hnarrow : s.params.ieSize.bytes < s.T.bytes) (hfetch : fetchReady s.params.ieSize s) (r : Reg) :
    readOperand .immediate r s = .refused .immediateTooNarrow := by
  rw [readOperand, evalMode_immediate hfetch, andThen_next, readLoc_imm_of_narrow (by rwa [afterOperand_params]),
    andThen_refused]

theorem load_of_narrow {z : Size} (hnarrow : s.params.ieSize.bytes < z.bytes) (hfetch : fetchReady s.params.ieSize s)
    (a b : Reg) : load z a .immediate b s = .refused .immediateTooNarrow := by
  rw [load, if_neg (by simp [Mode.autoModifies]), evalMode_immediate hfetch, andThen_next,
    readLoc_imm_of_narrow (by rwa [afterOperand_params]), andThen_refused]

end

/-- Only 0 stands for the number 0. -/
theorem sint_x_eq_zero {s : State} {r : Reg} : sint s.n (s.x r) = 0 ↔ s.x r = 0 := by
  have hlt : (s.x r).toNat < 2 ^ s.n := narrow_lt _ _
  have hcast : ((2 ^ s.n : Nat) : Int) = 2 ^ s.n := by push_cast; rfl
  rw [sint_eq s.n_pos, Nat.mod_eq_of_lt hlt, BitVec.toNat_eq]
  split
  · simp
  · have hpos := Nat.two_pow_pos (s.n - 1)
    simp only [BitVec.ofNat_eq_ofNat, BitVec.toNat_ofNat, Nat.zero_mod]
    omega

/-- Settles O42: each of them stops at the test of its own reason. -/
theorem refusedOperandFormsStopByName : Obligations.RefusedOperandFormsStopByName := by
  unfold Obligations.RefusedOperandFormsStopByName
  intro s z a b m
  refine ⟨fun hsize => ?_, fun hexists => ?_, fun hexists hauto => ⟨?_, ?_⟩, ?_, ?_, ?_, fun d hzero => ?_, fun hne => ?_,
    fun hsize hie hfetch => ?_⟩
  · simp only [exec, execLdl, execStl, execRlb, hsize, and_self]
  · rw [exec_storeInstr hexists, store_immediate]
  · rw [exec_loadInstr hexists, load_of_one_register hauto]
  · rw [exec_storeInstr hexists, store_of_one_register hauto]
  · simp only [List.forall_mem_cons]
    exact ⟨rfl, rfl, rfl, nofun⟩
  · simp only [List.forall_mem_cons]
    exact ⟨rfl, rfl, nofun⟩
  · simp only [List.forall_mem_cons]
    exact ⟨rfl, rfl, nofun⟩
  · rw [exec, execDiv]
    exact if_pos (sint_x_eq_zero.2 hzero)
  · rw [exec, execDiv]
    exact (if_neg (mt sint_x_eq_zero.1 hne)).trans (if_pos rfl)
  · have hiesize : s.params.ieSize = .two := by rw [Params.ieSize, hsize, hie]
    have hT : s.T = .four := by rw [State.T, hsize, WordSize.bytes]
    have hnarrow : s.params.ieSize.bytes < s.T.bytes := by rw [hiesize, hT]; decide
    rw [← hiesize] at hfetch
    have hread := readOperand_of_narrow hnarrow hfetch b
    simp only [List.forall_mem_cons]
    refine ⟨?_, ?_, ?_, ?_, nofun⟩
    · rw [exec, execLdl_of_n32 hsize]
      exact load_of_narrow (hT ▸ hnarrow) hfetch a b
    · rw [exec, execJpa, hread, andThen_refused]
    · rw [exec, execTst, hread, andThen_refused]
    · rw [exec, execTrp, hread, andThen_refused]

end Sys2Proof.Machine
end

section
/-! PROOF. The statements of `40_group1_three_register.md`: sums and differences with their digits and flags (R122, R128, R129,
R130), the logical operations (R123, R126, R127), MUL and DIV (R124, R125), and the example words of the spec. -/

namespace Sys2Proof

/-! ## Words -/

/-- The first digit of a word of Group I (R81). -/
theorem wordG1_digit {op : Nat} (h : op < 8) (sa sb d : Reg) : (wordG1 op sa sb d).toNat / 0x1000 = 8 + op := by
  rw [wordG1_toNat h]
  omega

theorem decodeWord_encodeWord (i : Instr) : decodeWord (encodeWord i) = .ok i :=
  decodeWord_eq_ok.2 (select_encodeWord i)

/-- Settles O4: each word is the word of the instruction it stands for. -/
theorem exampleWordsDecode : Obligations.ExampleWordsDecode :=
  ⟨decodeWord_encodeWord (.adc 1 2 3), decodeWord_encodeWord (.inp 1 2), decodeWord_encodeWord (.ldw 1 .postIncrement 2),
    decodeWord_encodeWord (.stw 1 .preDecrement 15), decodeWord_encodeWord (.jmp .register 3),
    decodeWord_encodeWord (.jea .indexed 2), decodeWord_encodeWord .stc, decodeWord_encodeWord (.adq 0xFF 3),
    decodeWord_encodeWord (.jqne 0xFA)⟩

end Sys2Proof

namespace Sys2Proof.Machine

theorem x_lt (s : State) (r : Reg) : (s.x r).toNat < 2 ^ s.n := narrow_lt _ _

/-! ## A result to a register -/

/-- A result that goes to Rd and to the flags: the flags describe it, and nothing else changes (R12). -/
theorem setX_setResult_changesOnly {s : State} {v : Word} (hv : narrow s.n v = v) (d : Reg) (vf cf : Bool) :
    changesOnly [d] noByte s.pc (s.sr.withResult (decide (v = 0)) (v.getLsbD (s.n - 1)) vf cf) s
      ((s.setX d v).setResult v vf cf) := by
  rw [← result_eq_withResult hv]
  exact (setX_changesOnly s d v).setResult v vf cf

theorem setX_x_self {s : State} {v : Word} (hv : narrow s.n v = v) (d : Reg) : (s.setX d v).x d = v := by
  rw [setX_x, if_pos rfl, hv]

/-- What an arithmetic instruction leaves of its result (R122, R128, R129). -/
theorem writeSum_leaves {s : State} {r : Sum} (hr : r.res.toNat < 2 ^ s.n) (d : Reg) :
    ∃ t, writeSum d r s = .next t ∧ t.x d = r.res ∧
      changesOnly [d] noByte s.pc
        (s.sr.withResult (decide (r.res = 0)) (r.res.getLsbD (s.n - 1)) r.overflow r.carry) s t :=
  ⟨_, rfl, setX_x_self (narrow_of_lt hr) d, setX_setResult_changesOnly (narrow_of_lt hr) d _ _⟩

/-- What a logical instruction leaves of its result (R123, R126, R127). -/
theorem writeLogic_leaves {s : State} {v : Word} (hv : narrow s.n v = v) (d : Reg) :
    ∃ t, writeLogic d v s = .next t ∧ t.x d = v ∧
      changesOnly [d] noByte s.pc (s.sr.withResult (decide (v = 0)) (v.getLsbD (s.n - 1)) false false) s t :=
  ⟨_, rfl, setX_x_self hv d, setX_setResult_changesOnly hv d _ _⟩

/-- The sign of an N-bit result, as a comparison of its number (R31). -/
theorem getLsbD_sign {n : Nat} (h : 0 < n) {v : Word} (hv : v.toNat < 2 ^ n) :
    v.getLsbD (n - 1) = decide (2 ^ (n - 1) ≤ v.toNat) := by
  rw [← signBit, signBit_eq h, Nat.mod_eq_of_lt hv]

/-! ## AddC and SubB (R10, R11) -/

theorem addC_res_toNat {n : Nat} (hn : n ≤ 32) (a b : Word) (c : Bool) :
    (addC n a b c).res.toNat = (a.toNat + b.toNat + c.toNat) % 2 ^ n := by
  have hmod := Nat.mod_lt (a.toNat + b.toNat + c.toNat) (Nat.two_pow_pos n)
  have hpow : 2 ^ n ≤ 2 ^ 32 := Nat.pow_le_pow_right (by decide) hn
  rw [addC, BitVec.toNat_ofNat, Nat.mod_eq_of_lt (by omega)]

theorem addC_res_lt {n : Nat} (hn : n ≤ 32) (a b : Word) (c : Bool) : (addC n a b c).res.toNat < 2 ^ n :=
  addC_res_toNat hn a b c ▸ Nat.mod_lt _ (Nat.two_pow_pos n)

/-- The result and the carry of a sum of n-bit values are its two digits (R10). -/
theorem addC_digits {n : Nat} (hn : n ≤ 32) {a b : Word} (ha : a.toNat < 2 ^ n) (hb : b.toNat < 2 ^ n) (c : Bool) :
    (addC n a b c).res.toNat + 2 ^ n * (addC n a b c).carry.toNat = a.toNat + b.toNat + c.toNat := by
  have hc : c.toNat ≤ 1 := Bool.toNat_le c
  have hcarry : (addC n a b c).carry = decide (2 ^ n ≤ a.toNat + b.toNat + c.toNat) := rfl
  rw [addC_res_toNat hn, hcarry]
  by_cases h : 2 ^ n ≤ a.toNat + b.toNat + c.toNat
  · rw [decide_eq_true h, Nat.mod_eq_sub_mod h, Nat.mod_eq_of_lt (by omega), Bool.toNat_true]
    omega
  · rw [decide_eq_false h, Nat.mod_eq_of_lt (by omega), Bool.toNat_false]
    rfl

/-- The complement on n bits, in arithmetic (R5). -/
theorem notN_toNat {n : Nat} (hn : n ≤ 32) {b : Word} (hb : b.toNat < 2 ^ n) :
    (notN n b).toNat = 2 ^ n - 1 - b.toNat := by
  have hpow : 2 ^ 32 = 2 ^ n * (2 ^ (32 - n) - 1) + 2 ^ n := by
    rw [← Nat.mul_succ, Nat.succ_eq_add_one, Nat.sub_add_cancel (Nat.one_le_two_pow), ← pow_add, Nat.add_sub_cancel' hn]
  have hsplit : 2 ^ 32 - 1 - b.toNat = 2 ^ n * (2 ^ (32 - n) - 1) + (2 ^ n - 1 - b.toNat) := by omega
  rw [notN, narrow_toNat, BitVec.toNat_not, hsplit, Nat.mul_add_mod, Nat.mod_eq_of_lt (by omega)]

theorem sint_notN {n : Nat} (hpos : 0 < n) (hn : n ≤ 32) {b : Word} (hb : b.toNat < 2 ^ n) :
    sint n (notN n b) = -1 - sint n b := by
  have hnot := notN_toNat hn hb
  have hhalf : 2 ^ n = 2 * 2 ^ (n - 1) := by rw [← pow_succ', Nat.sub_add_cancel hpos]
  have hcast : ((2 ^ n : Nat) : Int) = 2 ^ n := by push_cast; rfl
  rw [sint_eq hpos, sint_eq hpos, Nat.mod_eq_of_lt (by omega), Nat.mod_eq_of_lt hb]
  split <;> split <;> omega

theorem subB_res_lt {n : Nat} (hn : n ≤ 32) (a b : Word) (c : Bool) : (subB n a b c).res.toNat < 2 ^ n :=
  addC_res_lt hn a (notN n b) !c

/-- The result and the borrow of a difference of n-bit values: what was borrowed and the minuend make up the result and what
was subtracted (R11). -/
theorem subB_digits {n : Nat} (hn : n ≤ 32) {a b : Word} (ha : a.toNat < 2 ^ n) (hb : b.toNat < 2 ^ n) (c : Bool) :
    a.toNat + 2 ^ n * (subB n a b c).carry.toNat = (subB n a b c).res.toNat + b.toNat + c.toNat := by
  have hnot := notN_toNat hn hb
  have hsum := addC_digits hn ha (b := notN n b) (by omega) (!c)
  have hres : (subB n a b c).res = (addC n a (notN n b) !c).res := rfl
  have hcarry : (subB n a b c).carry = !(addC n a (notN n b) !c).carry := rfl
  rw [hres, hcarry]
  have hnegated (q : Bool) : (!q).toNat + q.toNat = 1 := by cases q <;> rfl
  have hc := hnegated c
  have hborrow := congrArg (2 ^ n * ·) (hnegated (addC n a (notN n b) !c).carry)
  simp only [Nat.mul_add, Nat.mul_one] at hborrow
  omega

theorem subB_overflow {n : Nat} (hpos : 0 < n) (hn : n ≤ 32) {b : Word} (hb : b.toNat < 2 ^ n) (a : Word) (c : Bool) :
    (subB n a b c).overflow = overflows n (sint n a - sint n b - c.toNat) := by
  have hoverflow : (subB n a b c).overflow = overflows n (sint n a + sint n (notN n b) + (!c).toNat) := rfl
  have hsum : sint n a + sint n (notN n b) + (!c).toNat = sint n a - sint n b - c.toNat := by
    rw [sint_notN hpos hn hb]
    cases c <;> simp <;> omega
  rw [hoverflow, hsum]

/-! ### What the digits say -/

/-- A sum's digits, as a remainder and a comparison. -/
theorem mod_and_carry_of_digits {m r x : Nat} {c : Bool} (hr : r < m) (h : r + m * c.toNat = x) :
    x % m = r ∧ (c = true ↔ m ≤ x) := by
  subst h
  refine ⟨by rw [Nat.add_mul_mod_self_left, Nat.mod_eq_of_lt hr], ?_⟩
  cases c with
  | false => simpa using hr
  | true => simp

/-- A difference's digits, as a remainder and a comparison. -/
theorem mod_and_borrow_of_digits {m r x y : Nat} {c : Bool} (hr : r < m) (h : x + m * c.toNat = r + y) :
    (x + m - y) % m = r ∧ (c = true ↔ x < y) := by
  cases c with
  | false =>
    have hx : x = r + y := by simpa using h
    have hsub : x + m - y = r + m := by omega
    refine ⟨by rw [hsub, Nat.add_mod_right, Nat.mod_eq_of_lt hr], ?_⟩
    simp [hx]
  | true =>
    have hx : x + m = r + y := by simpa using h
    refine ⟨by rw [hx, Nat.add_sub_cancel, Nat.mod_eq_of_lt hr], ?_⟩
    simp only [true_iff]
    omega

/-- A difference is 0 exactly for equal numbers. -/
theorem eq_zero_iff_of_digits {m r x y : Nat} {c : Bool} (hr : r < m) (hy : y < m) (h : x + m * c.toNat = r + y) :
    r = 0 ↔ x = y := by
  cases c with
  | false =>
    have hx : x = r + y := by simpa using h
    omega
  | true =>
    have hx : x + m = r + y := by simpa using h
    omega

/-- The low and the high digits of a two-digit sum. -/
theorem two_digit_sum {m l h al bl ah bh : Nat} {c₀ c₁ : Bool} (hlow : l + m * c₀.toNat = al + bl)
    (hhigh : h + m * c₁.toNat = ah + bh + c₀.toNat) :
    h * m + l + m * m * c₁.toNat = ah * m + al + (bh * m + bl) := by
  calc h * m + l + m * m * c₁.toNat
    _ = m * (h + m * c₁.toNat) + l := by ring
    _ = m * (ah + bh) + (l + m * c₀.toNat) := by rw [hhigh]; ring
    _ = ah * m + al + (bh * m + bl) := by rw [hlow]; ring

/-- At most one of two subtractions in a row, the first of at most 1, borrows. -/
theorem not_two_borrows {m h mid x y : Nat} {c₀ c₁ c₂ : Bool} (hh : h < m) (hy : y < m)
    (hfirst : x + m * c₁.toNat = mid + c₀.toNat) (hsecond : mid + m * c₂.toNat = h + y) : (c₁ && c₂) = false := by
  have hc := Bool.toNat_le c₀
  cases c₁ with
  | false => rfl
  | true =>
    cases c₂ with
    | false => rfl
    | true =>
      simp only [Bool.toNat_true, Nat.mul_one] at hfirst hsecond
      omega

/-- The low and the high digits of a two-digit difference, the high one formed in two steps. -/
theorem two_digit_difference {m l h mid al bl ah bh : Nat} {c₀ c₁ c₂ : Bool} (hone : (c₁ && c₂) = false)
    (hlow : al + m * c₀.toNat = l + bl) (hfirst : ah + m * c₁.toNat = mid + c₀.toNat)
    (hsecond : mid + m * c₂.toNat = h + bh) :
    ah * m + al + m * m * (c₁ || c₂).toNat = h * m + l + (bh * m + bl) := by
  have hor : (c₁ || c₂).toNat = c₁.toNat + c₂.toNat := by
    cases c₁ with
    | false => simp
    | true => simpa using hone
  refine Nat.add_right_cancel (m := m * c₀.toNat + m * mid) ?_
  calc ah * m + al + m * m * (c₁ || c₂).toNat + (m * c₀.toNat + m * mid)
    _ = m * (ah + m * c₁.toNat) + m * (mid + m * c₂.toNat) + (al + m * c₀.toNat) := by rw [hor]; ring
    _ = m * (mid + c₀.toNat) + m * (h + bh) + (l + bl) := by rw [hfirst, hsecond, hlow]
    _ = h * m + l + (bh * m + bl) + (m * c₀.toNat + m * mid) := by ring

theorem two_digits_lt {m h l : Nat} (hh : h < m) (hl : l < m) : h * m + l < m * m :=
  calc h * m + l
    _ < (h + 1) * m := by rw [Nat.succ_mul]; omega
    _ ≤ m * m := Nat.mul_le_mul_right m hh

/-! ## ADD, ADC and SUB (R122, R128, R129) -/

/-- The sum of two registers and a carry, as ADD and ADC write it. -/
theorem writeSum_addC (s : State) (sa sb d : Reg) (c : Bool) :
    ∃ t, writeSum d (addC s.n (s.x sa) (s.x sb) c) s = .next t ∧
      (t.x d).toNat = ((s.x sa).toNat + (s.x sb).toNat + c.toNat) % 2 ^ s.n ∧
      changesOnly [d] noByte s.pc
        (s.sr.withResult (decide (((s.x sa).toNat + (s.x sb).toNat + c.toNat) % 2 ^ s.n = 0))
          (decide (2 ^ (s.n - 1) ≤ ((s.x sa).toNat + (s.x sb).toNat + c.toNat) % 2 ^ s.n))
          (overflows s.n (sint s.n (s.x sa) + sint s.n (s.x sb) + c.toNat))
          (decide (2 ^ s.n ≤ (s.x sa).toNat + (s.x sb).toNat + c.toNat))) s t := by
  have hlt := addC_res_lt s.n_le (s.x sa) (s.x sb) c
  obtain ⟨t, hnext, hd, hframe⟩ := writeSum_leaves hlt d
  have hzero : (addC s.n (s.x sa) (s.x sb) c).res = 0 ↔ (addC s.n (s.x sa) (s.x sb) c).res.toNat = 0 := BitVec.toNat_eq
  simp only [hzero, getLsbD_sign s.n_pos hlt, addC_res_toNat s.n_le] at hframe
  exact ⟨t, hnext, hd ▸ addC_res_toNat s.n_le _ _ c, hframe⟩

/-- Settles O22: both write the sum with a carry in, for ADD the carry 0. -/
theorem addAndAdcWriteTheSumAndItsFlags : Obligations.AddAndAdcWriteTheSumAndItsFlags := by
  unfold Obligations.AddAndAdcWriteTheSumAndItsFlags
  intro s sa sb d
  simp only [List.forall_mem_cons]
  exact ⟨⟨wordG1_digit (op := 6) (by decide) sa sb d, writeSum_addC s sa sb d false⟩,
    ⟨wordG1_digit (op := 0) (by decide) sa sb d, writeSum_addC s sa sb d s.sr.CF⟩, nofun⟩

/-- Settles O23: the result and the borrow are the digits of the difference. -/
theorem subWritesTheDifferenceAndTheBorrow : Obligations.SubWritesTheDifferenceAndTheBorrow := by
  unfold Obligations.SubWritesTheDifferenceAndTheBorrow
  intro s sa sb d
  have hb := x_lt s sb
  have hlt := subB_res_lt s.n_le (s.x sa) (s.x sb) false
  have hdigits := subB_digits s.n_le (x_lt s sa) hb false
  obtain ⟨hres, hborrow⟩ := mod_and_borrow_of_digits hlt hdigits
  have hzero : (subB s.n (s.x sa) (s.x sb) false).res = 0 ↔ s.x sa = s.x sb := by
    rw [BitVec.toNat_eq, BitVec.toNat_eq]
    exact eq_zero_iff_of_digits hlt hb hdigits
  have hcarry : (subB s.n (s.x sa) (s.x sb) false).carry = decide ((s.x sa).toNat < (s.x sb).toNat) := by
    rw [Bool.eq_iff_iff, hborrow, decide_eq_true_iff]
  have hoverflow : (subB s.n (s.x sa) (s.x sb) false).overflow =
      overflows s.n (sint s.n (s.x sa) - sint s.n (s.x sb)) := by
    rw [subB_overflow s.n_pos s.n_le hb, Bool.toNat_false, Nat.cast_zero, sub_zero]
  obtain ⟨t, hnext, hd, hframe⟩ := writeSum_leaves hlt d
  refine ⟨t, hnext, hd ▸ hres.symm, ?_⟩
  simp only [hzero, hoverflow, hcarry] at hframe
  rw [hd]
  exact hframe

/-! ## The logical operations (R123, R126, R127) -/

theorem x_getLsbD_of_ge (s : State) (r : Reg) {k : Nat} (h : s.n ≤ k) : (s.x r).getLsbD k = false := by
  rw [State.x, narrow_getLsbD, decide_eq_false (by omega), Bool.false_and]

/-- An operation bit by bit on two N-bit values, which makes 0 of two bits 0, gives an N-bit value. -/
theorem narrow_of_bitwise {s : State} {sa sb : Reg} {v : Word} {f : Bool → Bool → Bool} (hzero : f false false = false)
    (hbits : ∀ k, v.getLsbD k = f ((s.x sa).getLsbD k) ((s.x sb).getLsbD k)) : narrow s.n v = v := by
  apply BitVec.eq_of_getLsbD_eq
  intro k _
  rw [narrow_getLsbD]
  by_cases h : k < s.n
  · rw [decide_eq_true h, Bool.true_and]
  · have hhigh := Nat.not_lt.1 h
    rw [decide_eq_false h, Bool.false_and, hbits, x_getLsbD_of_ge s sa hhigh, x_getLsbD_of_ge s sb hhigh, hzero]

/-- The logical instruction of an operation on bits. -/
theorem writeLogic_bitwise {s : State} {sa sb : Reg} {v : Word} {f : Bool → Bool → Bool} (hzero : f false false = false)
    (hbits : ∀ k, v.getLsbD k = f ((s.x sa).getLsbD k) ((s.x sb).getLsbD k)) (d : Reg) :
    ∃ t, writeLogic d v s = .next t ∧ (∀ k, (t.x d).getLsbD k = f ((s.x sa).getLsbD k) ((s.x sb).getLsbD k)) ∧
      changesOnly [d] noByte s.pc
        (s.sr.withResult (decide (t.x d = 0)) ((t.x d).getLsbD (s.n - 1)) false false) s t := by
  obtain ⟨t, hnext, hd, hframe⟩ := writeLogic_leaves (narrow_of_bitwise hzero hbits) d
  exact ⟨t, hnext, hd ▸ hbits, hd ▸ hframe⟩

/-- Settles O24: each of the three is the instruction of an operation on bits. -/
theorem logicalOperationsWorkBitByBit : Obligations.LogicalOperationsWorkBitByBit := by
  unfold Obligations.LogicalOperationsWorkBitByBit
  intro s sa sb d
  simp only [List.forall_mem_cons]
  refine ⟨⟨wordG1_digit (op := 4) (by decide) sa sb d, ?_⟩, ⟨wordG1_digit (op := 5) (by decide) sa sb d, ?_⟩,
    ⟨wordG1_digit (op := 1) (by decide) sa sb d, ?_⟩, nofun⟩
  · exact writeLogic_bitwise (f := Bool.and) rfl (fun _ => BitVec.getLsbD_and) d
  · exact writeLogic_bitwise (f := Bool.or) rfl (fun _ => BitVec.getLsbD_or) d
  · exact writeLogic_bitwise (f := Bool.xor) rfl (fun _ => BitVec.getLsbD_xor) d

/-! ## MUL and DIV (R124, R125) -/

theorem wordOfInt_toInt {n : Nat} (hn : n ≤ 32) (i : Int) : ((wordOfInt n i).toNat : Int) = i % 2 ^ n := by
  rw [wordOfInt_toNat hn, Int.toNat_of_nonneg (Int.emod_nonneg _ (by positivity))]

/-- Settles O25: the carry is the free value drawn. -/
theorem mulWritesTheLowBitsOfTheSignedProduct : Obligations.MulWritesTheLowBitsOfTheSignedProduct := by
  unfold Obligations.MulWritesTheLowBitsOfTheSignedProduct
  intro s sa sb d
  have hproduct := narrow_wordOfInt s.n_le (sint s.n (s.x sa) * sint s.n (s.x sb))
  obtain ⟨hpc, hsr, hkeeps, -⟩ := setX_setResult_changesOnly hproduct d
    (overflows s.n (sint s.n (s.x sa) * sint s.n (s.x sb))) (Config.freeCarry s.draws)
  have hd := setX_x_self hproduct d
  refine ⟨_, Config.freeCarry s.draws, rfl, ?_, hpc, { hkeeps with }, rfl, rfl, ?_⟩
  · rw [drawn_x, setResult_x, hd]
    exact wordOfInt_toInt s.n_le _
  · rw [drawn_x, setResult_x, hd]
    exact hsr

/-- The remainder that goes with a quotient is smaller than the divisor; not 0, it has the sign of the dividend under
truncation and of the divisor under the floor (R124). -/
theorem remainder_spec (m : DivRounding) (a : Int) {b : Int} (hb : b ≠ 0) :
    |a - quotient m a b * b| < |b| ∧
      (a - quotient m a b * b ≠ 0 → match m with
        | .trunc => (a - quotient m a b * b < 0 ↔ a < 0)
        | .floor => (a - quotient m a b * b < 0 ↔ b < 0)) := by
  cases m with
  | trunc =>
    have hr : a - quotient .trunc a b * b = a.tmod b := by rw [Int.tmod_def, mul_comm]; rfl
    simp only [hr]
    refine ⟨?_, fun hne => ⟨fun hneg => ?_, fun ha => ?_⟩⟩
    · rw [Int.abs_eq_natAbs, Int.abs_eq_natAbs, Int.natAbs_tmod]
      exact_mod_cast Nat.mod_lt _ (Int.natAbs_pos.2 hb)
    · exact not_le.1 fun ha => not_le.2 hneg (Int.tmod_nonneg b ha)
    · have hopposite := Int.tmod_nonneg (a := -a) b (by omega)
      rw [Int.neg_tmod] at hopposite
      omega
  | floor =>
    have hr : a - quotient .floor a b * b = a.fmod b := by rw [Int.fmod_def, mul_comm]; rfl
    simp only [hr]
    rcases lt_or_gt_of_ne hb with hneg | hpos
    · have hlow := Int.fmod_nonneg_of_pos (-a) (b := -b) (by omega)
      have hhigh := Int.fmod_lt_of_pos (-a) (b := -b) (by omega)
      rw [Int.neg_fmod_neg] at hlow hhigh
      rw [abs_of_neg hneg, abs_lt]
      omega
    · have hlow := Int.fmod_nonneg_of_pos a hpos
      have hhigh := Int.fmod_lt_of_pos a hpos
      rw [abs_of_pos hpos, abs_lt]
      omega

theorem Keeps.mono {regs regs' : List Reg} {stored : Nat → Prop} {s t : State} (h : Keeps regs stored s t)
    (hsub : regs ⊆ regs') : Keeps regs' stored s t :=
  { h with reg := fun r hr => h.reg r fun hmem => hr (hsub hmem) }

/-- The two writes of DIV and its flags. -/
theorem execDiv_of_ready {s : State} {sa sb d : Reg} (hb : s.x sb ≠ 0) (hd : d ≠ sa) {q : Int}
    (hq : q = quotient s.params.divRounding (sint s.n (s.x sa)) (sint s.n (s.x sb))) :
    execDiv sa sb d s = .next
      ((((s.setX d (wordOfInt s.n q)).setX sa (wordOfInt s.n (sint s.n (s.x sa) - q * sint s.n (s.x sb)))).setResult
        (wordOfInt s.n q) (decide (2 ^ (s.n - 1) - 1 < q)) (Config.freeCarry s.draws)).drawn) := by
  subst hq
  exact (if_neg (mt sint_x_eq_zero.1 hb)).trans (if_neg hd)

/-- Two registers written one after the other, the first not written again. -/
theorem setX_setX_changesOnly {s : State} {v w : Word} (hv : narrow s.n v = v) (hw : narrow s.n w = w) {d r : Reg}
    (hne : d ≠ r) :
    ((s.setX d v).setX r w).x d = v ∧ ((s.setX d v).setX r w).x r = w ∧
      changesOnly [r, d] noByte s.pc s.sr s ((s.setX d v).setX r w) := by
  have hframe := (setX_changesOnly s d v).regWrite r (s.setX d v).T w
  rw [regWrite_word] at hframe
  exact ⟨by rw [setX_x, if_neg hne, setX_x_self hv], setX_x_self (s := s.setX d v) hw r, hframe⟩

/-- Settles O26: the remainder is what the quotient leaves of the dividend, and the carry is the free value drawn. -/
theorem divWritesQuotientAndRemainder : Obligations.DivWritesQuotientAndRemainder := by
  unfold Obligations.DivWritesQuotientAndRemainder
  intro s sa sb d hb hne
  obtain ⟨q, hq⟩ : ∃ q, q = quotient s.params.divRounding (sint s.n (s.x sa)) (sint s.n (s.x sb)) := ⟨_, rfl⟩
  obtain ⟨hsmall, hsign⟩ := remainder_spec s.params.divRounding (sint s.n (s.x sa)) (mt sint_x_eq_zero.1 hb)
  rw [← hq] at hsmall hsign
  have hquotient := narrow_wordOfInt s.n_le q
  obtain ⟨hd, hsa, hframe⟩ := setX_setX_changesOnly hquotient
    (narrow_wordOfInt s.n_le (sint s.n (s.x sa) - q * sint s.n (s.x sb))) hne
  obtain ⟨hpc, hsr, hkeeps, -⟩ := hframe.setResult (wordOfInt s.n q) (decide (2 ^ (s.n - 1) - 1 < q))
    (Config.freeCarry s.draws)
  refine ⟨_, Config.freeCarry s.draws, q, sint s.n (s.x sa) - q * sint s.n (s.x sb), execDiv_of_ready hb hne hq,
    by ring, hsmall, hsign, ?_, ?_, hpc, Keeps.mono (regs := [sa, d]) { hkeeps with } (by simp), rfl, rfl, ?_⟩
  · rw [drawn_x, setResult_x, hd, wordOfInt_toInt s.n_le]
  · rw [drawn_x, setResult_x, hsa, wordOfInt_toInt s.n_le]
  · rw [drawn_x, setResult_x, hd, drawn_sr, hsr, result_eq_withResult hquotient]

/-! ## Two-word arithmetic (R130) -/

/-- What a step of a sequence leaves to the next one. -/
theorem writeSum_passes {s : State} {r : Sum} (hr : r.res.toNat < 2 ^ s.n) (d : Reg) :
    ∃ t, writeSum d r s = .next t ∧ t.n = s.n ∧ t.x d = r.res ∧ t.sr.CF = r.carry ∧ ∀ q, q ≠ d → t.x q = s.x q := by
  obtain ⟨t, hnext, hd, hframe⟩ := writeSum_leaves hr d
  have hn := hframe.n_eq
  obtain ⟨-, hsr, hkeeps, -⟩ := hframe
  exact ⟨t, hnext, hn, hd, by rw [hsr]; rfl, fun q hq => hkeeps.reg q (by simpa using hq)⟩

/-- Rd and CF after a sum are its digits. -/
theorem writeSum_addC_digits {s : State} {a b : Word} (ha : a.toNat < 2 ^ s.n) (hb : b.toNat < 2 ^ s.n) (c : Bool)
    (d : Reg) : ∃ t, writeSum d (addC s.n a b c) s = .next t ∧ t.n = s.n ∧ (∀ q, q ≠ d → t.x q = s.x q) ∧
      (t.x d).toNat + 2 ^ s.n * t.sr.CF.toNat = a.toNat + b.toNat + c.toNat := by
  obtain ⟨t, hnext, hn, hd, hcarry, hkept⟩ := writeSum_passes (addC_res_lt s.n_le a b c) d
  exact ⟨t, hnext, hn, hkept, by rw [hd, hcarry, addC_digits s.n_le ha hb]⟩

/-- Rd and CF after a difference are its digits. -/
theorem writeSum_subB_digits {s : State} {a b : Word} (ha : a.toNat < 2 ^ s.n) (hb : b.toNat < 2 ^ s.n) (c : Bool)
    (d : Reg) : ∃ t, writeSum d (subB s.n a b c) s = .next t ∧ t.n = s.n ∧ (∀ q, q ≠ d → t.x q = s.x q) ∧
      a.toNat + 2 ^ s.n * t.sr.CF.toNat = (t.x d).toNat + b.toNat + c.toNat := by
  obtain ⟨t, hnext, hn, hd, hcarry, hkept⟩ := writeSum_passes (subB_res_lt s.n_le a b c) d
  exact ⟨t, hnext, hn, hkept, by rw [hd, hcarry, subB_digits s.n_le ha hb]⟩

theorem two_word_addition (s : State) (al bl : Reg) {ah bh dl dh : Reg} (hah : dl ≠ ah) (hbh : dl ≠ bh)
    (hdh : dl ≠ dh) :
    ∃ t u, exec (.add al bl dl) s = .next t ∧ exec (.adc ah bh dh) t = .next u ∧ u.n = s.n ∧
      (u.x dh).toNat * 2 ^ s.n + (u.x dl).toNat + 2 ^ s.n * 2 ^ s.n * u.sr.CF.toNat =
        (s.x ah).toNat * 2 ^ s.n + (s.x al).toNat + ((s.x bh).toNat * 2 ^ s.n + (s.x bl).toNat) := by
  obtain ⟨t, ht, htn, hkept, hlow⟩ := writeSum_addC_digits (x_lt s al) (x_lt s bl) false dl
  obtain ⟨u, hu, hun, hkept', hhigh⟩ := writeSum_addC_digits (x_lt t ah) (x_lt t bh) t.sr.CF dh
  rw [htn, hkept ah hah.symm, hkept bh hbh.symm] at hhigh
  rw [← hkept' dl hdh] at hlow
  exact ⟨t, u, ht, hu, hun.trans htn, two_digit_sum hlow hhigh⟩

theorem two_word_subtraction (s : State) (al bl : Reg) {ah bh dl dh : Reg} (hah : dl ≠ ah) (hbh : dl ≠ bh)
    (hdh : dl ≠ dh) (hdb : dh ≠ bh) :
    ∃ t u v, exec (.sub al bl dl) s = .next t ∧ exec (.sbb ah dh) t = .next u ∧ exec (.sub dh bh dh) u = .next v ∧
      v.n = s.n ∧ (u.sr.CF && v.sr.CF) = false ∧
      (s.x ah).toNat * 2 ^ s.n + (s.x al).toNat + 2 ^ s.n * 2 ^ s.n * (u.sr.CF || v.sr.CF).toNat =
        (v.x dh).toNat * 2 ^ s.n + (v.x dl).toNat + ((s.x bh).toNat * 2 ^ s.n + (s.x bl).toNat) := by
  obtain ⟨t, ht, htn, hkept, hlow⟩ := writeSum_subB_digits (x_lt s al) (x_lt s bl) false dl
  obtain ⟨u, hu, hun, hkept', hmiddle⟩ := writeSum_subB_digits (b := 0) (x_lt t ah) (Nat.two_pow_pos t.n) t.sr.CF dh
  obtain ⟨v, hv, hvn, hkept'', hhigh⟩ := writeSum_subB_digits (x_lt u dh) (x_lt u bh) false dh
  have hvs : v.n = s.n := hvn.trans (hun.trans htn)
  rw [htn, hkept ah hah.symm] at hmiddle
  rw [hun, htn, hkept' bh hdb.symm, hkept bh hbh.symm] at hhigh
  rw [← hkept' dl hdh, ← hkept'' dl hdh] at hlow
  have hone := not_two_borrows (hvs ▸ x_lt v dh) (x_lt s bh) hmiddle hhigh
  exact ⟨t, u, v, ht, hu, hv, hvs, hone, two_digit_difference hone hlow hmiddle hhigh⟩

/-- Settles O27: the sequences form the digits of the two-word sum and difference. -/
theorem twoWordAdditionAndSubtraction : Obligations.TwoWordAdditionAndSubtraction := by
  unfold Obligations.TwoWordAdditionAndSubtraction
  intro s al bl dl ah bh dh hah hbh hdh
  rw [two_mul s.n, pow_add]
  refine ⟨?_, fun hdb => ?_⟩
  · obtain ⟨t, u, ht, hu, hn, hdigits⟩ := two_word_addition s al bl hah hbh hdh
    obtain ⟨hsum, hcarry⟩ := mod_and_carry_of_digits (two_digits_lt (hn ▸ x_lt u dh) (hn ▸ x_lt u dl)) hdigits
    exact ⟨t, u, ht, hu, hsum.symm, hcarry⟩
  · obtain ⟨t, u, v, ht, hu, hv, hn, hone, hdigits⟩ := two_word_subtraction s al bl hah hbh hdh hdb
    obtain ⟨hdifference, hborrow⟩ := mod_and_borrow_of_digits (two_digits_lt (hn ▸ x_lt v dh) (hn ▸ x_lt v dl)) hdigits
    exact ⟨t, u, v, ht, hu, hv, hdifference.symm, hborrow, hone⟩

end Sys2Proof.Machine
end

section
/-! PROOF. The statements of `41_group2_two_register.md`: shifts and rotates (R141 to R145, R148), NOT (R146), SBB and NEG (R147,
R149), SWB and RLB (R152, R153), ANI and ADI (R154, R156), EXT (R155), CMP (R157). -/

namespace Sys2Proof

/-- The first two digits of a word of Group II (R82). -/
theorem wordG2_digits {op : Nat} (h : op < 16) (r d : Reg) : (wordG2 op r d).toNat / 0x100 = 0x40 + op := by
  rw [wordG2_toNat h]
  omega

end Sys2Proof

namespace Sys2Proof.Machine

/-! ## Fields side by side -/

/-- A value shifted left, with a smaller one in the place made free, is the sum of the two (R6). -/
theorem shiftLeft_or_toNat {k : Nat} (hk : k ≤ 32) (a : Word) {b : Word} (hb : b.toNat < 2 ^ k) :
    (a <<< k ||| b).toNat = a.toNat % 2 ^ (32 - k) * 2 ^ k + b.toNat := by
  have hshift : (a <<< k).toNat = 2 ^ k * (a.toNat % 2 ^ (32 - k)) := by
    have hpow : 2 ^ 32 = 2 ^ k * 2 ^ (32 - k) := by rw [← pow_add, Nat.add_sub_cancel' hk]
    rw [BitVec.toNat_shiftLeft, Nat.shiftLeft_eq, Nat.mul_comm, hpow, Nat.mul_mod_mul_left]
  rw [BitVec.toNat_or, hshift, ← Nat.two_pow_add_eq_or_of_lt hb, Nat.mul_comm]

theorem ushiftRight_toNat (a : Word) (k : Nat) : (a >>> k).toNat = a.toNat / 2 ^ k := by
  rw [BitVec.toNat_ushiftRight, Nat.shiftRight_eq_div_pow]

/-! ## Shifts and rotates (R141 to R145, R148) -/

/-- What a shift leaves of its result (R141). -/
theorem writeShift_leaves {s : State} {v : Word} (hv : narrow s.n v = v) (d : Reg) (out : Bool) :
    ∃ t, writeShift d v out s = .next t ∧ t.x d = v ∧
      changesOnly [d] noByte s.pc (s.sr.withResult (decide (v = 0)) (v.getLsbD (s.n - 1)) false out) s t :=
  ⟨_, rfl, setX_x_self hv d, setX_setResult_changesOnly hv d _ _⟩

theorem narrow_shiftLeftIn (n : Nat) (a : Word) (b : Bool) : narrow n (shiftLeftIn n a b) = shiftLeftIn n a b :=
  narrow_narrow _ _

theorem shiftLeftIn_getLsbD {n k : Nat} (hn : n ≤ 32) (hk : k < n) (a : Word) (b : Bool) :
    (shiftLeftIn n a b).getLsbD k = if k = 0 then b else a.getLsbD (k - 1) := by
  rw [shiftLeftIn, narrow_getLsbD, BitVec.getLsbD_or, BitVec.getLsbD_shiftLeft, bitAt_getLsbD (by decide)]
  by_cases h : k = 0
  · simp [h, Nat.lt_of_le_of_lt k.zero_le hk]
  · have h32 : k < 32 := by omega
    have h1 : ¬ k < 1 := by omega
    simp [h, hk, h32, h1, Ne.symm h]

theorem shiftRightIn_getLsbD {n : Nat} (hpos : 0 < n) (hn : n ≤ 32) {a : Word} (ha : narrow n a = a) (b : Bool) (k : Nat) :
    (shiftRightIn n a b).getLsbD k = if k = n - 1 then b else a.getLsbD (k + 1) := by
  rw [shiftRightIn, BitVec.getLsbD_or, BitVec.getLsbD_ushiftRight, bitAt_getLsbD (by omega), Nat.add_comm 1 k]
  by_cases h : k = n - 1
  · have htop : a.getLsbD (k + 1) = false := by
      rw [← ha, narrow_getLsbD, decide_eq_false (by omega), Bool.false_and]
    rw [if_pos h, htop, decide_eq_true h.symm, Bool.false_or, Bool.and_true]
  · simp [h, Ne.symm h]

/-- The value shifted right, as a number: the half, and the bit that comes in at the top. -/
theorem shiftRightIn_toNat {n : Nat} (hpos : 0 < n) (hn : n ≤ 32) {a : Word} (ha : a.toNat < 2 ^ n) (b : Bool) :
    (shiftRightIn n a b).toNat = 2 ^ (n - 1) * b.toNat + a.toNat / 2 := by
  have hhalf : a.toNat / 2 < 2 ^ (n - 1) := by
    rw [Nat.div_lt_iff_lt_mul (by decide), ← pow_succ, Nat.sub_add_cancel hpos]
    exact ha
  have hbit : (bitAt (n - 1) b).toNat = 2 ^ (n - 1) * b.toNat := by
    cases b with
    | false => rfl
    | true =>
      rw [bitAt, if_pos rfl, BitVec.toNat_ofNat, Bool.toNat_true, Nat.mul_one]
      exact Nat.mod_eq_of_lt (Nat.pow_lt_pow_right (by decide) (by omega))
  rw [shiftRightIn, BitVec.toNat_or, hbit, ushiftRight_toNat, pow_one, Nat.or_comm, ← Nat.two_pow_add_eq_or_of_lt hhalf]

theorem narrow_shiftRightIn {n : Nat} (hpos : 0 < n) (hn : n ≤ 32) {a : Word} (ha : a.toNat < 2 ^ n) (b : Bool) :
    narrow n (shiftRightIn n a b) = shiftRightIn n a b := by
  apply narrow_of_lt
  have hhalf : 2 * 2 ^ (n - 1) = 2 ^ n := mul_pow_sub_one hpos.ne' 2
  have hb := Nat.mul_le_mul_left (2 ^ (n - 1)) (Bool.toNat_le b)
  rw [shiftRightIn_toNat hpos hn ha]
  omega

/-- Shifted right with its sign kept, a value is halved, and the bit that leaves is the remainder (R145). -/
theorem sint_shiftRightIn_sign {n : Nat} (hpos : 0 < n) (hn : n ≤ 32) {a : Word} (ha : a.toNat < 2 ^ n) :
    sint n a = 2 * sint n (shiftRightIn n a (signBit n a)) + (a.getLsbD 0).toNat := by
  have hhalf : 2 * 2 ^ (n - 1) = 2 ^ n := mul_pow_sub_one hpos.ne' 2
  have hcast : ((2 ^ n : Nat) : Int) = 2 ^ n := by push_cast; rfl
  have hbit : (a.getLsbD 0).toNat = a.toNat % 2 := by
    rw [BitVec.getLsbD, Nat.testBit_zero]
    rcases Nat.mod_two_eq_zero_or_one a.toNat with h | h <;> simp [h]
  have hsign : (signBit n (shiftRightIn n a (signBit n a))) = signBit n a := by
    rw [signBit, shiftRightIn_getLsbD hpos hn (narrow_of_lt ha), if_pos rfl]
  rw [sint, sint, hsign, narrow_shiftRightIn hpos hn ha, narrow_of_lt ha, shiftRightIn_toNat hpos hn ha, hbit]
  cases signBit n a with
  | false =>
    simp only [Bool.toNat_false, Nat.mul_zero, Bool.false_eq_true, if_false]
    omega
  | true =>
    simp only [Bool.toNat_true, Nat.mul_one, if_true]
    omega

/-- RLC and SHL: the bit `b` comes in at the bottom, the top bit goes to CF (R142, R148). -/
theorem writeShift_left (s : State) (r d : Reg) (b : Bool) :
    ∃ t, writeShift d (shiftLeftIn s.n (s.x r) b) (signBit s.n (s.x r)) s = .next t ∧
      (∀ k, k < s.n → (t.x d).getLsbD k = if k = 0 then b else (s.x r).getLsbD (k - 1)) ∧
      changesOnly [d] noByte s.pc (s.sr.withResult (decide (t.x d = 0)) ((t.x d).getLsbD (s.n - 1)) false
        ((s.x r).getLsbD (s.n - 1))) s t := by
  obtain ⟨t, hnext, hd, hframe⟩ := writeShift_leaves (narrow_shiftLeftIn s.n (s.x r) b) d (signBit s.n (s.x r))
  exact ⟨t, hnext, fun k hk => hd ▸ shiftLeftIn_getLsbD s.n_le hk _ b, hd ▸ hframe⟩

/-- RRC, SRL and SRA: the bit `b` comes in at the top, the bottom bit goes to CF (R143, R144, R145). -/
theorem writeShift_right (s : State) (r d : Reg) (b : Bool) :
    ∃ t, writeShift d (shiftRightIn s.n (s.x r) b) ((s.x r).getLsbD 0) s = .next t ∧
      (∀ k, k < s.n → (t.x d).getLsbD k = if k = s.n - 1 then b else (s.x r).getLsbD (k + 1)) ∧
      changesOnly [d] noByte s.pc (s.sr.withResult (decide (t.x d = 0)) ((t.x d).getLsbD (s.n - 1)) false
        ((s.x r).getLsbD 0)) s t := by
  obtain ⟨t, hnext, hd, hframe⟩ :=
    writeShift_leaves (narrow_shiftRightIn s.n_pos s.n_le (x_lt s r) b) d ((s.x r).getLsbD 0)
  exact ⟨t, hnext, fun k _ => hd ▸ shiftRightIn_getLsbD s.n_pos s.n_le (narrow_x s r) b k, hd ▸ hframe⟩

/-- SRA halves the signed value of its register, rounding down, the remainder in CF (R145). -/
theorem execSra_halves {s t : State} {r d : Reg} (h : exec (.sra r d) s = .next t) :
    sint s.n (s.x r) = 2 * sint s.n (t.x d) + t.sr.CF.toNat := by
  obtain ⟨u, hnext, hd, -, hsr, -⟩ := writeShift_leaves
    (narrow_shiftRightIn s.n_pos s.n_le (x_lt s r) (signBit s.n (s.x r))) d ((s.x r).getLsbD 0)
  obtain rfl : t = u := next_eq_next.1 (hnext.symm.trans h)
  rw [hd, hsr]
  exact sint_shiftRightIn_sign s.n_pos s.n_le (x_lt s r)

/-- Settles O28: the five are two shifts by one place, which differ in the bit that comes in. -/
theorem shiftsAndRotatesMoveEachBit : Obligations.ShiftsAndRotatesMoveEachBit := by
  unfold Obligations.ShiftsAndRotatesMoveEachBit
  intro s r d
  simp only [List.forall_mem_cons]
  refine ⟨⟨?_, ?_, nofun⟩, ⟨?_, ?_, ?_, nofun⟩, fun t => execSra_halves⟩
  · exact writeShift_left s r d s.sr.CF
  · exact writeShift_left s r d false
  · exact writeShift_right s r d s.sr.CF
  · exact writeShift_right s r d false
  · exact writeShift_right s r d (signBit s.n (s.x r))

/-! ## NOT (R146) -/

theorem notN_getLsbD {n : Nat} (hn : n ≤ 32) (v : Word) (k : Nat) :
    (notN n v).getLsbD k = (decide (k < n) && !v.getLsbD k) := by
  rw [notN, narrow_getLsbD, BitVec.getLsbD_not]
  by_cases h : k < n
  · rw [decide_eq_true (show k < 32 by omega), Bool.true_and]
  · rw [decide_eq_false h, Bool.false_and, Bool.false_and]

/-- Settles O29: NOT is the logical instruction of the complement on N bits. -/
theorem notComplementsEachBit : Obligations.NotComplementsEachBit := by
  unfold Obligations.NotComplementsEachBit
  intro s r d
  obtain ⟨t, hnext, hd, hframe⟩ := writeLogic_leaves (s := s) (v := notN s.n (s.x r)) (narrow_narrow _ _) d
  exact ⟨wordG2_digits (op := 4) (by decide) r d, t, hnext, fun k => hd ▸ notN_getLsbD s.n_le _ k, hd ▸ hframe⟩

/-! ## Differences: SBB, NEG and CMP (R147, R149, R157) -/

/-- Result and borrow of a difference of n-bit values, as a remainder and a comparison (R11). -/
theorem subB_res_carry {n : Nat} (hn : n ≤ 32) {a b : Word} (ha : a.toNat < 2 ^ n) (hb : b.toNat < 2 ^ n) (c : Bool) :
    (subB n a b c).res.toNat = (a.toNat + 2 ^ n - (b.toNat + c.toNat)) % 2 ^ n ∧
      (subB n a b c).carry = decide (a.toNat < b.toNat + c.toNat) := by
  have hdigits := subB_digits hn ha hb c
  rw [Nat.add_assoc] at hdigits
  obtain ⟨hres, hborrow⟩ := mod_and_borrow_of_digits (subB_res_lt hn a b c) hdigits
  exact ⟨hres.symm, by rw [Bool.eq_iff_iff, hborrow, decide_eq_true_iff]⟩

/-- What a difference without a borrow in says of its two sides (R11). -/
theorem subB_false {n : Nat} (hpos : 0 < n) (hn : n ≤ 32) {a b : Word} (ha : a.toNat < 2 ^ n) (hb : b.toNat < 2 ^ n) :
    (subB n a b false).res.toNat = (a.toNat + 2 ^ n - b.toNat) % 2 ^ n ∧ ((subB n a b false).res = 0 ↔ a = b) ∧
      (subB n a b false).overflow = overflows n (sint n a - sint n b) ∧
      (subB n a b false).carry = decide (a.toNat < b.toNat) := by
  obtain ⟨hres, hcarry⟩ := subB_res_carry hn ha hb false
  refine ⟨hres, ?_, ?_, hcarry⟩
  · rw [BitVec.toNat_eq, BitVec.toNat_eq]
    exact eq_zero_iff_of_digits (subB_res_lt hn a b false) hb (subB_digits hn ha hb false)
  · rw [subB_overflow hpos hn hb, Bool.toNat_false, Nat.cast_zero, sub_zero]

theorem sint_zero (n : Nat) : sint n 0 = 0 := by
  simp [sint, signBit]

/-- The least signed value (R4). -/
theorem sint_eq_least {n : Nat} (hpos : 0 < n) {a : Word} (ha : a.toNat < 2 ^ n) :
    sint n a = -2 ^ (n - 1) ↔ a.toNat = 2 ^ (n - 1) := by
  have hhalf : 2 * 2 ^ (n - 1) = 2 ^ n := mul_pow_sub_one hpos.ne' 2
  have hcast : ((2 ^ n : Nat) : Int) = 2 ^ n := by push_cast; rfl
  have hcast' : ((2 ^ (n - 1) : Nat) : Int) = 2 ^ (n - 1) := by push_cast; rfl
  rw [sint_eq hpos, Nat.mod_eq_of_lt ha]
  split <;> omega

/-- Only the least value leaves the range when 1 is taken from it (R32). -/
theorem overflows_sub_bit {n : Nat} (hpos : 0 < n) {a : Word} (ha : a.toNat < 2 ^ n) (c : Bool) :
    overflows n (sint n a - c.toNat) = (decide (a.toNat = 2 ^ (n - 1)) && c) := by
  obtain ⟨hlow, hhigh⟩ := sint_bounds hpos a
  rw [Bool.eq_iff_iff, overflows, decide_eq_true_iff, Bool.and_eq_true, decide_eq_true_iff, ← sint_eq_least hpos ha]
  cases c with
  | false =>
    simp only [Bool.toNat_false, Bool.false_eq_true, and_false, iff_false]
    omega
  | true =>
    simp only [Bool.toNat_true, and_true]
    omega

/-- Only the least value has no opposite in the range (R32). -/
theorem overflows_neg {n : Nat} (hpos : 0 < n) {a : Word} (ha : a.toNat < 2 ^ n) :
    overflows n (-sint n a) = decide (a.toNat = 2 ^ (n - 1)) := by
  obtain ⟨hlow, hhigh⟩ := sint_bounds hpos a
  rw [Bool.eq_iff_iff, overflows, decide_eq_true_iff, decide_eq_true_iff, ← sint_eq_least hpos ha]
  omega

/-- Taking CF from a register (R147). -/
theorem sbb_leaves (s : State) (r d : Reg) : ∃ t, exec (.sbb r d) s = .next t ∧
    (t.x d).toNat = ((s.x r).toNat + 2 ^ s.n - s.sr.CF.toNat) % 2 ^ s.n ∧
    changesOnly [d] noByte s.pc (s.sr.withResult (decide (t.x d = 0)) ((t.x d).getLsbD (s.n - 1))
      (decide ((s.x r).toNat = 2 ^ (s.n - 1)) && s.sr.CF) (decide (s.x r = 0) && s.sr.CF)) s t := by
  have hzero : (0 : Word).toNat < 2 ^ s.n := Nat.two_pow_pos s.n
  obtain ⟨hres, hcarry⟩ := subB_res_carry s.n_le (x_lt s r) hzero s.sr.CF
  have hborrow : decide ((s.x r).toNat < (0 : Word).toNat + s.sr.CF.toNat) = (decide (s.x r = 0) && s.sr.CF) := by
    cases s.sr.CF with
    | false => simp
    | true => simp [BitVec.toNat_eq]
  have hoverflow : (subB s.n (s.x r) 0 s.sr.CF).overflow = (decide ((s.x r).toNat = 2 ^ (s.n - 1)) && s.sr.CF) := by
    rw [subB_overflow s.n_pos s.n_le hzero, sint_zero, sub_zero, overflows_sub_bit s.n_pos (x_lt s r)]
  obtain ⟨t, hnext, hd, hframe⟩ := writeSum_leaves (subB_res_lt s.n_le (s.x r) 0 s.sr.CF) d
  rw [hoverflow, hcarry, hborrow, ← hd] at hframe
  refine ⟨t, hnext, ?_, hframe⟩
  rw [hd, hres, BitVec.ofNat_eq_ofNat, BitVec.toNat_zero, Nat.zero_add]

/-- Taking a register from 0 (R149). -/
theorem neg_leaves (s : State) (r d : Reg) : ∃ t, exec (.neg r d) s = .next t ∧
    (t.x d).toNat = (2 ^ s.n - (s.x r).toNat) % 2 ^ s.n ∧
    changesOnly [d] noByte s.pc (s.sr.withResult (decide (s.x r = 0)) ((t.x d).getLsbD (s.n - 1))
      (decide ((s.x r).toNat = 2 ^ (s.n - 1))) (decide (s.x r ≠ 0))) s t := by
  have hzero : (0 : Word).toNat < 2 ^ s.n := Nat.two_pow_pos s.n
  obtain ⟨hres, hresZero, hoverflow, hcarry⟩ := subB_false s.n_pos s.n_le hzero (x_lt s r)
  have hborrow : (0 : Word).toNat < (s.x r).toNat ↔ s.x r ≠ 0 := by
    rw [ne_eq, BitVec.toNat_eq, BitVec.ofNat_eq_ofNat, BitVec.toNat_zero, Nat.pos_iff_ne_zero]
  rw [sint_zero, zero_sub, overflows_neg s.n_pos (x_lt s r)] at hoverflow
  obtain ⟨t, hnext, hd, hframe⟩ := writeSum_leaves (subB_res_lt s.n_le 0 (s.x r) false) d
  simp only [hoverflow, hcarry, hborrow, hresZero, eq_comm (a := (0 : Word))] at hframe
  refine ⟨t, hnext, ?_, hd ▸ hframe⟩
  rw [hd, hres, BitVec.ofNat_eq_ofNat, BitVec.toNat_zero, Nat.zero_add]

/-- Settles O30: both are differences with 0 on one side. -/
theorem sbbAndNegSubtract : Obligations.SbbAndNegSubtract := by
  unfold Obligations.SbbAndNegSubtract
  exact fun s r d => ⟨sbb_leaves s r d, neg_leaves s r d⟩

/-- Settles O36: the flags of the difference, written to no register. -/
theorem cmpSetsOnlyTheFlags : Obligations.CmpSetsOnlyTheFlags := by
  unfold Obligations.CmpSetsOnlyTheFlags
  intro s r d
  have hlt := subB_res_lt s.n_le (s.x r) (s.x d) false
  obtain ⟨hres, hresZero, hoverflow, hcarry⟩ := subB_false s.n_pos s.n_le (x_lt s r) (x_lt s d)
  obtain ⟨hpc, hsr, hframe⟩ := (changesOnly.refl s).setResult (subB s.n (s.x r) (s.x d) false).res
    (subB s.n (s.x r) (s.x d) false).overflow (subB s.n (s.x r) (s.x d) false).carry
  refine ⟨_, rfl, hpc, hsr.trans ?_, hframe⟩
  rw [result_eq_withResult (narrow_of_lt hlt), getLsbD_sign s.n_pos hlt, hres, hoverflow, hcarry]
  simp only [hresZero, overflows]

/-! ## Exchanges of bytes and halves: SWB and RLB (R152, R153) -/

/-- The bytes of a 16-bit value exchanged (R152). -/
theorem narrow_swap_bytes_toNat {a : Word} (ha : a.toNat < 2 ^ 16) :
    (narrow 16 (a <<< 8 ||| a >>> 8)).toNat = a.toNat % 2 ^ 8 * 2 ^ 8 + a.toNat / 2 ^ 8 := by
  have hlow := ushiftRight_toNat a 8
  rw [narrow_toNat, shiftLeft_or_toNat (by decide) a (by omega), hlow]
  omega

/-- The outer bytes of a 32-bit value exchanged, around a middle (R152). -/
theorem swap_outer_bytes_toNat (a : Word) (m : BitVec 16) :
    (a <<< 24 ||| m.setWidth 32 <<< 8 ||| a >>> 24).toNat =
      a.toNat % 2 ^ 8 * 2 ^ 24 + m.toNat * 2 ^ 8 + a.toNat / 2 ^ 24 := by
  have ha := a.isLt
  have hm := m.isLt
  have hlow := ushiftRight_toNat a 24
  have hmiddle := shiftLeft_or_toNat (k := 8) (by decide) (m.setWidth 32) (b := a >>> 24) (by omega)
  rw [BitVec.toNat_setWidth, hlow] at hmiddle
  rw [BitVec.or_assoc, shiftLeft_or_toNat (by decide) a (by omega), hmiddle]
  omega

/-- The halves of a 32-bit value exchanged (R153). -/
theorem swap_halves_toNat (a : Word) :
    (a <<< 16 ||| a >>> 16).toNat = a.toNat % 2 ^ 16 * 2 ^ 16 + a.toNat / 2 ^ 16 := by
  have ha := a.isLt
  have hlow := ushiftRight_toNat a 16
  rw [shiftLeft_or_toNat (by decide) a (by omega), hlow]

theorem execSwb_n16 {s : State} (h : s.params.size = .n16) (r d : Reg) :
    exec (.swb r d) s = writeLogic d (narrow 16 (s.x r <<< 8 ||| s.x r >>> 8)) s := by
  simp only [exec, execSwb, h]

theorem execSwb_n32 {s : State} (h : s.params.size = .n32) (r d : Reg) :
    exec (.swb r d) s =
      writeLogic d (s.x r <<< 24 ||| (Config.freeMiddle s.draws).setWidth 32 <<< 8 ||| s.x r >>> 24) s.drawn := by
  simp only [exec, execSwb, h]

theorem execRlb_n16 {s : State} (h : s.params.size = .n16) (r d : Reg) :
    exec (.rlb r d) s = .refused .reservedEncoding := by
  simp only [exec, execRlb, h]

theorem execRlb_n32 {s : State} (h : s.params.size = .n32) (r d : Reg) :
    exec (.rlb r d) s = writeLogic d (s.x r <<< 16 ||| s.x r >>> 16) s := by
  simp only [exec, execRlb, h]

/-- Settles O33: the middle is the free value drawn. -/
theorem swbAndRlbExchangeBytesAndHalves : Obligations.SwbAndRlbExchangeBytesAndHalves := by
  unfold Obligations.SwbAndRlbExchangeBytesAndHalves
  intro s r d
  refine ⟨?_, fun h => execRlb_n16 h r d, fun h => ?_⟩
  · rcases s.n_cases with ⟨h, hn, -⟩ | ⟨h, hn, -⟩
    · have hr : (s.x r).toNat < 2 ^ 16 := hn ▸ x_lt s r
      obtain ⟨t, hnext, hd, hpc, hsr, hkeeps, hin, hout, -⟩ :=
        writeLogic_leaves (s := s) (v := narrow 16 (s.x r <<< 8 ||| s.x r >>> 8)) (by rw [hn, narrow_narrow]) d
      rw [execSwb_n16 h, h]
      exact ⟨t, hnext, hd ▸ narrow_swap_bytes_toNat hr, hpc, hkeeps, hin, hout, hd ▸ hsr⟩
    · obtain ⟨t, hnext, hd, hpc, hsr, hkeeps, hin, hout, -⟩ := writeLogic_leaves (s := s.drawn)
        (v := s.x r <<< 24 ||| (Config.freeMiddle s.draws).setWidth 32 <<< 8 ||| s.x r >>> 24)
        (by rw [drawn_n, hn, narrow_32]) d
      rw [execSwb_n32 h, h]
      exact ⟨t, hnext, ⟨_, BitVec.isLt _, hd ▸ swap_outer_bytes_toNat (s.x r) _⟩, hpc, { hkeeps with }, hin, hout,
        hd ▸ hsr⟩
  · have hn : s.n = 32 := congrArg WordSize.bits h
    obtain ⟨t, hnext, hd, hframe⟩ :=
      writeLogic_leaves (s := s) (v := s.x r <<< 16 ||| s.x r >>> 16) (by rw [hn, narrow_32]) d
    rw [hn] at hframe
    exact ⟨t, (execRlb_n32 h r d).trans hnext, hd ▸ swap_halves_toNat (s.x r), hd ▸ hframe⟩

/-! ## ANI and ADI (R154, R156) -/

/-- A passage that begins with a write of the PC. -/
theorem changesOnly.of_setPc {regs : List Reg} {stored : Nat → Prop} {pc v : Word} {f : Flags} {s t : State}
    (h : changesOnly regs stored pc f (s.setPc v) t) : changesOnly regs stored pc f s t := by
  obtain ⟨hpc, hsr, hkeeps, hquiet⟩ := h
  exact ⟨hpc, hsr, { hkeeps with }, hquiet⟩

/-- An action that waits for the extension word runs past it (R92). -/
theorem andThen_fetchIE {s : State} (h : fetchReady s.params.ieSize s) (f : State → Result State) :
    andThen (fetchIE s) f = f (s.setPc (s.pc + BitVec.ofNat 32 s.params.ieSize.bytes)) := by
  rw [fetchIE_eq_next.2 ⟨h, rfl⟩, andThen_next]

theorem addC_false_overflow (n : Nat) (a b : Word) :
    (addC n a b false).overflow = overflows n (sint n a + sint n b) := by
  simp only [addC, Bool.toNat_false, Nat.cast_zero, add_zero]

theorem addC_false_carry (n : Nat) (a b : Word) : (addC n a b false).carry = decide (2 ^ n ≤ a.toNat + b.toNat) := rfl

theorem narrow_x_and (s : State) (r : Reg) (v : Word) : narrow s.n (s.x r &&& v) = s.x r &&& v :=
  narrow_of_lt (by rw [BitVec.toNat_and]; exact Nat.lt_of_le_of_lt Nat.and_le_left (x_lt s r))

/-- Settles O34: the flags are those of AND and of ADD, with the extension word as second operand. -/
theorem aniAndAdiUseTheExtensionWord : Obligations.AniAndAdiUseTheExtensionWord := by
  unfold Obligations.AniAndAdiUseTheExtensionWord
  intro s r d hready
  refine ⟨wordG2_digits (op := 12) (by decide) r d, wordG2_digits (op := 14) (by decide) r d, ?_, ?_⟩
  · obtain ⟨t, hnext, hd, hframe⟩ := writeLogic_leaves
      (narrow_x_and (s.setPc (s.pc + BitVec.ofNat 32 s.params.ieSize.bytes)) r s.extensionWord) d
    exact ⟨t, (andThen_fetchIE hready _).trans hnext, fun _ => hd ▸ BitVec.getLsbD_and, hd ▸ hframe.of_setPc⟩
  · obtain ⟨t, hnext, hd, hframe⟩ := writeSum_leaves (s := s.setPc (s.pc + BitVec.ofNat 32 s.params.ieSize.bytes))
      (addC_res_lt s.n_le (s.x r) s.extensionWord false) d
    rw [addC_false_overflow, addC_false_carry] at hframe
    exact ⟨t, (andThen_fetchIE hready _).trans hnext, hd ▸ addC_res_toNat s.n_le _ _ false, hd ▸ hframe.of_setPc⟩

/-! ## EXT (R155) -/

/-- Settles O35: the extended value fits on N bits. -/
theorem extExtendsTheSign : Obligations.ExtExtendsTheSign := by
  unfold Obligations.ExtExtendsTheSign
  intro s r d hpos hle
  obtain ⟨t, hnext, hd, hframe⟩ := writeLogic_leaves (s := s) (v := sext s.n s.params.extSrcBits (s.x r))
    (narrow_wordOfInt s.n_le _) d
  exact ⟨t, hnext, hd ▸ sint_sext hpos hle s.n_le _, hd ▸ hframe⟩

end Sys2Proof.Machine
end

section
/-! PROOF. The statements of `42_group3_transfers.md`: stores into memory (R171 to R173, R177 to R179). -/

namespace Sys2Proof.Machine

/-- A passage that writes no byte before it ends with a write of k bytes. -/
theorem changesOnly.storeBytes {regs : List Reg} {pc : Word} {f : Flags} {s t : State}
    (h : changesOnly regs noByte pc f s t) (a v : Word) (k : Nat) :
    changesOnly regs (inBytes s a k) pc f s (t.storeBytes a v k) := by
  have hstored : (fun b => noByte b ∨ inBytes t a k b) = inBytes s a k := by
    funext b
    simp [noByte, inBytes, State.addrAt, h.n_eq]
  obtain ⟨hpc, hsr, -⟩ := id h
  simpa only [List.append_nil, hstored, hpc, hsr] using h.trans (storeBytes_changesOnly t a v k)

/-- The low k bytes of a value are those of its truncation to k bytes (R3). -/
theorem holdsWord.of_narrow {t : State} {a v : Word} {k : Nat} (h : holdsWord t a k (narrow (8 * k) v)) :
    holdsWord t a k v := by
  intro j hj
  rw [h j hj]
  ext i hi
  have hlow : 8 * (k - 1 - j) + i < 8 * k := by omega
  simp [← BitVec.getLsbD_eq_getElem, hlow]

/-- The sign of a datum is its top bit, with or without the bits above it (R31). -/
theorem narrow_getLsbD_sign {n : Nat} (h : 0 < n) (v : Word) : (narrow n v).getLsbD (n - 1) = v.getLsbD (n - 1) := by
  rw [narrow_getLsbD, decide_eq_true (by omega), Bool.true_and]

theorem size_bytes_le (z : Size) : z.bytes ≤ 4 := by cases z <;> decide

/-- A store into memory: the operand is evaluated, the low bytes of Ra as they were before go to its address, and the
flags describe them (R171, R172). -/
theorem store_of_ready {z : Size} {a b : Reg} {mode : Mode} {s : State} {ea : Word} (himm : mode ≠ .immediate)
    (hd : mode.distinctRegisters a b = true) (haddress : addressReady mode b s) (hloc : location mode b z s = .mem ea)
    (haligned : misaligned z ea = false) :
    store z a mode b s =
      .next (((afterOperand mode b z s).storeBytes ea (narrow z.bits (s.x a)) z.bytes).transferFlags z
        (narrow z.bits (s.x a))) :=
  store_eq_next.2 ⟨himm, hd, haddress, _, writeLoc_eq_next.2 (.inr ⟨ea, hloc, haligned, rfl⟩), rfl⟩

/-- Settles O39: the operand is evaluated, and the low bytes of Ra are the write of bytes at its address. -/
theorem storesWriteMemory : Obligations.StoresWriteMemory := by
  unfold Obligations.StoresWriteMemory
  intro s z a m b ea hexists hregs himm _ hready hea
  have hd : m.distinctRegisters a b = true := by
    rw [distinctRegisters_eq_true]
    simpa using hregs
  have hloc : location m b z s = .mem ea := location_of_effectiveAddress himm hea
  obtain ⟨haddress, haligned⟩ := hready
  rw [hloc] at haligned
  refine ⟨_, (exec_storeInstr hexists a m b).trans (store_of_ready himm hd haddress hloc haligned), ?_, ?_, ?_⟩
  · exact (holdsWord_storeBytes (afterOperand m b z s) ea (narrow z.bits (s.x a)) (size_bytes_le z)).of_narrow
  · exact (afterOperand_stepped m b z s).congr (storeBytes_x _ _ _ _ _)
  · rw [← narrow_getLsbD_sign (size_bits_pos z)]
    exact transferFlags_changesOnly (narrow_narrow _ _) ((afterOperand_changesOnly m b z s).storeBytes ea _ _)

end Sys2Proof.Machine
end

section
/-! PROOF. The statements of `43_branch_mode.md`: what the conditions say after CMP (R201, R203). -/

namespace Sys2Proof.Machine

/-! ## The conditions after CMP (R157, R201, R203) -/

/-- N-bit values with the same signed value are the same (R4). -/
theorem sint_inj {n : Nat} (hpos : 0 < n) {a b : Word} (ha : a.toNat < 2 ^ n) (hb : b.toNat < 2 ^ n) :
    sint n a = sint n b ↔ a = b := by
  have hhalf : 2 * 2 ^ (n - 1) = 2 ^ n := mul_pow_sub_one hpos.ne' 2
  have hcast : ((2 ^ n : Nat) : Int) = 2 ^ n := by push_cast; rfl
  rw [BitVec.toNat_eq, sint_eq hpos, sint_eq hpos, Nat.mod_eq_of_lt ha, Nat.mod_eq_of_lt hb]
  split <;> split <;> omega

/-- A residue is the difference itself, or the modulus above it when the subtraction borrows. -/
theorem sub_mod_eq_ite {m x y : Nat} (hx : x < m) (hy : y < m) :
    (x + m - y) % m = if x < y then x + m - y else x - y := by
  split
  case isTrue h => exact Nat.mod_eq_of_lt (by omega)
  case isFalse h => rw [Nat.sub_add_comm (by omega), Nat.add_mod_right, Nat.mod_eq_of_lt (by omega)]

/-- The sign of a difference is wrong exactly when it overflows: corrected by VF it is the sign of the unbounded difference
(R202). -/
theorem sub_sign_xor_overflows {n : Nat} (hpos : 0 < n) {a b : Word} (ha : a.toNat < 2 ^ n) (hb : b.toNat < 2 ^ n) :
    (decide (2 ^ (n - 1) ≤ (a.toNat + 2 ^ n - b.toNat) % 2 ^ n) ^^ overflows n (sint n a - sint n b)) =
      decide (sint n a < sint n b) := by
  have hhalf : 2 * 2 ^ (n - 1) = 2 ^ n := mul_pow_sub_one hpos.ne' 2
  have hcast : ((2 ^ n : Nat) : Int) = 2 ^ n := by push_cast; rfl
  have hcast' : ((2 ^ (n - 1) : Nat) : Int) = 2 ^ (n - 1) := by push_cast; rfl
  rw [Bool.eq_iff_iff, Bool.xor_iff_ne, overflows, ne_eq, decide_eq_decide, decide_eq_true_iff]
  rw [sub_mod_eq_ite ha hb, sint_eq hpos, sint_eq hpos, Nat.mod_eq_of_lt ha, Nat.mod_eq_of_lt hb]
  split <;> split <;> split <;> omega

/-- The two orders that a flag for `<` leaves open are decided with a flag for equality (R201). -/
theorem le_and_gt_of_eq_iff {α : Type} [LinearOrder α] {x y : α} {p : Prop} (h : x = y ↔ p) :
    (x ≤ y ↔ x < y ∨ p) ∧ (y < x ↔ y ≤ x ∧ ¬ p) :=
  ⟨by rw [le_iff_lt_or_eq, h], by rw [lt_iff_le_and_ne', ne_eq, h]⟩

/-- What CMP leaves in the flags, as orders of its two registers (R157). -/
theorem execCmp_flags {s t : State} {a b : Reg} (h : exec (.cmp a b) s = .next t) :
    t.sr.ZF = decide (s.x a = s.x b) ∧ (t.sr.NF ^^ t.sr.VF) = decide (sint s.n (s.x a) < sint s.n (s.x b)) ∧
      t.sr.CF = decide ((s.x a).toNat < (s.x b).toNat) ∧
      t.sr.VF = overflows s.n (sint s.n (s.x a) - sint s.n (s.x b)) := by
  obtain ⟨u, hnext, -, hsr, -⟩ := cmpSetsOnlyTheFlags s a b
  obtain rfl : t = u := next_eq_next.1 (hnext.symm.trans h)
  rw [hsr]
  exact ⟨rfl, sub_sign_xor_overflows s.n_pos (x_lt s a) (x_lt s b), rfl, rfl⟩

/-- Settles O37: ZF is equality, NF corrected by VF the signed order, CF the unsigned one. -/
theorem conditionsAfterCmpAreTheOrders : Obligations.ConditionsAfterCmpAreTheOrders := by
  unfold Obligations.ConditionsAfterCmpAreTheOrders
  intro s t a b h
  obtain ⟨hzero, hsigned, hunsigned, hoverflow⟩ := execCmp_flags h
  obtain ⟨hle, hgt⟩ := le_and_gt_of_eq_iff (sint_inj s.n_pos (x_lt s a) (x_lt s b))
  obtain ⟨hbe, hab⟩ := le_and_gt_of_eq_iff (BitVec.toNat_inj (x := s.x a) (y := s.x b))
  simp only [Cond.holds, hzero, hsigned, hunsigned, Bool.not_eq_true', Bool.or_eq_true, Bool.and_eq_true,
    decide_eq_true_iff, decide_eq_false_iff_not, not_lt, ← hle, ← hgt, ← hbe, ← hab, ne_eq, true_and, and_true]
  rw [hoverflow, overflows, decide_eq_true_iff]

end Sys2Proof.Machine
end

section
/-! PROOF. The statements of `44_group_op1.md`: the jumps to an effective address (R222, R223) with the return by RTS
(R243), the entry of a trap (R224, R304), and the destinations of TSR, MSR and MPC (R226 to R228). -/

namespace Sys2Proof.Machine

/-! ## Sums and addresses on N bits (R4, R50) -/

/-- A first summand that is truncated may as well not be. -/
theorem narrow_narrow_add {n : Nat} (hn : n ≤ 32) (a b : Word) : narrow n (narrow n a + b) = narrow n (a + b) := by
  rw [← narrow_add_narrow hn, narrow_narrow, narrow_add_narrow hn]

theorem narrow_narrow_sub {n : Nat} (hn : n ≤ 32) (a b : Word) : narrow n (narrow n a - b) = narrow n (a - b) := by
  rw [BitVec.sub_eq_add_neg, narrow_narrow_add hn, ← BitVec.sub_eq_add_neg]

/-- An address above another one is an offset from it (R50). -/
theorem addrAt_add (s : State) (a : Word) (k j : Nat) :
    s.addrAt (narrow s.n (a + BitVec.ofNat 32 k)) j = s.addrAt a (k + j) := by
  simp only [State.addrAt, narrow_toNat, BitVec.toNat_add, BitVec.toNat_ofNat]
  rcases s.n_cases with ⟨_, hn, _⟩ | ⟨_, hn, _⟩ <;> rw [hn] <;> omega

/-- The bytes at an address are the first of them and those after. -/
theorem inBytes_add (s : State) (a : Word) (k k' : Nat) (b : Nat) :
    inBytes s a (k + k') b ↔ inBytes s a k b ∨ inBytes s (narrow s.n (a + BitVec.ofNat 32 k)) k' b := by
  constructor
  · rintro ⟨j, hj, rfl⟩
    by_cases hlow : j < k
    · exact .inl ⟨j, hlow, rfl⟩
    · exact .inr ⟨j - k, by omega, by rw [addrAt_add, Nat.add_sub_cancel' (by omega)]⟩
  · rintro (⟨j, hj, rfl⟩ | ⟨j, hj, rfl⟩)
    · exact ⟨j, by omega, rfl⟩
    · exact ⟨k + j, by omega, addrAt_add s a k j⟩

/-- Two words side by side share no byte. -/
theorem not_inBytes_of_above (s : State) (a : Word) {k i : Nat} (hk : k ≤ 4) (hi : i < k) :
    ¬ inBytes s a k (s.addrAt (narrow s.n (a + BitVec.ofNat 32 k)) i) := by
  rintro ⟨j, hj, h⟩
  rw [addrAt_add] at h
  unfold State.addrAt at h
  rcases s.n_cases with ⟨_, hn, _⟩ | ⟨_, hn, _⟩ <;> rw [hn] at h <;> omega

/-! ## What stands in memory -/

/-- A passage that does not store into a word leaves what it holds. -/
theorem holdsWord.of_changesOnly {regs : List Reg} {stored : Nat → Prop} {pc : Word} {f : Flags} {s t : State} {a v : Word}
    {k : Nat} (h : holdsWord s a k v) (hframe : changesOnly regs stored pc f s t)
    (hout : ∀ j, j < k → ¬ stored (s.addrAt a j)) : holdsWord t a k v := by
  have hn := hframe.n_eq
  obtain ⟨-, -, hkeeps, -⟩ := hframe
  intro j hj
  rw [State.addrAt, hn, ← State.addrAt, hkeeps.byte _ (hout j hj), h j hj]

/-- A word is read as its bytes stand for (R53, R56). -/
theorem bytesAt_of_holdsWord {s : State} {a v : Word} {k : Nat} (h : holdsWord s a k v) :
    s.bytesAt a k = narrow (8 * k) v := by
  induction k generalizing v with
  | zero => exact (BitVec.eq_of_toNat_eq (by simp [State.bytesAt, Nat.mod_one]))
  | succ k ih =>
    have hhigh : holdsWord s a k (v >>> 8) := by
      intro j hj
      rw [h j (by omega), ← BitVec.shiftRight_add]
      congr 2
      omega
    have hlow : s.byteAt (s.addrAt a k) = v.setWidth 8 := by simpa using h k (by omega)
    rw [State.bytesAt, ih hhigh, hlow]
    apply BitVec.eq_of_getLsbD_eq
    intro i hi
    by_cases hbyte : i < 8
    · have hin : i < 8 * (k + 1) := by omega
      simp [-BitVec.getLsbD_eq_getElem, hbyte, hi, hin]
    · have hin : i - 8 < 8 * k ↔ i < 8 * (k + 1) := by omega
      have hbit : 8 + (i - 8) = i := by omega
      simp [-BitVec.getLsbD_eq_getElem, hbyte, hi, hin, hbit]

/-! ## Pushes (R13) -/

/-- The state once a word has been pushed (R13). -/
def State.pushed (s : State) (v : Word) : State := (s.setX SP s.pushAddr).storeBytes s.pushAddr v s.T.bytes

theorem push_eq_pushed {s : State} (h : (s.x SP).getLsbD 0 = false) (v : Word) : s.push v = .next (s.pushed v) :=
  push_of_even v h

/-- A push completes with R15 even only (R13, R59). -/
theorem push_eq_next_iff_pushed {s t : State} {v : Word} :
    s.push v = .next t ↔ (s.x SP).getLsbD 0 = false ∧ t = s.pushed v := by
  cases hsp : (s.x SP).getLsbD 0 with
  | false => simp [push_eq_pushed hsp, next_eq_next, -Host.Outcome.next.injEq]
  | true => simp [push_of_odd hsp]

section
variable (s : State) (v : Word)

@[simp] theorem pushed_params : (s.pushed v).params = s.params := by simp [State.pushed]
@[simp] theorem pushed_n : (s.pushed v).n = s.n := by simp [State.pushed]
@[simp] theorem pushed_T : (s.pushed v).T = s.T := by simp [State.pushed]
@[simp] theorem pushed_sr : (s.pushed v).sr = s.sr := by simp [State.pushed]
@[simp] theorem pushed_sp : (s.pushed v).x SP = s.pushAddr := by simp [State.pushed, State.pushAddr]

theorem pushed_x_other {q : Reg} (h : q ≠ SP) : (s.pushed v).x q = s.x q := by simp [State.pushed, h]

theorem pushed_changesOnly : changesOnly [SP] (inBytes s s.pushAddr s.T.bytes) s.pc s.sr s (s.pushed v) :=
  push_changesOnly s v

/-- The pushed word stands at the new R15. -/
theorem pushed_holdsWord : holdsWord (s.pushed v) s.pushAddr s.T.bytes v := holdsWord_storeBytes _ _ _ (T_bytes s).2

theorem pushed_sp_even {s : State} (h : (s.x SP).getLsbD 0 = false) : ((s.pushed v).x SP).getLsbD 0 = false := by
  rw [pushed_sp, pushAddr_even h]

end

/-- R15 is back where it was once the word pushed is popped. -/
theorem pushAddr_add (s : State) : narrow s.n (s.pushAddr + BitVec.ofNat 32 s.T.bytes) = s.x SP := by
  rw [State.pushAddr, narrow_narrow_add s.n_le, BitVec.sub_add_cancel, narrow_x]

theorem changesOnly.T_eq {regs : List Reg} {stored : Nat → Prop} {pc : Word} {f : Flags} {s t : State}
    (h : changesOnly regs stored pc f s t) : t.T = s.T := by
  obtain ⟨-, -, k, -⟩ := h
  rw [State.T, k.params, State.T]

/-- A passage that writes no byte before it ends with a push. -/
theorem changesOnly.pushed {regs : List Reg} {pc : Word} {f : Flags} {s t : State}
    (h : changesOnly regs noByte pc f s t) (v : Word) :
    changesOnly (SP :: regs) (inBytes s t.pushAddr s.T.bytes) pc f s (t.pushed v) := by
  have hsp := h.regWrite SP t.T t.pushAddr
  rw [regWrite_word] at hsp
  rw [← h.T_eq]
  exact hsp.storeBytes t.pushAddr v _

/-! ## JEA and JSR (R222, R223) -/

section
variable {mode : Mode} {r : Reg} {s : State}

/-- The effective address is an N-bit value (R97 to R102). -/
theorem narrow_effectiveAddress {z : Size} {ea : Word} (himm : mode ≠ .immediate)
    (h : effectiveAddress mode r z s = some ea) : narrow s.n ea = ea := by
  cases mode with
  | immediate => exact absurd rfl himm
  | register => cases h
  | indirect | postIncrement => exact Option.some.inj h ▸ narrow_x s r
  | preDecrement | indexed => exact Option.some.inj h ▸ narrow_narrow _ _
  | direct => exact Option.some.inj h ▸ narrow_extensionWord s
  | indirectIndexed => exact Option.some.inj h ▸ narrow_of_lt ((T_bytes s).1 ▸ bytesAt_lt s _ _)

/-- Only mode 111 goes through a pointer (R102). -/
theorem pointerUnaligned.mode_eq (h : pointerUnaligned mode r s) : mode = .indirectIndexed := by
  obtain ⟨-, hpointer⟩ := h
  rw [pointerMisaligned, Bool.and_eq_true, beq_iff_eq] at hpointer
  exact hpointer.1

theorem evalAddress_of_ready {ea : Word} (himm : mode ≠ .immediate) (hreg : mode ≠ .register) (h : addressReady mode r s)
    (hea : effectiveAddress mode r s.T s = some ea) : evalAddress mode r s = .next (ea, afterOperand mode r s.T s) :=
  evalAddress_eq_next.2 ⟨hreg, himm, h, ea, hea, rfl⟩

theorem evalAddress_of_pointerUnaligned (h : pointerUnaligned mode r s) :
    evalAddress mode r s = .fault .misalignedAccess := by
  have hmode := h.mode_eq
  rw [evalAddress, if_neg (by simp [hmode]), if_neg (by simp [hmode]), evalMode_of_pointerUnaligned h, andThen_fault]

end

/-- The PC after the evaluation of an operand is the address of the next instruction (R92). -/
theorem afterOperand_pc (mode : Mode) (r : Reg) (z : Size) (s : State) : (afterOperand mode r z s).pc = nextPc mode s := by
  obtain ⟨hpc, -⟩ := afterOperand_changesOnly mode r z s
  exact hpc

/-- Settles O46: the operand is evaluated, and the PC takes its address. -/
theorem jeaJumpsToTheOperandsAddress : Obligations.JeaJumpsToTheOperandsAddress := by
  unfold Obligations.JeaJumpsToTheOperandsAddress
  intro s m r
  refine ⟨fun ea himm hreg hready hea => ?_, fun hunaligned => ?_⟩
  · have hexec : exec (.jea m r) s = .next ((afterOperand m r s.T s).setPc ea) := by
      rw [exec, execJea, evalAddress_of_ready himm hreg hready hea, andThen_next]
    have hframe := (afterOperand_changesOnly m r s.T s).setPc ea
    rw [narrow_effectiveAddress himm hea] at hframe
    exact ⟨_, hexec, (afterOperand_stepped m r s.T s).congr rfl, hframe⟩
  · rw [exec, execJea, evalAddress_of_pointerUnaligned hunaligned, andThen_fault]

/-- JSR completes exactly when its operand has an address and R15 is then even, with the return address pushed (R223). -/
theorem execJsr_eq_next {mode : Mode} {r : Reg} {s t : State} :
    execJsr mode r s = .next t ↔ mode ≠ .register ∧ mode ≠ .immediate ∧ addressReady mode r s ∧
      ((afterOperand mode r s.T s).x SP).getLsbD 0 = false ∧
      ∃ ea, effectiveAddress mode r s.T s = some ea ∧
        t = ((afterOperand mode r s.T s).pushed (nextPc mode s)).setPc ea := by
  unfold execJsr
  constructor
  · intro h
    obtain ⟨p, hp, h⟩ := andThen_eq_next.1 h
    obtain ⟨hreg, himm, hready, ea, hea, rfl⟩ := evalAddress_eq_next.1 hp
    obtain ⟨u, hu, h⟩ := andThen_eq_next.1 h
    obtain ⟨heven, rfl⟩ := push_eq_next_iff_pushed.1 hu
    exact ⟨hreg, himm, hready, heven, ea, hea, by rw [← afterOperand_pc mode r s.T s]; exact next_eq_next.1 h⟩
  · rintro ⟨hreg, himm, hready, heven, ea, hea, rfl⟩
    rw [evalAddress_of_ready himm hreg hready hea, andThen_next, push_eq_pushed heven, andThen_next, afterOperand_pc]

/-- Settles O47: the operand is evaluated, the PC past it is pushed, and the PC takes the address. -/
theorem jsrPushesTheReturnAddress : Obligations.JsrPushesTheReturnAddress := by
  unfold Obligations.JsrPushesTheReturnAddress
  intro s m r
  refine ⟨fun ea himm hreg hready hea heven => ?_, fun hunaligned => ?_⟩
  · have hsp : (((afterOperand m r s.T s).pushed (nextPc m s)).setPc ea).x SP = (afterOperand m r s.T s).pushAddr := by
      rw [setPc_x, pushed_sp]
    have hframe := ((afterOperand_changesOnly m r s.T s).pushed (nextPc m s)).setPc ea
    have hword := pushed_holdsWord (afterOperand m r s.T s) (nextPc m s)
    rw [narrow_effectiveAddress himm hea] at hframe
    rw [afterOperand_T] at hword
    refine ⟨_, execJsr_eq_next.2 ⟨hreg, himm, hready, heven, ea, hea, rfl⟩, ?_, ?_, fun hne => ?_, ?_⟩
    · rw [hsp, State.pushAddr, afterOperand_n, afterOperand_T]
    · rw [hsp]
      exact hword
    · exact (afterOperand_stepped m r s.T s).congr (pushed_x_other _ _ hne)
    · rw [hsp]
      exact hframe
  · rw [exec, execJsr, evalAddress_of_pointerUnaligned hunaligned, andThen_fault]

/-! ## RTS after JSR (R223, R243) -/

/-- RTS right after a push of `v` and a jump goes to `v` and finds R15 as it was (R13, R243). -/
theorem execRts_of_pushed {s : State} (h : (s.x SP).getLsbD 0 = false) (v ea : Word) :
    ∃ u, execRts ((s.pushed v).setPc ea) = .next u ∧ u.pc = narrow s.n v ∧ u.sr = s.sr ∧ ∀ q, u.x q = s.x q := by
  obtain ⟨t, ht⟩ : ∃ t, t = (s.pushed v).setPc ea := ⟨_, rfl⟩
  have hn : t.n = s.n := by simp [ht]
  have hT : t.T = s.T := by simp [ht]
  have hsp : t.x SP = s.pushAddr := by simp [ht]
  have heven : (t.x SP).getLsbD 0 = false := hsp ▸ pushAddr_even h
  have hword : t.bytesAt (t.x SP) t.T.bytes = narrow s.n v := by
    rw [hsp, hT, ← (T_bytes s).1, ht]
    exact bytesAt_of_holdsWord (pushed_holdsWord s v)
  rw [← ht]
  refine ⟨_, by rw [execRts, pop_of_even heven, andThen_next], ?_, ?_, fun q => ?_⟩
  · rw [setPc_pc, setX_n, hword, hn, narrow_narrow]
  · simp [ht]
  · rw [setPc_x, setX_x]
    split
    case isTrue hq => rw [hq, hsp, hT, hn, pushAddr_add]
    case isFalse hq => rw [ht, setPc_x, pushed_x_other _ _ hq]

/-- Settles O48: a JSR that completes has pushed the address that RTS pops. -/
theorem rtsReturnsFromJsr : Obligations.RtsReturnsFromJsr := by
  unfold Obligations.RtsReturnsFromJsr
  intro s t m r h
  obtain ⟨-, -, -, heven, ea, -, rfl⟩ := execJsr_eq_next.1 h
  have hreturn := execRts_of_pushed heven (nextPc m s) ea
  rw [afterOperand_n, afterOperand_sr] at hreturn
  exact hreturn

/-! ## The entry of an exception (R304) and TRP (R224) -/

/-- The state once an entry has pushed SR and the return address, IF cleared in between (R304). -/
def State.stacked (s : State) (ret : Word) : State := (s.pushed s.srWord).inhibit.pushed ret

/-- The state once an exception has been entered (R304). -/
def State.entered (s : State) (num : Nat) (ret : Word) : State :=
  (s.stacked ret).setPc ((s.stacked ret).bytesAt (s.vectorAddr num) s.T.bytes &&& s.params.vectorMask)

@[simp] theorem stacked_params (s : State) (ret : Word) : (s.stacked ret).params = s.params := by simp [State.stacked]
@[simp] theorem stacked_n (s : State) (ret : Word) : (s.stacked ret).n = s.n := by simp [State.stacked]
@[simp] theorem stacked_T (s : State) (ret : Word) : (s.stacked ret).T = s.T := by simp [State.stacked]

theorem enter_of_even {s : State} (h : (s.x SP).getLsbD 0 = false) (num : Nat) (ret : Word) :
    s.enter num ret = .next (s.entered num ret) := by
  have hsecond : (s.pushed s.srWord).inhibit.push ret = .next (s.stacked ret) :=
    push_eq_pushed (s := (s.pushed s.srWord).inhibit) (pushed_sp_even _ h) ret
  refine enter_eq_next.2 ⟨_, _, push_eq_pushed h _, hsecond, ?_⟩
  rw [State.entered, State.vectorAddr, State.vectorAddr, stacked_n, stacked_T, stacked_params]

/-- The address of the second of two words pushed (R13). -/
theorem pushed_pushAddr (s : State) (v : Word) :
    (s.pushed v).pushAddr = narrow s.n (s.x SP - BitVec.ofNat 32 (2 * s.T.bytes)) := by
  rw [State.pushAddr, pushed_sp, pushed_n, pushed_T, State.pushAddr, narrow_narrow_sub s.n_le, Nat.two_mul, BitVec.ofNat_add,
    sub_sub]

/-- The first of two words pushed stands above the second (R13). -/
theorem pushed_pushAddr_add (s : State) (v : Word) :
    narrow s.n ((s.pushed v).pushAddr + BitVec.ofNat 32 s.T.bytes) = s.pushAddr := by
  have h := pushAddr_add (s.pushed v)
  rwa [pushed_n, pushed_T, pushed_sp] at h

/-- R15 after the entry is where the second push wrote. -/
theorem entered_sp (s : State) (num : Nat) (ret : Word) :
    (s.entered num ret).x SP = (s.pushed s.srWord).pushAddr :=
  pushed_sp (s.pushed s.srWord).inhibit ret

theorem entered_pc (s : State) (num : Nat) (ret : Word) :
    (s.entered num ret).pc =
      narrow s.n ((s.entered num ret).bytesAt (s.vectorAddr num) s.T.bytes &&& s.params.vectorMask) := by
  have hbytes : (s.entered num ret).bytesAt (s.vectorAddr num) s.T.bytes =
      (s.stacked ret).bytesAt (s.vectorAddr num) s.T.bytes :=
    bytesAt_congr (s := s.stacked ret) (t := s.entered num ret) rfl (fun _ => rfl) _ _
  rw [hbytes, State.entered, setPc_pc, stacked_n]

theorem inBytes_congr {s t : State} (hn : t.n = s.n) (a : Word) (k : Nat) : inBytes t a k = inBytes s a k := by
  funext b
  simp only [inBytes, State.addrAt, hn]

/-- The part of an entry before the second push. -/
theorem pushed_inhibit_changesOnly (s : State) (v : Word) :
    changesOnly [SP] (inBytes s s.pushAddr s.T.bytes) s.pc { s.sr with IF := false } s (s.pushed v).inhibit := by
  have hframe := (pushed_changesOnly s v).setSr { (s.pushed v).sr with IF := false }
  rw [pushed_sr] at hframe
  rwa [State.inhibit, pushed_sr]

/-- The part of an entry from the second push on. -/
theorem inhibit_entered_changesOnly (s : State) (num : Nat) (ret : Word) :
    changesOnly [SP] (inBytes s (s.pushed s.srWord).pushAddr s.T.bytes) (s.entered num ret).pc { s.sr with IF := false }
      (s.pushed s.srWord).inhibit (s.entered num ret) := by
  have hframe := pushed_changesOnly (s.pushed s.srWord).inhibit ret
  rw [inBytes_congr (s := s) (by simp), inhibit_T, pushed_T, inhibit_sr, pushed_sr] at hframe
  obtain ⟨-, hsr, hkeeps, hquiet⟩ := hframe
  exact ⟨rfl, hsr, { hkeeps with }, hquiet⟩

/-- An entry changes R15, the two words below the last one pushed, the PC and IF (R304). -/
theorem entered_changesOnly (s : State) (num : Nat) (ret : Word) :
    changesOnly [SP] (inBytes s (s.pushed s.srWord).pushAddr (2 * s.T.bytes)) (s.entered num ret).pc
      { s.sr with IF := false } s (s.entered num ret) := by
  have hstored : inBytes s (s.pushed s.srWord).pushAddr (2 * s.T.bytes) =
      fun b => inBytes s s.pushAddr s.T.bytes b ∨ inBytes s (s.pushed s.srWord).pushAddr s.T.bytes b := by
    funext b
    rw [Nat.two_mul, inBytes_add, pushed_pushAddr_add, or_comm]
  obtain ⟨hpc, hsr, hkeeps, hquiet⟩ :=
    (pushed_inhibit_changesOnly s s.srWord).trans (inhibit_entered_changesOnly s num ret)
  rw [hstored]
  exact ⟨hpc, hsr, hkeeps.mono (by simp), hquiet⟩

/-- The two pushes, the cleared IF and the jump are an entry as the statements describe it (R304). -/
theorem entered_spec (s : State) (num : Nat) (ret : Word) : Entered num ret s (s.entered num ret) := by
  have hsecond := inhibit_entered_changesOnly s num ret
  obtain ⟨-, hsr, hkeeps, hquiet⟩ := entered_changesOnly s num ret
  have hret := pushed_holdsWord (s.pushed s.srWord).inhibit ret
  have hstatus : holdsWord (s.pushed s.srWord).inhibit s.pushAddr s.T.bytes s.srWord := pushed_holdsWord s s.srWord
  have hapart (j : Nat) (hj : j < s.T.bytes) :
      ¬ inBytes s (s.pushed s.srWord).pushAddr s.T.bytes ((s.pushed s.srWord).inhibit.addrAt s.pushAddr j) := by
    have h := not_inBytes_of_above s (s.pushed s.srWord).pushAddr (T_bytes s).2 hj
    rwa [pushed_pushAddr_add, State.addrAt, ← pushed_n s s.srWord] at h
  exact
    { sp := by rw [entered_sp, pushed_pushAddr]
      savedPc := by rw [entered_sp]; rwa [inhibit_T, pushed_T] at hret
      savedSr := by rw [entered_sp, pushed_pushAddr_add]; exact hstatus.of_changesOnly hsecond hapart
      flags := hsr
      pc := entered_pc s num ret
      keeps := by rw [entered_sp]; exact hkeeps
      quiet := hquiet }

/-- Settles O49: the operand is read, or is at an odd address; the trap of its number is entered with the PC past it. -/
theorem trpEntersTheTrap : Obligations.TrpEntersTheTrap := by
  unfold Obligations.TrpEntersTheTrap
  intro s m r
  refine ⟨fun hready heven => ?_, fun hunaligned => ?_⟩
  · have hexec : exec (.trp m r) s =
        .next ((afterOperand m r s.T s).entered (operandValue m r s.T s).toNat (nextPc m s)) := by
      rw [exec, execTrp, readOperand_of_ready hready, andThen_next, State.raiseTrap, afterOperand_pc, enter_of_even heven]
    exact ⟨_, _, rfl, afterOperand_stepped m r s.T s, afterOperand_changesOnly m r s.T s, hexec, entered_spec _ _ _⟩
  · rw [exec, execTrp, readOperand_of_unaligned hunaligned, andThen_fault]

/-! ## TSR, MSR and MPC (R226, R227, R228) -/

/-- The instructions with a destination, what each writes there, and the flags it leaves. -/
def destinationInstrs (mode : Mode) (r : Reg) (s : State) : List (Instr × Word × Flags) :=
  [(.tsr mode r, 0, s.sr.withResult (decide (operandValue mode r s.T s = 0))
      ((operandValue mode r s.T s).getLsbD (s.n - 1)) false false),
    (.msr mode r, s.srWord, s.sr), (.mpc mode r, nextPc mode s, s.sr)]

section
variable {mode : Mode} {r : Reg} {s : State} {p : Instr × Word × Flags}

theorem evalDestination_of_ready (himm : mode ≠ .immediate) (h : addressReady mode r s) :
    evalDestination mode r s =
      .next ⟨location mode r s.T s, effectiveAddress mode r s.T s, afterOperand mode r s.T s⟩ :=
  evalDestination_eq_next.2 ⟨himm, h, rfl⟩

theorem afterOperand_setSr_self (mode : Mode) (r : Reg) (z : Size) (s : State) :
    (afterOperand mode r z s).setSr s.sr = afterOperand mode r z s := by
  rw [← afterOperand_sr mode r z s, State.setSr]

theorem afterOperand_srWord (mode : Mode) (r : Reg) (z : Size) (s : State) :
    (afterOperand mode r z s).srWord = s.srWord := by
  rw [State.srWord, afterOperand_params, afterOperand_sr, State.srWord]

/-- Each of the three evaluates its operand, sets its flags and writes its word there. -/
theorem exec_destination (hp : p ∈ destinationInstrs mode r s) (himm : mode ≠ .immediate)
    (hready : operandReady mode r s.T s) :
    exec p.1 s = writeLoc (location mode r s.T s) s.T p.2.1 ((afterOperand mode r s.T s).setSr p.2.2) := by
  obtain ⟨haddress, hloc⟩ := hready
  have heval := evalDestination_of_ready himm haddress
  simp only [destinationInstrs, List.mem_cons, List.not_mem_nil, or_false] at hp
  obtain rfl | rfl | rfl := hp
  · have hread : readLoc (location mode r s.T s) s.T (afterOperand mode r s.T s) = .next (operandValue mode r s.T s) :=
      readLoc_eq_next.2 ⟨locReady_afterOperand.2 hloc, (locValue_afterOperand mode r s.T s).symm⟩
    rw [exec, execTsr, heval, andThen_next, hread, andThen_next, State.testFlags, State.setResult, afterOperand_sr,
      afterOperand_n, result_eq_withResult (narrow_operandValue mode r s)]
  · rw [exec, execMsr, heval, andThen_next, afterOperand_setSr_self, afterOperand_srWord]
  · rw [exec, execMpc, heval, andThen_next, afterOperand_setSr_self, afterOperand_pc]

theorem operandUnaligned.ne_immediate {z : Size} (h : operandUnaligned mode r z s) : mode ≠ .immediate := by
  rintro rfl
  obtain hpointer | ⟨-, a, hloc, -⟩ := h
  · cases hpointer.mode_eq
  · cases hloc

/-- An action that uses its destination stops on one at an odd address, whether it reads it first or not (R59). -/
theorem evalDestination_of_unaligned (h : operandUnaligned mode r s.T s) {act : Operand → Result State}
    (hact : ∀ o a, o.loc = .mem a → misaligned s.T a = true → act o = .fault .misalignedAccess) :
    andThen (evalDestination mode r s) act = .fault .misalignedAccess := by
  rw [evalDestination, if_neg h.ne_immediate]
  obtain heval | ⟨o, a, heval, hloc, hodd⟩ := evalMode_of_operandUnaligned h
  · rw [heval, andThen_fault]
  · rw [heval, andThen_next, hact o a hloc hodd]

theorem exec_destination_of_unaligned (hp : p ∈ destinationInstrs mode r s) (h : operandUnaligned mode r s.T s) :
    exec p.1 s = .fault .misalignedAccess := by
  have hwrite (v : Operand → Word) (o : Operand) (a : Word) (hloc : o.loc = .mem a) (hodd : misaligned s.T a = true) :
      writeLoc o.loc s.T (v o) o.state = .fault .misalignedAccess := by
    rw [hloc, (readLoc_writeLoc_of_misaligned hodd o.state (v o)).2]
  simp only [destinationInstrs, List.mem_cons, List.not_mem_nil, or_false] at hp
  obtain rfl | rfl | rfl := hp
  · exact evalDestination_of_unaligned h fun o a hloc hodd => by
      rw [hloc, (readLoc_writeLoc_of_misaligned hodd o.state 0).1, andThen_fault]
  · exact evalDestination_of_unaligned h (hwrite fun o => o.state.srWord)
  · exact evalDestination_of_unaligned h (hwrite fun o => o.state.pc)

end

/-- Settles O51: the word is written to the bytes of the operand. -/
theorem tsrMsrMpcWriteMemory : Obligations.TsrMsrMpcWriteMemory := by
  unfold Obligations.TsrMsrMpcWriteMemory
  intro s m r p hp
  refine ⟨fun ea himm _ hready hea => ?_, exec_destination_of_unaligned hp⟩
  have hloc : location m r s.T s = .mem ea := location_of_effectiveAddress himm hea
  have hexec := exec_destination hp himm hready
  obtain ⟨-, haligned⟩ := hready
  rw [hloc] at hexec haligned
  refine ⟨_, hexec.trans (writeLoc_eq_next.2 (.inr ⟨ea, rfl, haligned, rfl⟩)), ?_, ?_, ?_⟩
  · exact holdsWord_storeBytes _ _ _ (T_bytes s).2
  · exact (afterOperand_stepped m r s.T s).congr (storeBytes_x _ _ _ _ _)
  · exact ((afterOperand_changesOnly m r s.T s).setSr p.2.2).storeBytes ea _ _

theorem operandValue_register (r : Reg) (s : State) : operandValue .register r s.T s = s.x r := by
  have hbits : s.T.bits = s.n := (T_bytes s).1
  calc operandValue .register r s.T s
      = narrow s.T.bits (s.x r) := rfl
    _ = s.x r := by rw [hbits, narrow_x]

/-- Settles O52: the word is written to the register, which is all there is to evaluate. -/
theorem tsrMsrMpcWriteTheRegister : Obligations.TsrMsrMpcWriteTheRegister := by
  unfold Obligations.TsrMsrMpcWriteTheRegister
  intro s r p hp
  rw [← operandValue_register r s] at hp
  have hexec : exec p.1 s = .next (regWrite r s.T p.2.1 (s.setSr p.2.2)) :=
    exec_destination (mode := .register) hp (by decide) ⟨⟨nofun, rfl⟩, trivial⟩
  have hwrite : regWrite r s.T p.2.1 (s.setSr p.2.2) = (s.setSr p.2.2).setX r p.2.1 := regWrite_word r _ (s.setSr p.2.2)
  have hframe := ((changesOnly.refl s).setSr p.2.2).regWrite r s.T p.2.1
  rw [hwrite] at hexec hframe
  exact ⟨_, hexec, (setX_x _ r _ r).trans (if_pos rfl), hframe⟩

end Sys2Proof.Machine
end

section
/-! PROOF. The statements of `45_group_op0.md`: RTI after the entry of an exception (R244, R304, R315), and the instructions that
write one flag or none (R241, R242, R245 to R248). -/

namespace Sys2Proof.Machine

/-! ## RTI after the entry of an exception (R244, R304, R315) -/

/-- An entry completes with R15 even only (R59, R304). -/
theorem enter_eq_next_iff_entered {s t : State} {num : Nat} {ret : Word} :
    s.enter num ret = .next t ↔ (s.x SP).getLsbD 0 = false ∧ t = s.entered num ret := by
  cases hsp : (s.x SP).getLsbD 0 with
  | false => simp [enter_of_even hsp, next_eq_next, -Host.Outcome.next.injEq]
  | true => simp [enter_of_odd hsp]

theorem entered_sp_even {s : State} (h : (s.x SP).getLsbD 0 = false) (num : Nat) (ret : Word) :
    ((s.entered num ret).x SP).getLsbD 0 = false :=
  entered_sp s num ret ▸ pushAddr_even (pushed_sp_even s.srWord h)

/-- The places of the flags lie in the low 16 bits, which every word of a machine has (R35, R36). -/
theorem srLoad_narrow {n : Nat} (hn : 16 ≤ n) (l : SrLayout) (w : Word) : srLoad l (narrow n w) = srLoad l w := by
  have hplace (i : Fin 16) : (narrow n w).getLsbD i = w.getLsbD i := by
    have hi : i.val < n := by omega
    rw [narrow_getLsbD, decide_eq_true hi, Bool.true_and]
  simp only [srLoad, hplace]

section
variable {num : Nat} {ret : Word} {s t : State} (h : Entered num ret s t)
include h

theorem Entered.n_eq : t.n = s.n := by rw [State.n, h.keeps.params, State.n]

theorem Entered.T_eq : t.T = s.T := by rw [State.T, h.keeps.params, State.T]

/-- The first pop finds the return address, which was pushed last. -/
theorem Entered.returned_pc : t.returned.pc = narrow s.n ret := by
  obtain ⟨hbits, -⟩ := T_bytes s
  rw [Machine.returned_pc, h.T_eq, bytesAt_of_holdsWord h.savedPc, hbits]

/-- The second pop finds the SR word, and the six flags stand at six places of it (R35, R36). -/
theorem Entered.returned_sr (hdistinct : s.params.srLayout.distinct) : t.returned.sr = s.sr := by
  obtain ⟨hbits, -⟩ := T_bytes s
  have hwide : 16 ≤ s.n := by rcases s.n_cases with ⟨_, hn, _⟩ | ⟨_, hn, _⟩ <;> omega
  have hword : t.bytesAt (t.popped.x SP) t.T.bytes = narrow s.n s.srWord := by
    rw [popped_sp, h.n_eq, h.T_eq, bytesAt_of_holdsWord h.savedSr, hbits]
  obtain ⟨hflags, -⟩ := statusWordHoldsTheFlags s.params.srLayout s.sr hdistinct
  calc t.returned.sr
      = srLoad t.params.srLayout (t.bytesAt (t.popped.x SP) t.T.bytes) := rfl
    _ = srLoad s.params.srLayout s.srWord := by rw [hword, h.keeps.params, srLoad_narrow hwide]
    _ = s.sr := hflags

/-- R15 goes down by two words and up again; no other register is touched. -/
theorem Entered.returned_x (q : Reg) : t.returned.x q = s.x q := by
  obtain ⟨-, -, hkeeps, -⟩ := returned_changesOnly t
  by_cases hq : q = SP
  · rw [hq, returned_sp, h.n_eq, h.T_eq, h.sp, narrow_narrow_add s.n_le, BitVec.sub_add_cancel, narrow_x]
  · have hout : q ∉ [SP] := by simpa using hq
    rw [hkeeps.reg q hout, h.keeps.reg q hout]

/-- A return stores nothing, so only the two words that the entry pushed are new. -/
theorem Entered.returned_byteAt {a : Nat} (ha : ¬ inBytes s (t.x SP) (2 * s.T.bytes) a) :
    t.returned.byteAt a = s.byteAt a := by
  obtain ⟨-, -, hkeeps, -⟩ := returned_changesOnly t
  rw [hkeeps.byte a not_false, h.keeps.byte a ha]

end

/-- Settles O57: the entry leaves R15 even and on it the return address below the SR word, and RTI pops both. -/
theorem rtiUndoesTheEntry : Obligations.RtiUndoesTheEntry := by
  unfold Obligations.RtiUndoesTheEntry
  intro s t num ret hdistinct hentry
  obtain ⟨heven, rfl⟩ := enter_eq_next_iff_entered.1 hentry
  have hentered := entered_spec s num ret
  have hexec : exec .rti (s.entered num ret) = .next (s.entered num ret).returned := by
    rw [exec, execRti, returnFromException_of_even (entered_sp_even heven num ret)]
  exact ⟨_, hexec, hentered.returned_sr hdistinct, hentered.returned_pc, hentered.returned_x,
    fun _ ha => hentered.returned_byteAt ha⟩

/-! ## The instructions that write a flag, and NOP (R241, R242, R245 to R248) -/

/-- A write of the flags leaves everything else. -/
theorem setSr_changesOnly (s : State) (f : Flags) : changesOnly [] noByte s.pc f s (s.setSr f) :=
  (changesOnly.refl s).setSr f

/-- Settles O53: NOP ends in the state it starts from, CLC and STC in one with other flags. -/
theorem nopClcAndStcChangeOnlyTheCarry : Obligations.NopClcAndStcChangeOnlyTheCarry := by
  unfold Obligations.NopClcAndStcChangeOnlyTheCarry
  intro s
  rw [List.forall_mem_cons, List.forall_mem_cons, List.forall_mem_singleton]
  refine ⟨⟨rfl, s, ?nop, changesOnly.refl s⟩, ⟨rfl, _, ?clc, setSr_changesOnly s _⟩,
    rfl, _, ?stc, setSr_changesOnly s _⟩
  case nop => rw [exec, execNop]
  case clc => rw [exec, execClc]
  case stc => rw [exec, execStc]

/-- Settles O54: each of the three ends in the state it starts from, with other flags. -/
theorem hltDsiAndEniSetTheirFlag : Obligations.HltDsiAndEniSetTheirFlag := by
  unfold Obligations.HltDsiAndEniSetTheirFlag
  intro s
  rw [List.forall_mem_cons, List.forall_mem_cons, List.forall_mem_singleton]
  refine ⟨⟨_, ?hlt, setSr_changesOnly s _⟩, ⟨_, ?dsi, setSr_changesOnly s _⟩, _, ?eni, setSr_changesOnly s _⟩
  case hlt => rw [exec, execHlt]
  case dsi => rw [exec, execDsi]
  case eni => rw [exec, execEni]

end Sys2Proof.Machine
end

section
/-! PROOF. The statements of `46_quick.md`: the ValueCode as a signed N-bit value (R260), LDQ (R261) and ADQ (R262). -/

namespace Sys2Proof

/-- The first digit of a word of format Q (R87). -/
theorem wordQ_digit {op : Nat} (h : op < 2) (v : BitVec 8) (r : Reg) : (wordQ op v r).toNat / 0x1000 = 2 + op := by
  rw [wordQ_toNat h]
  omega

end Sys2Proof

namespace Sys2Proof.Machine

/-! ## The sign of a number of n bits (R4) -/

/-- The sign bit tells whether the signed value is negative (R31). -/
theorem signBit_eq_sint_neg {n : Nat} (hpos : 0 < n) (v : Word) : signBit n v = decide (sint n v < 0) := by
  have hlt := Nat.mod_lt v.toNat (Nat.two_pow_pos n)
  have hcast : ((2 ^ n : Nat) : Int) = 2 ^ n := by push_cast; rfl
  rw [signBit_eq hpos, sint_eq hpos, decide_eq_decide]
  split <;> omega

/-- A byte in the container, read as a signed number of 8 bits (R4). -/
theorem sint_setWidth_byte (v : BitVec 8) : sint 8 (v.setWidth 32) = v.toInt := by
  have hlt := v.isLt
  have hcontainer : (v.setWidth 32).toNat = v.toNat := BitVec.toNat_setWidth_of_le (by decide)
  rw [sint_eq (by decide), hcontainer, Nat.mod_eq_of_lt hlt, BitVec.toInt_eq_toNat_cond]
  split <;> split <;> omega

/-! ## The extended ValueCode (R91, R260) -/

theorem sint_quickValue (v : BitVec 8) (s : State) : sint s.n (quickValue v s) = v.toInt := by
  have hle : 8 ≤ s.n := by rcases s.n_cases with ⟨_, h, _⟩ | ⟨_, h, _⟩ <;> omega
  rw [quickValue, sint_sext (by decide) hle s.n_le, sint_setWidth_byte]

theorem quickValue_toInt (v : BitVec 8) (s : State) : ((quickValue v s).toNat : Int) = v.toInt % 2 ^ s.n := by
  rw [quickValue, sext, wordOfInt_toInt s.n_le, sint_setWidth_byte]

theorem narrow_quickValue (v : BitVec 8) (s : State) : narrow s.n (quickValue v s) = quickValue v s :=
  narrow_wordOfInt s.n_le _

theorem quickValue_lt (v : BitVec 8) (s : State) : (quickValue v s).toNat < 2 ^ s.n :=
  narrow_quickValue v s ▸ narrow_lt _ _

theorem quickValue_eq_zero {v : BitVec 8} {s : State} : quickValue v s = 0 ↔ v = 0 := by
  have hzero : (0 : Word).toNat < 2 ^ s.n := Nat.two_pow_pos s.n
  rw [← sint_inj s.n_pos (quickValue_lt v s) hzero, sint_quickValue, sint_zero]
  exact BitVec.toInt_inj (y := 0)

/-- Extending the sign keeps it: bit 7 becomes bit N - 1. -/
theorem quickValue_sign (v : BitVec 8) (s : State) : (quickValue v s).getLsbD (s.n - 1) = v.getLsbD 7 := by
  calc (quickValue v s).getLsbD (s.n - 1)
      = decide (sint s.n (quickValue v s) < 0) := signBit_eq_sint_neg s.n_pos _
    _ = decide (v.toInt < 0) := by rw [sint_quickValue]
    _ = v.getLsbD 7 := BitVec.msb_eq_toInt.symm

/-! ## LDQ (R261) -/

/-- Settles O59: LDQ is the logical instruction whose result is the extended ValueCode. -/
theorem ldqLoadsTheSignedValue : Obligations.LdqLoadsTheSignedValue := by
  unfold Obligations.LdqLoadsTheSignedValue
  intro s v r
  obtain ⟨t, hnext, hr, hframe⟩ := writeLogic_leaves (narrow_quickValue v s) r
  simp only [quickValue_eq_zero, quickValue_sign] at hframe
  exact ⟨wordQ_digit (by decide) v r, t, hnext, hr ▸ quickValue_toInt v s, hframe⟩

/-! ## ADQ (R262) -/

theorem addC_quickValue_res (s : State) (v : BitVec 8) (a : Word) :
    ((addC s.n a (quickValue v s) false).res.toNat : Int) = ((a.toNat : Int) + v.toInt) % 2 ^ s.n := by
  rw [addC_res_toNat s.n_le, Bool.toNat_false, Nat.add_zero]
  push_cast
  rw [quickValue_toInt, Int.add_emod_emod]

theorem addC_quickValue_carry (s : State) (v : BitVec 8) (a : Word) :
    (addC s.n a (quickValue v s) false).carry = decide (2 ^ s.n ≤ (a.toNat : Int) + v.toInt % 2 ^ s.n) := by
  rw [addC_false_carry, decide_eq_decide, ← quickValue_toInt]
  norm_cast

/-- Settles O60: ADQ is the sum with the extended ValueCode and no carry in. -/
theorem adqAddsTheSignedValue : Obligations.AdqAddsTheSignedValue := by
  unfold Obligations.AdqAddsTheSignedValue
  intro s v r
  obtain ⟨t, hnext, hr, hframe⟩ := writeSum_leaves (addC_res_lt s.n_le (s.x r) (quickValue v s) false) r
  rw [addC_quickValue_carry, addC_false_overflow, sint_quickValue] at hframe
  exact ⟨wordQ_digit (by decide) v r, t, hnext, hr ▸ addC_quickValue_res s v (s.x r), hr ▸ hframe⟩

end Sys2Proof.Machine
end

section
/-! PROOF. The statements of `47_branch_short.md`: the short branches (R270 to R283). -/

namespace Sys2Proof.Machine

/-- The short branch of each condition (R201, R271 to R283). -/
def shortBranchInstr : Cond → BitVec 8 → Instr
  | .always => .jqmp
  | .eq => .jqeq
  | .ne => .jqne
  | .ge => .jqge
  | .le => .jqle
  | .gt => .jqgt
  | .lw => .jqlw
  | .ae => .jqae
  | .be => .jqbe
  | .ab => .jqab
  | .bl => .jqbl
  | .vs => .jqvs
  | .vc => .jqvc

/-- The ValueCode of a short branch is extended as that of a quick instruction is (R91, R260, R270). -/
theorem exec_shortBranchInstr (c : Cond) (v : BitVec 8) (s : State) :
    exec (shortBranchInstr c v) s = .next (if c.holds s.sr then s.setPc (s.pc + quickValue v s) else s) := by
  cases c <;> rfl

/-- A sum with the extended ValueCode on N bits is the sum with the signed number it stands for (R4, R91). -/
theorem narrow_add_quickValue_toInt (s : State) (a : Word) (v : BitVec 8) :
    ((narrow s.n (a + quickValue v s)).toNat : Int) = ((a.toNat : Int) + v.toInt) % 2 ^ s.n := by
  rw [narrow_toNat, BitVec.toNat_add, Nat.mod_mod_of_dvd _ (Nat.pow_dvd_pow 2 s.n_le)]
  push_cast
  rw [quickValue_toInt, Int.add_emod_emod]

/-- Settles O44: a branch that is taken writes the PC, and one that is not taken ends in the state it starts from. -/
theorem shortBranchesAddTheValueCode : Obligations.ShortBranchesAddTheValueCode := by
  unfold Obligations.ShortBranchesAddTheValueCode
  intro s v p hp
  obtain ⟨c, rfl⟩ := exists_cond_of_mem (branch := fun c => shortBranchInstr c v) hp
  cases hc : c.holds s.sr with
  | true =>
    have hexec : exec (shortBranchInstr c v) s = .next (s.setPc (s.pc + quickValue v s)) := by
      rw [exec_shortBranchInstr, if_pos hc]
    exact ⟨_, hexec, fun _ => narrow_add_quickValue_toInt s s.pc v, nofun, (changesOnly.refl s).setPc _⟩
  | false =>
    have hexec : exec (shortBranchInstr c v) s = .next s := by
      rw [exec_shortBranchInstr, if_neg (by simp [hc])]
    exact ⟨s, hexec, nofun, fun _ => rfl, changesOnly.refl s⟩

end Sys2Proof.Machine
end

section
/-! PROOF. The statements of `60_exceptions.md`: waiting (R324), the acceptance of an interrupt (R304, R305), Reset (R313, R340,
R341) and the entry of an Error (R308). -/

namespace Sys2Proof.Machine

/-! ## Waiting (R324) -/

/-- A halted machine that can accept no interrupt stays as it is (R313, R324; log 14). -/
theorem stepReady_of_halted {s : State} (hirq : s.sr.IF = false ∨ s.pending = []) (hwf : s.sr.WF = true) :
    stepReady s = .next s := by
  have hnone : ¬ (s.sr.IF && !s.pending.isEmpty) = true := by
    obtain hif | hpending := hirq
    · simp [hif]
    · simp [hpending]
  rw [stepReady, if_neg hnone, if_pos hwf]

/-- Settles O9: with no Reset to come the step is that of the waiting machine. -/
theorem haltedMachineWaits : Obligations.HaltedMachineWaits := by
  unfold Obligations.HaltedMachineWaits
  rintro s ⟨hreset, hirq, hwf⟩
  rw [step_of_noReset hreset]
  exact stepReady_of_halted (by rwa [passError_sr, passError_pending]) (by rwa [passError_sr])

/-! ## The acceptance of an interrupt (R304, R305) -/

/-- With IF set, a line pending and R15 even, some pending line is acknowledged and its exception entered. -/
theorem stepReady_of_pending {s : State} (hif : s.sr.IF = true) (hpending : s.pending ≠ [])
    (heven : (s.x SP).getLsbD 0 = false) :
    ∃ i ∈ s.pending, stepReady s = .next ((s.acknowledge i).entered (32 + i) s.pc) := by
  obtain ⟨i, hpick⟩ := pickLine_isSome (draw := s.draws) hpending
  have hmem := pickLine_mem hpick
  have henter : (s.acknowledge i).enter (32 + i) s.pc = .next ((s.acknowledge i).entered (32 + i) s.pc) :=
    enter_of_even (s := s.acknowledge i) heven _ _
  refine ⟨i, hmem, ?_⟩
  rw [stepReady, if_pos (by simp [hif, hpending])]
  exact (acceptInterrupt_eq_next hpending).2 ⟨i, hmem, hpick, henter⟩

/-- The draw of a running Error handler leaves nothing in the acknowledged state but its count (log 31). -/
theorem passError_acknowledge (s : State) (i : Nat) :
    s.passError.acknowledge i = { s.acknowledge i with draws := s.passError.draws + 1 } := by
  rw [passError_eq]
  rfl

/-- Settles O11: the step enters the exception of the line it acknowledges. -/
theorem pendingInterruptIsEntered : Obligations.PendingInterruptIsEntered := by
  unfold Obligations.PendingInterruptIsEntered
  intro s hreset hif hpending heven
  obtain ⟨i, hmem, hstep⟩ := stepReady_of_pending (s := s.boundary.passError) (by rwa [passError_sr])
    (by rwa [passError_pending]) (by rwa [passError_x])
  rw [passError_pending] at hmem
  rw [← step_of_noReset hreset, passError_acknowledge, passError_pc] at hstep
  exact ⟨i, _, _, hmem, hstep, rfl, entered_spec _ _ _⟩

/-! ## Reset (R313, R340, R341) -/

/-- Reset leaves a state as the statements describe it (R340, R341). -/
theorem doReset_spec (s : State) : WasReset s s.doReset where
  flags := doReset_sr s
  pc := doReset_pc s
  pending := doReset_pending s
  inError := doReset_inError s
  regs r := by rw [doReset_regs]; exact narrow_lt _ _
  rstLow := by rw [State.doReset]
  schedule := by rw [State.doReset]
  mem := doReset_mem s
  written := doReset_written s
  params := doReset_params s
  ports := ⟨by rw [State.doReset], by rw [State.doReset]⟩

/-- The start address of a 16-bit machine (R340). -/
theorem WasReset.pc_n16 {s t : State} (h : WasReset s t) (hsize : s.params.size = .n16) : t.pc = 0xFFFA := by
  have hn : s.n = 16 := by rw [State.n, hsize, wordSize_bits_n16]
  have hstart : s.params.startAddr = 0xFFFA := by rw [Params.startAddr, hsize]
  rw [h.pc, hn, hstart]
  decide

/-- A step that is a Reset, for whichever of its two reasons (R308, R340). -/
theorem step_wasReset {s : State} (h : s.boundary.rstLow = true ∨ s.boundary.errorEnded = true) :
    ∃ t, step s = .next t ∧ WasReset s.boundary t ∧ (s.params.size = .n16 → t.pc = 0xFFFA) := by
  have hparams : s.boundary.params = s.params := (boundary_preserves s).params
  exact ⟨_, step_of_reset h, doReset_spec _, fun hsize => (doReset_spec _).pc_n16 (hparams ▸ hsize)⟩

/-! ## The entry of an Error (R308) -/

/-- The state in which the entry of an Error reaches the stack: IF cleared, the handler running, a choice drawn (R308; log 31). -/
def State.erring (s : State) : State := s.inhibit.setInError.drawn

/-- A jump to the handler of an exception (R303). -/
def State.vectored (s : State) (num : Nat) : State :=
  s.setPc (s.bytesAt (s.vectorAddr num) s.T.bytes &&& s.params.vectorMask)

/-- With R15 even the entry of an Error completes, the PC pushed or not (R308; log 31). -/
theorem raiseError_of_even {s : State} (h : (s.x SP).getLsbD 0 = false) (num : Nat) :
    s.raiseError num =
      .next ((if Config.errorPushesPc s.draws then s.erring.pushed s.pc else s.erring).vectored num) := by
  have hpush : s.erring.push s.pc = .next (s.erring.pushed s.pc) := push_eq_pushed (s := s.erring) h s.pc
  refine raiseError_eq_next.2 ⟨_, ?_, rfl⟩
  rw [← State.erring, hpush]
  split <;> rfl

/-- The handler's address is read from memory as the entry leaves it (R303). -/
theorem vectored_pc {s u : State} (hparams : u.params = s.params) (num : Nat) :
    (u.vectored num).pc = narrow s.n
      ((u.vectored num).bytesAt (BitVec.ofNat 32 (4 * num % 2 ^ s.n)) s.T.bytes &&& s.params.vectorMask) := by
  have hn : u.n = s.n := by rw [State.n, hparams, State.n]
  have hT : u.T = s.T := by rw [State.T, hparams, State.T]
  have hbytes : (u.vectored num).bytesAt (u.vectorAddr num) u.T.bytes = u.bytesAt (u.vectorAddr num) u.T.bytes :=
    bytesAt_congr (s := u) (t := u.vectored num) rfl (fun _ => rfl) _ _
  rw [← hn, ← hT, ← hparams, ← State.vectorAddr, hbytes, State.vectored, setPc_pc]

/-- From `s` to `t` the PC of `s` has been pushed alone, or nothing has (R308; log 31). -/
def PushedPcOrNothing (s t : State) : Prop :=
  (t.x SP = s.x SP ∧ t.mem = s.mem) ∨
    (t.x SP = s.pushAddr ∧ holdsWord t (t.x SP) s.T.bytes s.pc ∧
      ∀ a, ¬ inBytes s (t.x SP) s.T.bytes a → t.byteAt a = s.byteAt a)

/-- A push leaves every byte but those of the word pushed (R13). -/
theorem pushed_byteAt_other (s : State) (v : Word) {a : Nat} (h : ¬ inBytes s s.pushAddr s.T.bytes a) :
    (s.pushed v).byteAt a = s.byteAt a := by
  obtain ⟨-, -, hkeeps, -⟩ := pushed_changesOnly s v
  exact hkeeps.byte a h

/-- An Error has been entered once the machine jumps to its vector, if before only the stack has changed (R308). -/
theorem enteredError_of_changesOnly {regs : List Reg} {stored : Nat → Prop} {pc : Word} {s u : State} (num : Nat)
    (hframe : changesOnly regs stored pc { s.sr with IF := false } s.erring u) (hregs : regs ⊆ [SP])
    (hstack : PushedPcOrNothing s u) : EnteredError num s (u.vectored num) := by
  obtain ⟨-, hsr, hkeeps, hin, hout, -⟩ := hframe
  exact
    { inError := hkeeps.inError
      flags := hsr
      pc := vectored_pc hkeeps.params num
      reg := fun r hr => hkeeps.reg r fun hmem => hr (List.mem_singleton.1 (hregs hmem))
      stack := hstack
      lines := ⟨hkeeps.pending, hkeeps.rstLow, hkeeps.schedule, hkeeps.params⟩
      ports := ⟨hin, hout⟩ }

/-- With R15 even an Error is entered, whichever of the two the free choice about the push is (R308; log 31). -/
theorem raiseError_spec {s : State} (h : (s.x SP).getLsbD 0 = false) (num : Nat) :
    ∃ t, s.raiseError num = .next t ∧ EnteredError num s t := by
  refine ⟨_, raiseError_of_even h num, ?_⟩
  split
  case isTrue =>
    have hsp : (s.erring.pushed s.pc).x SP = s.pushAddr := pushed_sp s.erring s.pc
    have hword : holdsWord (s.erring.pushed s.pc) s.pushAddr s.T.bytes s.pc := pushed_holdsWord s.erring s.pc
    exact enteredError_of_changesOnly num (pushed_changesOnly s.erring s.pc) (List.Subset.refl _)
      (.inr ⟨hsp, hsp ▸ hword, hsp ▸ fun _ => pushed_byteAt_other s.erring s.pc⟩)
  case isFalse =>
    exact enteredError_of_changesOnly num (changesOnly.refl s.erring) (List.nil_subset _) (.inl ⟨rfl, rfl⟩)

/-- Settles O8: the step is a Reset for either of its reasons, the entry of an Error is `raiseError_spec`, and a handler that goes on
only draws a choice. -/
theorem resetTakesPriorityAndStartsTheProgram : Obligations.ResetTakesPriorityAndStartsTheProgram := by
  unfold Obligations.ResetTakesPriorityAndStartsTheProgram
  intro s
  refine ⟨fun hlow => step_wasReset (.inl hlow), fun num heven => raiseError_spec heven num, fun hhigh herror => ?_⟩
  have hended : s.boundary.errorEnded = Config.errorHandlerEnds s.boundary.draws := by
    rw [State.errorEnded, herror, Bool.true_and]
  split
  case isTrue hends => exact step_wasReset (.inr (hended.trans hends))
  case isFalse hgoesOn =>
    rw [step_of_noReset ⟨hhigh, hended.trans (eq_false_of_ne_true hgoesOn)⟩, State.passError, if_pos herror]

end Sys2Proof.Machine
end
